-- ==== Sys2Proof/Word.lean ====
section
/-! DEFINITION. The word types of the virtual timer queue engine: the 32-bit interface word
(spec 10_state.md R21) and the 8-bit byte that also holds a TimerId (00_scope.md R6, `IDW`). -/

namespace Sys2Proof

/-- A 32-bit interface word; also the container of every time value (`W <= 32`, 00_scope.md R6). -/
abbrev Word := BitVec 32

/-- Eight bits. -/
abbrev Byte := BitVec 8

/-- A TimerId, `IDW = 8` bits (00_scope.md R6). -/
abbrev TimerId := BitVec 8

end Sys2Proof
end

