-- ==== Sys2Proof/Config.lean ====
section
/-! DEFINITION. The parameters of 00_scope.md R6, the reference configuration REF, and the fixed
numeric constants of the spec. The parameters are plain data: State carries them (log 1), so every
statement over states is a statement over every parameter set. -/

namespace Sys2Proof

/-- The implementation parameters of 00_scope.md R6, all but the fixed ones. -/
structure Params where
  /-- `W`, the width of an absolute time value. -/
  w : Nat
  /-- `HW`, the width of the hardware counter and of each compare register. -/
  hw : Nat
  /-- `N_TIMERS`, the number of slots. -/
  nTimers : Nat
  /-- `MIN_TIMEOUT`, in ticks. -/
  minTimeout : Word
  /-- `MAX_TIMEOUT`, in ticks. -/
  maxTimeout : Word
  /-- `REL_CLAMP`: a relative timeout above `MAX_TIMEOUT` is clamped (true) or rejected (false). -/
  relClamp : Bool
  /-- `HP_PRESENT`: the high-priority timer exists. -/
  hpPresent : Bool
  /-- `HP_MAX_TIMEOUT`, in ticks. -/
  hpMaxTimeout : Word
  deriving DecidableEq, Repr

/-- `SHW = W - HW`, the width of `sys_high` (00_scope.md R6). -/
def Params.shw (p : Params) : Nat := p.w - p.hw

/-- The reference configuration REF of 00_scope.md R6 (92_eei_decisions.md D40). -/
def Params.ref : Params where
  w := 32
  hw := 16
  nTimers := 4
  minTimeout := 1
  maxTimeout := 0x7FFFFFFF
  relClamp := true
  hpPresent := true
  hpMaxTimeout := 0xFFFF

/-- `NO_TIMER = 0xFF`, end of list and not queued (00_scope.md R6). -/
abbrev noTimer : TimerId := 0xFF

/-- `NULL`, the null callback reference, is 0 (10_state.md R23). -/
abbrev null : Word := 0

/-- The status codes of 30_encoding.md R86. -/
inductive Status where
  | success
  | invalidId
  | invalidParameter
  | alreadyRunning
  | invalidTimeout
  | notRunning
  | illegalCommand
  deriving DecidableEq, Repr

/-- The number of a status code, as written to `x[STATUS]` (30_encoding.md R86; bits 31:8 are zero, R83). -/
def Status.code : Status → Word
  | .success => 0x00
  | .invalidId => 0x01
  | .invalidParameter => 0x02
  | .alreadyRunning => 0x03
  | .invalidTimeout => 0x04
  | .notRunning => 0x05
  | .illegalCommand => 0xFF

end Sys2Proof
end

