-- ==== Sys2Proof/Syntax.lean ====
section
/-! DEFINITION. The instructions of the engine: the nine host commands of spec/opcode_table.json
(30_encoding.md R84). The fields are those of the `CMD` word that the command uses; the operands
`timeout`, `cb` and `arg` stand in interface registers, not in the word (R82). -/

namespace Sys2Proof

/-- One constructor per row of the opcode map (30_encoding.md R84). -/
inductive Instr where
  /-- `START`, `OPC` 0x1: start timer `id` (41_slot_table_commands.md R130). -/
  | start (mode : BitVec 4) (id : TimerId)
  /-- `STOP`, `OPC` 0x2: cancel timer `id` (41_slot_table_commands.md R133). -/
  | stop (id : TimerId)
  /-- `IS_RUNNING`, `OPC` 0x3 (41_slot_table_commands.md R134). -/
  | isRunning (id : TimerId)
  /-- `RECONCILE`, `OPC` 0x4 (45_reconcile_dispatch.md R191). -/
  | reconcile
  /-- `POP_EXPIRED`, `OPC` 0x5 (43_expired_queue.md R166). -/
  | popExpired
  /-- `NOW`, `OPC` 0x6 (40_comparator_clock.md R115). -/
  | now
  /-- `HP_START`, `OPC` 0x8, only when `HP_PRESENT` (46_high_priority.md R205). -/
  | hpStart (mode : BitVec 4)
  /-- `HP_STOP`, `OPC` 0x9, only when `HP_PRESENT` (46_high_priority.md R206). -/
  | hpStop
  /-- `HP_IS_RUNNING`, `OPC` 0xA, only when `HP_PRESENT` (46_high_priority.md R207). -/
  | hpIsRunning
  deriving DecidableEq, Repr

/-- The rows that exist only when `HP_PRESENT` (30_encoding.md R84, R89). -/
def Instr.needsHp : Instr → Bool
  | .start _ _ => false
  | .stop _ => false
  | .isRunning _ => false
  | .reconcile => false
  | .popExpired => false
  | .now => false
  | .hpStart _ => true
  | .hpStop => true
  | .hpIsRunning => true

end Sys2Proof
end

