-- ==== Sys2Proof/WellFormed.lean ====
section
/-! DEFINITION. Well-formedness of an instruction (its row must exist in the configuration,
30_encoding.md R89) and of a parameter set (the constraints of 00_scope.md R6). -/

namespace Sys2Proof

/-- An instruction is well formed when its row exists: the three `HP_` rows exist only when
`HP_PRESENT` (30_encoding.md R84, R89). Every field fits by its type. -/
def Instr.wellFormed (hpPresent : Bool) (i : Instr) : Bool := hpPresent || !i.needsHp

/-- `28 <= W <= 32` (00_scope.md R6). -/
def Params.widthOk (p : Params) : Bool := decide (28 ≤ p.w) && decide (p.w ≤ 32)

/-- `1 <= HW <= W` (00_scope.md R6). -/
def Params.counterOk (p : Params) : Bool := decide (1 ≤ p.hw) && decide (p.hw ≤ p.w)

/-- `0 <= N_TIMERS <= 255` (00_scope.md R6). -/
def Params.timersOk (p : Params) : Bool := decide (p.nTimers ≤ 255)

/-- `0 <= MIN_TIMEOUT <= MAX_TIMEOUT <= 2^(W-1) - 1` (00_scope.md R6). -/
def Params.boundsOk (p : Params) : Bool :=
  decide (p.minTimeout.toNat ≤ p.maxTimeout.toNat) && decide (p.maxTimeout.toNat ≤ 2 ^ (p.w - 1) - 1)

/-- `MIN_TIMEOUT <= HP_MAX_TIMEOUT <= min(MAX_TIMEOUT, 2^HW - 1)` (00_scope.md R6), whether or not the
platform has the high-priority timer. -/
def Params.hpBoundOk (p : Params) : Bool :=
  decide (p.minTimeout.toNat ≤ p.hpMaxTimeout.toNat) &&
    decide (p.hpMaxTimeout.toNat ≤ min p.maxTimeout.toNat (2 ^ p.hw - 1))

/-- Every constraint of 00_scope.md R6. A model refuses a parameter set that breaks one
(93_implementation_defined.md U4). -/
def Params.wellFormed (p : Params) : Bool :=
  p.widthOk && p.counterOk && p.timersOk && p.boundsOk && p.hpBoundOk

end Sys2Proof
end

