-- ==== Sys2Proof/Decode.lean ====
section
/-! DEFINITION. The decoder of 30_encoding.md R87 over the opcode map of R84, total on all `2^32`
`CMD` words, and the encoder after it. The decoder looks only at the `CMD` word. -/

namespace Sys2Proof

/-- The nine operations of the opcode map (30_encoding.md R84). -/
inductive Opcode where
  | start | stop | isRunning | reconcile | popExpired | now | hpStart | hpStop | hpIsRunning
  deriving DecidableEq, Repr

/-- One row of the opcode map: a frame selects it when `(CMD and mask) = pattern`. -/
structure OpcodeRow where
  op : Opcode
  pattern : Word
  mask : Word
  /-- The row exists only when `HP_PRESENT` (30_encoding.md R89). -/
  hpOnly : Bool
  deriving DecidableEq, Repr

/-- The opcode map (30_encoding.md R84, the columns `match` and `mask`). -/
def opcodeMap : List OpcodeRow :=
  [ ⟨.start, 0x10000000, 0xF0FFFF00, false⟩,
    ⟨.stop, 0x20000000, 0xFFFFFF00, false⟩,
    ⟨.isRunning, 0x30000000, 0xFFFFFF00, false⟩,
    ⟨.reconcile, 0x40000000, 0xFFFFFFFF, false⟩,
    ⟨.popExpired, 0x50000000, 0xFFFFFFFF, false⟩,
    ⟨.now, 0x60000000, 0xFFFFFFFF, false⟩,
    ⟨.hpStart, 0x80000000, 0xF0FFFFFF, true⟩,
    ⟨.hpStop, 0x90000000, 0xFFFFFFFF, true⟩,
    ⟨.hpIsRunning, 0xA0000000, 0xFFFFFFFF, true⟩ ]

/-- `OPC`, bits 31:28 (30_encoding.md R81). -/
def fieldOpc (c : Word) : BitVec 4 := c.extractLsb' 28 4

/-- `MODE`, bits 27:24 (30_encoding.md R81). -/
def fieldMode (c : Word) : BitVec 4 := c.extractLsb' 24 4

/-- `RSV`, bits 23:8 (30_encoding.md R81). -/
def fieldRsv (c : Word) : BitVec 16 := c.extractLsb' 8 16

/-- `ID`, bits 7:0 (30_encoding.md R81). -/
def fieldId (c : Word) : TimerId := c.extractLsb' 0 8

/-- A frame selects a row (30_encoding.md R84), if the row exists in the configuration (R89). -/
def OpcodeRow.selects (hpPresent : Bool) (c : Word) (r : OpcodeRow) : Bool :=
  (hpPresent || !r.hpOnly) && (c &&& r.mask == r.pattern)

/-- The instruction of a row, with `id = c[7:0]` and `mode = c[27:24]` (30_encoding.md R87). -/
def Opcode.build (op : Opcode) (c : Word) : Instr :=
  match op with
  | .start => .start (fieldMode c) (fieldId c)
  | .stop => .stop (fieldId c)
  | .isRunning => .isRunning (fieldId c)
  | .reconcile => .reconcile
  | .popExpired => .popExpired
  | .now => .now
  | .hpStart => .hpStart (fieldMode c)
  | .hpStop => .hpStop
  | .hpIsRunning => .hpIsRunning

/-- Why a frame is illegal (30_encoding.md R88, R89). The machine treats all three alike. -/
inductive IllegalFrame where
  /-- `OPC` is 0x0, 0x7 or 0xB to 0xF. -/
  | unassignedOpcode
  /-- A non-zero `RSV`, or a non-zero `MODE` or `ID` in a command that does not use the field. -/
  | nonZeroField
  /-- `OPC` is 0x8, 0x9 or 0xA and `HP_PRESENT` is false. -/
  | hpAbsent
  deriving DecidableEq, Repr

/-- What a `CMD` word decodes to. -/
inductive Decoded where
  | instr (i : Instr)
  | illegal (why : IllegalFrame)
  deriving DecidableEq, Repr

/-- The name of an illegal frame that selects no row. -/
def illegalReason (hpPresent : Bool) (c : Word) : IllegalFrame :=
  let opc := (fieldOpc c).toNat
  if 8 ≤ opc && opc ≤ 10 then (if hpPresent then .nonZeroField else .hpAbsent)
  else if 1 ≤ opc && opc ≤ 6 then .nonZeroField
  else .unassignedOpcode

/-- `decode(c)` of 30_encoding.md R87: the first row that the frame selects; `Illegal` when none does. -/
def decode (hpPresent : Bool) (c : Word) : Decoded :=
  match opcodeMap.find? (OpcodeRow.selects hpPresent c) with
  | some r => .instr (r.op.build c)
  | none => .illegal (illegalReason hpPresent c)

/-- The frame's `CMD` word `(OPC << 28) | (mode << 24) | id` (30_encoding.md R90). -/
def cmdWord (opc mode : BitVec 4) (id : TimerId) : Word := opc ++ mode ++ (0 : BitVec 16) ++ id

/-- The `CMD` word of an instruction (30_encoding.md R84, R90). -/
def encode : Instr → Word
  | .start mode id => cmdWord 0x1 mode id
  | .stop id => cmdWord 0x2 0 id
  | .isRunning id => cmdWord 0x3 0 id
  | .reconcile => cmdWord 0x4 0 0
  | .popExpired => cmdWord 0x5 0 0
  | .now => cmdWord 0x6 0 0
  | .hpStart mode => cmdWord 0x8 mode 0
  | .hpStop => cmdWord 0x9 0 0
  | .hpIsRunning => cmdWord 0xA 0 0

/-- The `CMD` word of a table row's bits: the row has one 32-bit word; bits above `nbits` are zero. -/
def tableWord (nbits w : Nat) : Word := BitVec.ofNat 32 (w % 2 ^ nbits)

/-- The instruction that the decoder reads from a word whose bits are numbered as
spec/opcode_table.json numbers them, in the reference configuration (`HP_PRESENT` true, 00_scope.md R6). -/
def decodeTableWord (nbits w : Nat) : Option Instr :=
  match decode Params.ref.hpPresent (tableWord nbits w) with
  | .instr i => some i
  | .illegal _ => none

end Sys2Proof
end

