-- ==== Sys2Proof/Machine/State.lean ====
section
/-! DEFINITION. The state of the engine (10_state.md R20 to R39) as plain data, the host's moves and
the schedule that are the inputs of a run (10_state.md R40), the reasons a step can stop, and reset. -/

namespace Sys2Proof.Machine

/-- `ctx`: the execution context (10_state.md R38). -/
inductive Ctx where
  | main
  | irq
  deriving DecidableEq, Repr

/-- `fault`: the sticky fault register (10_state.md R39). -/
inductive FaultReg where
  | none
  | fatalAssert
  | invariantViolated
  deriving DecidableEq, Repr

/-- One entry of the slot table (10_state.md R23). -/
@[ext]
structure Slot where
  absExpiry : Word
  callback : Word
  callbackArg : Word
  next : TimerId
  deriving DecidableEq, Repr

/-- The block's only memory, the slot table (10_state.md R23): position is TimerId. -/
abbrev Memory := List Slot

/-- One move of the `HOST` agent (20_memory.md R60; 30_encoding.md R91, R92; 60_exceptions.md R252). -/
inductive HostMove where
  /-- A write of `size` bytes at a byte offset of the interface space; at offset 0 it issues a command. -/
  | write (offset size : Nat) (value : Word)
  /-- A read of `size` bytes at a byte offset of the interface space. -/
  | read (offset size : Nat)
  /-- `HostIrqEnable` (30_encoding.md R92). -/
  | irqEnable
  /-- `HostIrqDisable` (30_encoding.md R92). -/
  | irqDisable
  /-- `HostIret` (30_encoding.md R92). -/
  | iret
  /-- Control passes to the callback body for `cb` with argument `arg` (60_exceptions.md R236). -/
  | invoke (cb arg : Word)
  /-- The host reads a register and skips its next `skip` moves unless the masked value is `value`:
  "may depend on ... the results of its own commands" (60_exceptions.md R236). -/
  | branch (offset : Nat) (mask value : Word) (skip : Nat)
  /-- The pseudo-command `SERVICE` (45_reconcile_dispatch.md R192). -/
  | service
  /-- Inside `SERVICE`: issue the next `POP_EXPIRED` of step (b). -/
  | servicePop
  /-- Inside `SERVICE`: look at the pop's result; invoke and go on, or stop. -/
  | serviceTest
  /-- The pseudo-command `DELAY n` (40_comparator_clock.md R116). -/
  | delay (n : Word)
  /-- Inside `DELAY`: the first `NOW` has returned, its result is `t0`. -/
  | delayStart (n : Word)
  /-- Inside `DELAY`: a later `NOW` has returned; stop or read the time again. -/
  | delayTest (t0 n : Word)
  /-- The harness action `ADVANCE n` (30_encoding.md R92). -/
  | advance (n : Nat)
  /-- Inside `ADVANCE`: `IRQ` steps until none is enabled. -/
  | settle
  deriving DecidableEq, Repr

/-- Whose turn it is (20_memory.md R60, R62): an entry of the schedule. -/
inductive Turn where
  | host
  | clk
  | irq
  /-- The reset line (70_reset_and_hazards.md R260); `program` is what the host does afterwards. -/
  | reset (program : List HostMove)
  deriving DecidableEq, Repr

/-- One entry of the host program's map from (callback reference, argument) to a body
(93_implementation_defined.md U9, 60_exceptions.md R236). -/
structure Callback where
  cb : Word
  arg : Word
  body : List HostMove
  deriving DecidableEq, Repr

/-- The three interrupt sources (60_exceptions.md R231). -/
inductive Source where
  | ovf
  | hp
  | cmp
  deriving DecidableEq, Repr

/-- The whole state. Fields in the spec's order (10_state.md R20); the last six are the model's own
(INVENTORY.md, section State). Values of `W`, `HW` and `SHW` bits stand in a 32-bit word. -/
@[ext]
structure State where
  /-- The parameters of 00_scope.md R6, never written (DESIGN CHOICE, log 1, safe). -/
  cfg : Params
  cmd : Word
  opTimeout : Word
  opCb : Word
  opArg : Word
  status : Word
  res0 : Word
  res1 : Word
  res2 : Word
  slots : Memory
  runHead : TimerId
  expHead : TimerId
  expTail : TimerId
  runCount : Byte
  expiredFlag : Bool
  ocrAuth : Bool
  sysHigh : Word
  cnt : Word
  ocr : Word
  cmpIe : Bool
  cmpIf : Bool
  ovfIe : Bool
  ovfIf : Bool
  hpCb : Word
  hpArg : Word
  hpExpiry : Word
  ocrHp : Word
  hpIe : Bool
  hpIf : Bool
  gie : Bool
  ctx : Ctx
  fault : FaultReg
  /-- The schedule: whose turn comes next (20_memory.md R62; DESIGN CHOICE, log 4). -/
  sched : List Turn
  /-- The host's remaining moves, next first (60_exceptions.md R236; DESIGN CHOICE, log 6). -/
  host : List HostMove
  /-- The number of ticks at each coming `yield` (20_memory.md R63; DESIGN CHOICE, log 3). -/
  draws : List Nat
  /-- The host program's callback bodies (60_exceptions.md R236; DESIGN CHOICE, log 7). -/
  callbacks : List Callback
  /-- What the host's last interface read returned (20_memory.md R69; DESIGN CHOICE, log 8). -/
  hostRead : Word
  deriving DecidableEq, Repr

/-- Why a step stops with a fault. Both are the spec's own fail-stop (60_exceptions.md R228, R229):
the raise itself is a next state with the `fault` register written; every later step answers this. -/
inductive Fault where
  /-- The `fault` register holds `FatalAssert`: raised by the high-priority delivery with no callback
  registered; "no agent steps". Safe: the hardware stops here too. -/
  | fatalAssert
  /-- The `fault` register holds `InvariantViolated`: raised by a procedure that meets a state outside
  `WF`. Safe: the spec stops here too. -/
  | invariantViolated
  deriving DecidableEq, Repr

/-- Why a step is refused. -/
inductive Refusal where
  /-- Raised by an arm of exec that has no meaning yet. No arm raises it in this model. Safe. -/
  | notModelled (mnemonic : String)
  /-- Raised by a host access to an interface register (offset below 0x20) that is not one aligned 32-bit
  word: "a sub-word access is not a defined operation of the interface and a model refuses it"
  (20_memory.md R68; misaligned too, 93_implementation_defined.md V7). Safe. -/
  | subWordAccess
  /-- Raised by `HostIret` with `ctx = MAIN` and by `HostIrqEnable` or `HostIrqDisable` with
  `ctx = IRQ`: not moves the host has (60_exceptions.md R248, 93_implementation_defined.md V10). Safe. -/
  | moveNotInContext
  /-- Raised by every step of a state whose parameters break a constraint of 00_scope.md R6
  (93_implementation_defined.md U4). Safe. -/
  | badParameters
  deriving DecidableEq, Repr

/-- The outcome of a step of this machine. -/
abbrev Result := Host.Outcome State Fault Refusal

/-- A slot right after reset (10_state.md R45). -/
def Slot.reset : Slot where
  absExpiry := 0
  callback := null
  callbackArg := 0
  next := noTimer

/-- The state right after reset, for any parameter set (10_state.md R45). The six fields of the model's
own are empty or zero (DESIGN CHOICE, logs 3 to 8). -/
def State.resetFor (p : Params) : State where
  cfg := p
  cmd := 0
  opTimeout := 0
  opCb := 0
  opArg := 0
  status := 0
  res0 := 0
  res1 := 0
  res2 := 0
  slots := List.replicate p.nTimers Slot.reset
  runHead := noTimer
  expHead := noTimer
  expTail := noTimer
  runCount := 0
  expiredFlag := false
  ocrAuth := false
  sysHigh := 0
  cnt := 0
  ocr := 0
  cmpIe := false
  cmpIf := false
  ovfIe := true
  ovfIf := false
  hpCb := null
  hpArg := 0
  hpExpiry := 0
  ocrHp := 0
  hpIe := false
  hpIf := false
  gie := false
  ctx := .main
  fault := .none
  sched := []
  host := []
  draws := []
  callbacks := []
  hostRead := 0

/-- The state right after reset, in the reference configuration REF (DESIGN CHOICE, log 1). -/
def State.reset : State := State.resetFor Params.ref

end Sys2Proof.Machine
end

