-- ==== Sys2Proof/Machine/Ops.lean ====
section
/-! DEFINITION. The named operations over the state: bit fields, the extended clock, the slot table,
the tick and the `yield`, the interface registers, command results, the critical region, raising a
fault, interrupt entry and return. Every meaning is written over these. -/

namespace Sys2Proof.Machine

/-! ### Bit fields (00_scope.md R8) -/

/-- `x mod 2^n`: the low `n` bits, zero-extended. -/
def lowBits (n : Nat) (x : Word) : Word := BitVec.ofNat 32 (x.toNat % 2 ^ n)

/-! ### Split, join and sample of a time (40_comparator_clock.md R112, R113) -/

/-- `hi(t) = t[W-1:HW]` (R112). -/
def timeHi (p : Params) (t : Word) : Word := BitVec.ofNat 32 (t.toNat % 2 ^ p.w / 2 ^ p.hw)

/-- `lo(t) = t[HW-1:0]` (R112). -/
def timeLo (p : Params) (t : Word) : Word := lowBits p.hw t

/-- `Now() = (sys_high << HW) | cnt`, a `W`-bit value; it does not look at `ovf_if` (R113). -/
def State.nowTime (s : State) : Word := lowBits s.cfg.w ((s.sysHigh <<< s.cfg.hw) ||| s.cnt)

/-- `(t + d) mod 2^W` (R114). -/
def timeAdd (p : Params) (t d : Word) : Word := lowBits p.w (t + d)

/-- `(t2 - t1) mod 2^W` (R110, R114). -/
def timeSub (p : Params) (t2 t1 : Word) : Word := lowBits p.w (t2 - t1)

/-! ### The slot table (10_state.md R23; 20_memory.md R65, R69) -/

/-- `slot[id]`; nothing for a TimerId that names no slot (20_memory.md R69). -/
def State.slot? (s : State) (id : TimerId) : Option Slot :=
  if id.toNat < s.cfg.nTimers then s.slots[id.toNat]? else none

/-- Replace `slot[id]` by `f` of it; a TimerId that names no slot changes nothing. -/
def State.modifySlot (s : State) (id : TimerId) (f : Slot → Slot) : State :=
  { s with slots := s.slots.modify id.toNat f }

/-- `slot[id].next <- n`. -/
def State.setNext (s : State) (id n : TimerId) : State :=
  s.modifySlot id fun sl => { sl with next := n }

/-- `slot[id].callback <- NULL`. -/
def State.clearCallback (s : State) (id : TimerId) : State :=
  s.modifySlot id fun sl => { sl with callback := null }

/-- Step 4 of the insertion: `abs_expiry`, `callback` and `callback_arg` (42_running_queue.md R150). -/
def State.fillSlot (s : State) (id : TimerId) (target cb arg : Word) : State :=
  s.modifySlot id fun sl => { sl with absExpiry := target, callback := cb, callbackArg := arg }

/-- The canonical form of the slot table (INVENTORY.md): exactly `N_TIMERS` slots, one per TimerId in
order, every `abs_expiry` a `W`-bit value. -/
def Memory.wf (p : Params) (m : Memory) : Bool :=
  m.length == p.nTimers && m.all fun sl => decide (sl.absExpiry.toNat < 2 ^ p.w)

/-! ### The queue registers and flags (10_state.md R25 to R29, R37) -/

/-- `run_head <- id`. -/
def State.setRunHead (s : State) (id : TimerId) : State := { s with runHead := id }

/-- `exp_head <- id`. -/
def State.setExpHead (s : State) (id : TimerId) : State := { s with expHead := id }

/-- `exp_tail <- id`. -/
def State.setExpTail (s : State) (id : TimerId) : State := { s with expTail := id }

/-- `run_count + 1` modulo `2^8` (10_state.md R27). A wrong count raises nothing (DEDUCED, log 19). -/
def State.incRunCount (s : State) : State := { s with runCount := s.runCount + 1 }

/-- `run_count - 1` modulo `2^8` (10_state.md R27). DEDUCED: a count that disagrees with the running queue
raises nothing, as R27 ("No rule of the engine branches on `run_count`") and the list of 60_exceptions.md
R229 say, although 93_implementation_defined.md U3 names it among the breaches that fault (log 19, unsafe
outside `WF`). -/
def State.decRunCount (s : State) : State := { s with runCount := s.runCount - 1 }

/-- `expired_flag <- b`. -/
def State.setExpired (s : State) (b : Bool) : State := { s with expiredFlag := b }

/-- `ocr_auth <- b`. -/
def State.setAuth (s : State) (b : Bool) : State := { s with ocrAuth := b }

/-- `gie <- b`. -/
def State.setGie (s : State) (b : Bool) : State := { s with gie := b }

/-! ### Procedures that may raise (60_exceptions.md R228, R229) -/

/-- What an internal procedure ends in: it is done with a value, or it has raised a fault. -/
inductive Proc (α : Type) where
  | done (a : α) (s : State)
  | raised (s : State)
  deriving DecidableEq, Repr

/-- The next procedure runs only when the one before it has not raised. -/
def Proc.andThen {α β : Type} (r : Proc α) (f : α → State → Proc β) : Proc β :=
  match r with
  | .done a s => f a s
  | .raised s => .raised s

/-- `fault <- InvariantViolated` (60_exceptions.md R229); nothing after it runs. -/
def State.invariantViolated (s : State) : State := { s with fault := .invariantViolated }

/-- `fault <- FatalAssert` (60_exceptions.md R228); nothing after it runs. -/
def State.fatalAssert (s : State) : State := { s with fault := .fatalAssert }

/-- Use `slot[id]`; a TimerId that names no slot raises `InvariantViolated` (20_memory.md R69). -/
def State.withSlot {α : Type} (s : State) (id : TimerId) (f : Slot → Proc α) : Proc α :=
  match s.slot? id with
  | some sl => f sl
  | none => .raised s.invariantViolated

/-! ### The tick and the yield (60_exceptions.md R240; 20_memory.md R63) -/

/-- The counter after one more tick: `(cnt + 1) mod 2^HW` (R240). -/
def State.cntNext (s : State) : Word := lowBits s.cfg.hw (s.cnt + 1)

/-- The `CLK` step: the counter advances, then the latches look at its new value (R240). -/
def State.tick (s : State) : State :=
  { s with
    cnt := s.cntNext
    ovfIf := s.ovfIf || s.cntNext == 0
    cmpIf := s.cmpIf || (s.cmpIe && s.cntNext == s.ocr)
    hpIf := s.hpIf || (s.cfg.hpPresent && s.hpIe && s.cntNext == s.ocrHp) }

/-- `n` ticks. -/
def State.ticks : Nat → State → State
  | 0, s => s
  | n + 1, s => State.ticks n s.tick

/-- The next draw is used up. -/
def State.useDraw (s : State) : State := { s with draws := s.draws.tail }

/-- `yield`: the `CLK` agent takes the drawn number of steps (20_memory.md R63). With no draw left it
takes none, the schedule SCHED0 of R75 (DESIGN CHOICE, log 3, unsafe for a claim about one run only). -/
def State.yield (s : State) : State :=
  State.ticks (s.draws.headD 0) s.useDraw

/-! ### Interface registers (10_state.md R21; 20_memory.md R68, R69) -/

/-- The 32-bit word at register number `n`; offsets from 0x20 up read 0 (R69). No other state has a number:
`run_count` is no performance counter, "and the host cannot read it" (60_exceptions.md R250). -/
def State.readRegister (s : State) (n : Nat) : Word :=
  match n with
  | 0 => s.cmd
  | 1 => s.opTimeout
  | 2 => s.opCb
  | 3 => s.opArg
  | 4 => s.status
  | 5 => s.res0
  | 6 => s.res1
  | 7 => s.res2
  | _ => 0

/-- The host's write of register number `n`: "A host write to a read-only register is ignored"
(10_state.md R21; log 10), and a write from offset 0x20 up is ignored (20_memory.md R69). The command
that a write of `CMD` issues is `issueCommand`. -/
def State.writeRegister (s : State) (n : Nat) (v : Word) : State :=
  match n with
  | 0 => { s with cmd := v }
  | 1 => { s with opTimeout := v }
  | 2 => { s with opCb := v }
  | 3 => { s with opArg := v }
  | _ => s

/-- "offsets from `0x20` upward are reserved, read as 0 and ignore writes" (20_memory.md R69). -/
def reservedOffset (offset : Nat) : Bool := decide (0x20 ≤ offset)

/-- An access that has an effect: one aligned 32-bit word of a register (20_memory.md R68), or any access to
a reserved offset (R69, 93_implementation_defined.md V8). DEDUCED: R68's refusal of a sub-word access is of
one to an interface register, as 93 V7 has it (log 2, safe). -/
def accessDefined (offset size : Nat) : Bool := reservedOffset offset || (size == 4 && offset % 4 == 0)

/-- Bit `8*k` upward of a word: its byte number `k`, little-endian (20_memory.md R68). -/
def byteOf (v : Word) (k : Nat) : Byte := v.extractLsb' (8 * k) 8

/-- The byte at a byte offset of the interface space, where an implementation places the registers on
a byte-addressed bus: "the byte at the lowest address holds bits 7:0" (20_memory.md R68). -/
def State.interfaceByte (s : State) (a : Nat) : Byte := byteOf (s.readRegister (a / 4)) (a % 4)

/-! ### Command results and the critical region (30_encoding.md R83; 20_memory.md R66) -/

/-- What a command returns: `return (S, r0, r1, r2)` (00_scope.md R9). -/
structure Reply where
  status : Status
  res0 : Word
  res1 : Word
  res2 : Word
  deriving DecidableEq, Repr

/-- `return S`: the results are zero when not given (00_scope.md R9). -/
def Reply.only (st : Status) : Reply := ⟨st, 0, 0, 0⟩

/-- A boolean result: `RES0` bit 0, all else zero (30_encoding.md R83). -/
def Reply.bool (b : Bool) : Reply := ⟨.success, if b then 1 else 0, 0, 0⟩

/-- Every command writes all four result registers at its end (30_encoding.md R83). -/
def State.writeReply (s : State) (r : Reply) : State :=
  { s with status := r.status.code, res0 := r.res0, res1 := r.res1, res2 := r.res2 }

/-- `saved <- gie; gie <- 0; <body>; gie <- saved`, then the results (20_memory.md R66, 60_exceptions.md
R246). A body that raises never returns: `gie` stays 0 and no result is written (R228, R229; log 9). -/
def criticalRegion (body : State → Proc Reply) (s : State) : Result :=
  match body (s.setGie false) with
  | .done r t => .next ((t.setGie s.gie).writeReply r)
  | .raised t => .next t

/-- The answer to an illegal frame, and to a command refused in interrupt context: only the result
registers change, `gie` is not touched (30_encoding.md R88, 60_exceptions.md R227). -/
def State.illegalCommand (s : State) : State := s.writeReply (Reply.only .illegalCommand)

/-! ### Interrupt entry and return (60_exceptions.md R237, R238) -/

/-- Taking an interrupt: `ctx <- IRQ; gie <- 0`; nothing is saved (R237). -/
def State.interruptEntry (s : State) : State := { s with ctx := .irq, gie := false }

/-- Interrupt return: `ctx <- MAIN; gie <- 1`; it restores nothing else (R238). -/
def State.interruptReturn (s : State) : State := { s with ctx := .main, gie := true }

/-! ### The host's control stack (60_exceptions.md R236, R239) -/

/-- The host's next moves: they come before what it was going to do. -/
def State.pushHost (s : State) (moves : List HostMove) : State := { s with host := moves ++ s.host }

/-- The body that the host program gives for `(cb, arg)`; empty when it gives none (log 7). -/
def State.callbackBody (s : State) (cb arg : Word) : List HostMove :=
  match s.callbacks.find? fun c => c.cb == cb && c.arg == arg with
  | some c => c.body
  | none => []

end Sys2Proof.Machine
end

