-- ==== Sys2Proof/Machine/Clock.lean ====
section
/-! DEFINITION. The meaning of `NOW` (40_comparator_clock.md R115). -/

namespace Sys2Proof.Machine

/-- `NOW`: the time sample, zero-extended (R115). -/
def execNow (s : State) : Result := criticalRegion (fun t => .done ⟨.success, t.nowTime, 0, 0⟩ t) s

end Sys2Proof.Machine
end

