-- ==== Sys2Proof/Machine/Flags.lean ====
section
/-! DEFINITION. The comparator (40_comparator_clock.md R110), the platform operations on the compare
unit's flags (60_exceptions.md R242 to R244), and which interrupt source is deliverable
(60_exceptions.md R231, R235). -/

namespace Sys2Proof.Machine

/-- `is_before(t1, t2) = ((t2 - t1) mod 2^W) < 2^(W-1)` (R110): `t1` is at or before `t2`. -/
def isBefore (p : Params) (t1 t2 : Word) : Bool := decide ((timeSub p t2 t1).toNat < 2 ^ (p.w - 1))

/-- The safety check's question: `is_before(exp, (now + 1) mod 2^W)` (44_compare_programmer.md R179). -/
def State.isDue (s : State) (exp : Word) : Bool := isBefore s.cfg exp (timeAdd s.cfg s.nowTime 1)

/-- `program_compare(v)`: `ocr <- v`, and no other effect (R242). -/
def State.programCompare (s : State) (v : Word) : State := { s with ocr := v }

/-- `enable_compare_irq()`: `cmp_if <- 0; cmp_ie <- 1` (R243). -/
def State.enableCompareIrq (s : State) : State := { s with cmpIf := false, cmpIe := true }

/-- `disable_compare_irq()`: `cmp_ie <- 0; cmp_if <- 0` (R244). -/
def State.disableCompareIrq (s : State) : State := { s with cmpIe := false, cmpIf := false }

/-- The latch and the enable of a source are both 1 (R231; `HP` only when `HP_PRESENT`). -/
def State.raisedSource (s : State) : Source → Bool
  | .ovf => s.ovfIf && s.ovfIe
  | .hp => s.cfg.hpPresent && s.hpIf && s.hpIe
  | .cmp => s.cmpIf && s.cmpIe

/-- A source is deliverable when `fault = None`, `gie = 1`, `ctx = MAIN`, its latch is 1 and its enable
is 1 (R231). -/
def State.isDeliverable (s : State) (src : Source) : Bool :=
  s.fault == .none && s.gie && s.ctx == .main && s.raisedSource src

/-- The source the `IRQ` agent takes: `OVF` first, then `HP`, then `CMP` (R235). -/
def State.deliverable (s : State) : Option Source :=
  if s.isDeliverable .ovf then some .ovf
  else if s.isDeliverable .hp then some .hp
  else if s.isDeliverable .cmp then some .cmp
  else none

end Sys2Proof.Machine
end

