-- ==== Sys2Proof/Machine/Operands.lean ====
section
/-! DEFINITION. The operands of the commands (30_encoding.md R82, R85) and the target of a timeout in
each mode (41_slot_table_commands.md R130 to R132, 46_high_priority.md R205). -/

namespace Sys2Proof.Machine

/-- `timeout = x[OP_TIMEOUT]`, an unsigned number of ticks (R82). -/
def State.operandTimeout (s : State) : Word := s.opTimeout

/-- `cb = x[OP_CB]`; 0 is `NULL` (R82). -/
def State.operandCb (s : State) : Word := s.opCb

/-- `arg = x[OP_ARG]`, never interpreted (R82). -/
def State.operandArg (s : State) : Word := s.opArg

/-- `MODE` 0 is Relative, 1 is Absolute, 2 to 15 are invalid (R85). -/
def modeValid (mode : BitVec 4) : Bool := mode == 0 || mode == 1

/-- `min <= delay <= max`, unsigned 32-bit (40_comparator_clock.md R114). -/
def delayInRange (lo hi delay : Word) : Bool :=
  decide (lo.toNat ≤ delay.toNat) && decide (delay.toNat ≤ hi.toNat)

/-- The target of an absolute timeout with `MIN_TIMEOUT <= delay <= hi`; none is `InvalidTimeout`
(R132). An operand of `2^W` or more is not a time. -/
def absoluteTarget (p : Params) (hi timeout now : Word) : Option Word :=
  if timeout.toNat < 2 ^ p.w then
    if delayInRange p.minTimeout hi (timeSub p timeout now) then some timeout else none
  else none

/-- The delay of a relative `START`: above `MAX_TIMEOUT` it is clamped when `REL_CLAMP`, else rejected;
below `MIN_TIMEOUT` it is rejected (R130, R131). -/
def relativeDelay (p : Params) (timeout : Word) : Option Word :=
  let clamped := if p.maxTimeout.toNat < timeout.toNat && p.relClamp then p.maxTimeout else timeout
  if delayInRange p.minTimeout p.maxTimeout clamped then some clamped else none

/-- The target of `START`; none is `InvalidTimeout` (R130). -/
def startTarget (p : Params) (mode : BitVec 4) (timeout now : Word) : Option Word :=
  if mode == 0 then (relativeDelay p timeout).map (timeAdd p now)
  else absoluteTarget p p.maxTimeout timeout now

/-- The target of `HP_START`: own upper bound, never clamped; none is `InvalidTimeout`
(46_high_priority.md R205). -/
def hpTarget (p : Params) (mode : BitVec 4) (timeout now : Word) : Option Word :=
  if mode == 0 then
    if delayInRange p.minTimeout p.hpMaxTimeout timeout then some (timeAdd p now timeout) else none
  else absoluteTarget p p.hpMaxTimeout timeout now

end Sys2Proof.Machine
end

