-- ==== Sys2Proof/Machine/HighPriority.lean ====
section
/-! DEFINITION. The meanings of `HP_START`, `HP_STOP` and `HP_IS_RUNNING` (46_high_priority.md R205 to
R207). When `HP_PRESENT` is false the three are illegal commands (30_encoding.md R89); the decoder never
yields them there, and the meanings answer the same. -/

namespace Sys2Proof.Machine

/-- Arming the high-priority timer (R205). -/
def State.hpArm (s : State) (target : Word) : State :=
  { s with
    hpCb := s.operandCb
    hpArg := s.operandArg
    hpExpiry := target
    ocrHp := timeLo s.cfg target
    hpIf := false
    hpIe := true }

/-- The body of `HP_START`: `InvalidParameter`, then `AlreadyRunning`, then `InvalidTimeout` (R205,
60_exceptions.md R230); atomic. -/
def hpStartBody (mode : BitVec 4) (s : State) : Proc Reply :=
  if s.operandCb = null || !modeValid mode then .done (Reply.only .invalidParameter) s
  else if s.hpCb ≠ null then .done (Reply.only .alreadyRunning) s
  else match hpTarget s.cfg mode s.operandTimeout s.nowTime with
    | none => .done (Reply.only .invalidTimeout) s
    | some target => .done (Reply.only .success) (s.hpArm target)

/-- `HP_START mode` with its operands in `OP_TIMEOUT`, `OP_CB`, `OP_ARG` (R205). -/
def execHpStart (mode : BitVec 4) (s : State) : Result :=
  if s.cfg.hpPresent then criticalRegion (hpStartBody mode) s else .next s.illegalCommand

/-- `hp_cb <- NULL; hp_ie <- 0; hp_if <- 0` (R206, 60_exceptions.md R234). -/
def State.hpClear (s : State) : State := { s with hpCb := null, hpIe := false, hpIf := false }

/-- The body of `HP_STOP` (R206): `hp_arg`, `hp_expiry` and `ocr_hp` keep their values. -/
def hpStopBody (s : State) : Proc Reply :=
  if s.hpCb = null then .done (Reply.only .notRunning) s
  else .done (Reply.only .success) s.hpClear

/-- `HP_STOP` (R206). -/
def execHpStop (s : State) : Result :=
  if s.cfg.hpPresent then criticalRegion hpStopBody s else .next s.illegalCommand

/-- `HP_IS_RUNNING` (R207). -/
def execHpIsRunning (s : State) : Result :=
  if s.cfg.hpPresent then criticalRegion (fun t => .done (Reply.bool (t.hpCb != null)) t) s
  else .next s.illegalCommand

end Sys2Proof.Machine
end

