-- ==== Sys2Proof/Machine/CompareProgrammer.lean ====
section
/-! DEFINITION. The hardware compare programmer `prog_compare` (44_compare_programmer.md R175 to R179). -/

namespace Sys2Proof.Machine

/-- Programming before the safety check: the compare unit is armed for the head's deadline when its high
part equals `sys_high`, and disarmed otherwise (R177, R178). -/
def State.armCompare (s : State) (exp : Word) : State :=
  if timeHi s.cfg exp = s.sysHigh then
    (s.programCompare (timeLo s.cfg exp)).enableCompareIrq.setAuth true
  else s.disableCompareIrq.setAuth false

/-- The safety check: set `expired_flag` when the deadline is due; never clear it (R179). -/
def State.safetyCheck (s : State) (exp : Word) : State :=
  s.setExpired (s.expiredFlag || s.isDue exp)

/-- `prog_compare()` (R175). -/
def progCompare (s : State) : Proc Unit :=
  if s.runHead = noTimer then .done () (s.disableCompareIrq.setAuth false)
  else s.withSlot s.runHead fun sl =>
    .done () ((s.armCompare sl.absExpiry).yield.safetyCheck sl.absExpiry)

end Sys2Proof.Machine
end

