-- ==== Sys2Proof/Machine/ExpiredQueue.lean ====
section
/-! DEFINITION. The queue walk that both removals and the insertion use, the expired queue's procedures
(43_expired_queue.md R165, R167) and the meaning of `POP_EXPIRED` (R166). -/

namespace Sys2Proof.Machine

/-- What a removal answers (42_running_queue.md R152, 43_expired_queue.md R167). -/
inductive Removal where
  | notFound
  | removed
  | removedRunningHead
  deriving DecidableEq, Repr

/-- The loop `while cur != NO_TIMER and go: prev = cur; cur = slot[cur].next` of both queues. It answers
`(prev, cur)` where it stops, and nothing when it reads a link that is neither `NO_TIMER` nor a slot, or
needs more than `fuel` iterations (42_running_queue.md R154). -/
def State.walk (s : State) (go : TimerId → Slot → Bool) : Nat → TimerId → TimerId → Option (TimerId × TimerId)
  | fuel, prev, cur =>
    if cur = noTimer then some (prev, cur)
    else match s.slot? cur with
      | none => none
      | some sl =>
        if go cur sl then
          match fuel with
          | 0 => none
          | n + 1 => State.walk s go n cur sl.next
        else some (prev, cur)

/-- A walk from a queue's head; outside `WF` it raises `InvariantViolated` (R154). -/
def State.walkFrom {α : Type} (s : State) (go : TimerId → Slot → Bool) (head : TimerId)
    (f : TimerId → TimerId → Proc α) : Proc α :=
  match s.walk go s.cfg.nTimers noTimer head with
  | some (prev, cur) => f prev cur
  | none => .raised s.invariantViolated

/-- `append_expired(h)` (R165). -/
def appendExpired (h : TimerId) (s : State) : Proc Unit :=
  if s.expHead = noTimer then .done () ((s.setExpHead h).setExpTail h)
  else s.withSlot s.expTail fun _ => .done () ((s.setNext s.expTail h).setExpTail h)

/-- The link before `id` on the expired queue is made to skip it (R167). -/
def State.unlinkExpired (s : State) (prev next : TimerId) : State :=
  if prev = noTimer then s.setExpHead next else s.setNext prev next

/-- `remove_expired(id)` (R167). -/
def removeExpired (id : TimerId) (s : State) : Proc Removal :=
  s.walkFrom (fun cur _ => cur != id) s.expHead fun prev cur =>
    if cur = noTimer then .done .notFound s
    else s.withSlot id fun sl =>
      let s1 := s.unlinkExpired prev sl.next
      let s2 := if s1.expTail = id then s1.setExpTail prev else s1
      .done .removed (s2.setNext id noTimer)

/-- `RES0` of a pop: bit 0 valid, bits 15:8 the TimerId (30_encoding.md R83). -/
def popWord (valid : Bool) (id : TimerId) : Word := (0 : BitVec 16) ++ id ++ (if valid then (1 : Byte) else 0)

/-- The body of `POP_EXPIRED` (R166); a popped slot whose `callback` is `NULL` raises. -/
def popExpired (s : State) : Proc Reply :=
  if s.expHead = noTimer then .done ⟨.success, popWord false noTimer, 0, 0⟩ s
  else s.withSlot s.expHead fun sl =>
    let h := s.expHead
    let s1 := (s.setExpHead sl.next).setExpTail (if sl.next = noTimer then noTimer else s.expTail)
    if sl.callback = null then .raised s1.invariantViolated
    else .done ⟨.success, popWord true h, sl.callback, sl.callbackArg⟩ ((s1.clearCallback h).setNext h noTimer)

/-- `POP_EXPIRED` (R166); refused in interrupt context (60_exceptions.md R248). -/
def execPopExpired (s : State) : Result :=
  if s.ctx = .irq then .next s.illegalCommand else criticalRegion popExpired s

end Sys2Proof.Machine
end

