-- ==== Sys2Proof/Machine/Reconcile.lean ====
section
/-! DEFINITION. Reconciliation (45_reconcile_dispatch.md R190) and the meaning of `RECONCILE` (R191). -/

namespace Sys2Proof.Machine

/-- The running queue's head, if there is one, moves to the expired queue's tail (R190). -/
def moveHead (s : State) : Proc Unit :=
  if s.runHead = noTimer then .done () s
  else s.withSlot s.runHead fun sl =>
    let h := s.runHead
    (appendExpired h ((s.setRunHead sl.next).setNext h noTimer)).andThen fun _ t =>
      .done () t.decRunCount

/-- `reconcile()`: at most one expiry, and nothing at all when `expired_flag` is clear (R190). -/
def reconcile (s : State) : Proc Unit :=
  if s.expiredFlag then
    (moveHead (s.setExpired false)).andThen fun _ t => progCompare t
  else .done () s

/-- `RECONCILE` (R191); refused in interrupt context (60_exceptions.md R248). -/
def execReconcile (s : State) : Result :=
  if s.ctx = .irq then .next s.illegalCommand
  else criticalRegion (fun t => (reconcile t).andThen fun _ u => .done (Reply.only .success) u) s

end Sys2Proof.Machine
end

