-- ==== Sys2Proof/Machine/RunningQueue.lean ====
section
/-! DEFINITION. The running queue: sorted insertion and removal by TimerId (42_running_queue.md R150 to
R154). -/

namespace Sys2Proof.Machine

/-- The insertion walk passes every node whose deadline is at or before `target` (R151). -/
def passes (p : Params) (target : Word) (sl : Slot) : Bool := isBefore p sl.absExpiry target

/-- The link before the new slot: `run_head` when it becomes the head, else its predecessor's (R150). -/
def State.linkRunning (s : State) (prev id : TimerId) : State :=
  if prev = noTimer then s.setRunHead id else s.setNext prev id

/-- Steps 2 to 5 of the insertion (R150): find the place, link, fill the slot, count it, and reprogram
when the new slot is the head. An empty queue is the walk that stops at once, `prev = cur = NO_TIMER`. -/
def placeRunning (id : TimerId) (target cb arg : Word) (s : State) : Proc Unit :=
  s.walkFrom (fun _ sl => passes s.cfg target sl) s.runHead fun prev cur =>
    let s1 := (((s.setNext id cur).linkRunning prev id).fillSlot id target cb arg).incRunCount
    if prev = noTimer then progCompare s1 else .done () s1

/-- `insert_running(id, target, cb, arg)`: reconciliation first, then the insertion (R150). -/
def insertRunning (id : TimerId) (target cb arg : Word) (s : State) : Proc Unit :=
  (reconcile s).andThen fun _ t => placeRunning id target cb arg t

/-- The link before `id` on the running queue is made to skip it (R152). -/
def State.unlinkRunning (s : State) (prev next : TimerId) : State :=
  if prev = noTimer then s.setRunHead next else s.setNext prev next

/-- `remove_running(id)` (R152). -/
def removeRunning (id : TimerId) (s : State) : Proc Removal :=
  s.walkFrom (fun cur _ => cur != id) s.runHead fun prev cur =>
    if cur = noTimer then .done .notFound s
    else s.withSlot id fun sl =>
      let s1 := ((s.unlinkRunning prev sl.next).setNext id noTimer).decRunCount
      .done (if prev = noTimer then .removedRunningHead else .removed) s1

end Sys2Proof.Machine
end

