-- ==== Sys2Proof/Machine/SlotCommands.lean ====
section
/-! DEFINITION. The meanings of `START`, `STOP` and `IS_RUNNING` (41_slot_table_commands.md R130 to R135). -/

namespace Sys2Proof.Machine

/-- The body of `START`: the checks in the order `InvalidId`, `InvalidParameter`, `AlreadyRunning`,
`InvalidTimeout` (R130, 60_exceptions.md R230), then `yield` (Y1), then the insertion. -/
def startBody (mode : BitVec 4) (id : TimerId) (s : State) : Proc Reply :=
  if s.cfg.nTimers ≤ id.toNat then .done (Reply.only .invalidId) s
  else if s.operandCb = null || !modeValid mode then .done (Reply.only .invalidParameter) s
  else s.withSlot id fun sl =>
    if sl.callback ≠ null then .done (Reply.only .alreadyRunning) s
    else match startTarget s.cfg mode s.operandTimeout s.nowTime with
      | none => .done (Reply.only .invalidTimeout) s
      | some target =>
        (insertRunning id target s.operandCb s.operandArg s.yield).andThen fun _ t =>
          .done (Reply.only .success) t

/-- `START id, mode` with its operands in `OP_TIMEOUT`, `OP_CB`, `OP_ARG` (R130). -/
def execStart (mode : BitVec 4) (id : TimerId) (s : State) : Result :=
  criticalRegion (startBody mode id) s

/-- Search the running queue, and if not found, the expired queue (R133). -/
def removeAny (id : TimerId) (s : State) : Proc Removal :=
  (removeRunning id s).andThen fun r t =>
    match r with
    | .notFound => removeExpired id t
    | .removed => .done .removed t
    | .removedRunningHead => .done .removedRunningHead t

/-- The body of `STOP`: the id check before reconciliation (R133, R135). -/
def stopBody (id : TimerId) (s : State) : Proc Reply :=
  if s.cfg.nTimers ≤ id.toNat then .done (Reply.only .invalidId) s
  else (reconcile s).andThen fun _ t => (removeAny id t).andThen fun r u =>
    match r with
    | .notFound => .done (Reply.only .notRunning) u
    | .removed => .done (Reply.only .success) (u.clearCallback id)
    | .removedRunningHead =>
      (progCompare (u.clearCallback id)).andThen fun _ v => .done (Reply.only .success) v

/-- `STOP id` (R133). -/
def execStop (id : TimerId) (s : State) : Result := criticalRegion (stopBody id) s

/-- `id < N_TIMERS and slot[id].callback != NULL` (R134). -/
def State.timerRunning (s : State) (id : TimerId) : Bool :=
  match s.slot? id with
  | some sl => sl.callback != null
  | none => false

/-- `IS_RUNNING id` (R134). -/
def execIsRunning (id : TimerId) (s : State) : Result :=
  criticalRegion (fun t => .done (Reply.bool (t.timerRunning id)) t) s

end Sys2Proof.Machine
end

