-- ==== Sys2Proof/Machine/Dispatch.lean ====
section
/-! DEFINITION. One arm per command: what a command does once its `CMD` word has been written and decoded. -/

namespace Sys2Proof.Machine

def exec (i : Instr) (s : State) : Host.Outcome State Fault Refusal :=
  match i with
  | .start mode id => Sys2Proof.Machine.execStart mode id s
  | .stop id => Sys2Proof.Machine.execStop id s
  | .isRunning id => Sys2Proof.Machine.execIsRunning id s
  | .reconcile => Sys2Proof.Machine.execReconcile s
  | .popExpired => Sys2Proof.Machine.execPopExpired s
  | .now => Sys2Proof.Machine.execNow s
  | .hpStart mode => Sys2Proof.Machine.execHpStart mode s
  | .hpStop => Sys2Proof.Machine.execHpStop s
  | .hpIsRunning => Sys2Proof.Machine.execHpIsRunning s

end Sys2Proof.Machine
end

