-- ==== Sys2Proof/Machine/Interrupts.lean ====
section
/-! DEFINITION. The three interrupt handlers (60_exceptions.md R232 to R234), each with the entry of R237
and, for the overflow and compare handlers, the return of R238. -/

namespace Sys2Proof.Machine

/-- `(sys_high + 1) mod 2^SHW` (R232, 40_comparator_clock.md R114). -/
def State.sysHighNext (s : State) : Word := lowBits s.cfg.shw (s.sysHigh + 1)

/-- `ovf_if <- 0` and the epoch advances (R232). -/
def State.takeOverflow (s : State) : State := { s with ovfIf := false, sysHigh := s.sysHighNext }

/-- `cmp_if <- 0`, and `expired_flag` is set when the compare register is authoritative (R233). -/
def State.takeMatch (s : State) : State :=
  { s with cmpIf := false, expiredFlag := s.expiredFlag || s.ocrAuth }

/-- `hp_if <- 0` (R234). -/
def State.takeHpMatch (s : State) : State := { s with hpIf := false }

/-- The overflow handler: clear the latch, advance the epoch, re-run the compare programmer (R232). -/
def irqOvf (s : State) : Proc Unit :=
  (progCompare s.interruptEntry.takeOverflow).andThen fun _ t =>
    .done () t.interruptReturn

/-- The compare-match handler: set `expired_flag` when the compare register is authoritative (R233). -/
def irqCmp (s : State) : Proc Unit :=
  .done () s.interruptEntry.takeMatch.interruptReturn

/-- The high-priority delivery: the callback is invoked with `ctx = IRQ` and `gie = 0`, and its body ends
with `HostIret`; with no callback registered it raises `FatalAssert` (R234). -/
def irqHp (s : State) : Proc Unit :=
  let s1 := s.interruptEntry.takeHpMatch
  if s.hpCb = null then .raised s1.fatalAssert
  else .done () (s1.hpClear.pushHost [.invoke s.hpCb s.hpArg])

/-- The handler of a source (R231). -/
def handler : Source → State → Proc Unit
  | .ovf, s => irqOvf s
  | .hp, s => irqHp s
  | .cmp, s => irqCmp s

/-- One step of the `IRQ` agent: a handler's end, or the fault it raised, is a next state. -/
def takeInterrupt (src : Source) (s : State) : Result :=
  match handler src s with
  | .done _ t => .next t
  | .raised t => .next t

end Sys2Proof.Machine
end

