-- ==== Sys2Proof/Machine/HostAgent.lean ====
section
/-! DEFINITION. The `HOST` agent's moves: interface accesses and command issue (30_encoding.md R80, R87),
the host actions (R92), the pseudo-commands (R91) and callback bodies (60_exceptions.md R236). Each move
is a step of its own; a pseudo-command is rewritten into the moves of its fixed sequence. -/

namespace Sys2Proof.Machine

/-- The write of `CMD` issues the command: decode the word, then execute or answer `IllegalCommand`
(30_encoding.md R80, R87, R88). -/
def issueCommand (w : Word) (s : State) : Result :=
  match decode s.cfg.hpPresent w with
  | .instr i => exec i (s.writeRegister 0 w)
  | .illegal _ => .next (s.writeRegister 0 w).illegalCommand

/-- A host write on the interface (10_state.md R21, 20_memory.md R68, R69). -/
def hostWrite (offset size : Nat) (v : Word) (s : State) : Result :=
  if accessDefined offset size then
    if offset = 0 then issueCommand v s else .next (s.writeRegister (offset / 4) v)
  else .refused .subWordAccess

/-- A host read on the interface: no side effect on the engine (20_memory.md R65). -/
def hostRead (offset size : Nat) (s : State) : Result :=
  if accessDefined offset size then .next { s with hostRead := s.readRegister (offset / 4) }
  else .refused .subWordAccess

/-- `HostIrqEnable` and `HostIrqDisable`: `gie` is written, in main-line context only (30_encoding.md R92). -/
def hostSetGie (v : Bool) (s : State) : Result :=
  if s.ctx = .main then .next (s.setGie v) else .refused .moveNotInContext

/-- `HostIret` ends a high-priority callback body (30_encoding.md R92, 60_exceptions.md R238). DESIGN CHOICE:
a body with moves after its `HostIret` is accepted, and they run in main-line context before the
interrupted sequence resumes (log 16, safe). -/
def hostIret (s : State) : Result :=
  if s.ctx = .irq then .next s.interruptReturn else .refused .moveNotInContext

/-- The host move that issues a command frame's `CMD` word. -/
def cmdMove (i : Instr) : HostMove := .write 0 4 (encode i)

/-- The host skips its next `skip` moves unless the masked register has the value (60_exceptions.md R236).
DESIGN CHOICE: the moves skipped are the host's next ones, wherever they come from; a `skip` past the end of a
callback body goes on into the sequence that invoked it, so it can drop the rest of a `SERVICE` (log 18,
safe). -/
def hostBranch (offset : Nat) (mask value : Word) (skip : Nat) (s : State) : Result :=
  if accessDefined offset 4 then
    .next (if s.readRegister (offset / 4) &&& mask = value then s else { s with host := s.host.drop skip })
  else .refused .subWordAccess

/-- `SERVICE` after a pop: `r.valid = 0` stops; else the result is copied and the callback invoked, and
the loop goes on (45_reconcile_dispatch.md R192). -/
def serviceTest (s : State) : State :=
  if s.res0 &&& 1 = 0 then s else s.pushHost [.invoke s.res1 s.res2, .servicePop]

/-- `DELAY` after a `NOW`: stop when `((t - t0) mod 2^W) >= n` (40_comparator_clock.md R116). DESIGN CHOICE:
an `n` of `2^(W-1)` or more, outside the operand range of R116, runs the same loop; from `2^W` on it never
stops (log 17, unsafe). -/
def delayTest (t0 n : Word) (s : State) : State :=
  if n.toNat ≤ (timeSub s.cfg s.res0 t0).toNat then s
  else s.pushHost [cmdMove .now, .delayTest t0 n]

/-- `ADVANCE n`: one `CLK` step, then `IRQ` steps until none is enabled, `n` times (30_encoding.md R92;
20_memory.md R75). -/
def advance (n : Nat) (s : State) : State :=
  match n with
  | 0 => s
  | k + 1 => s.tick.pushHost [.settle, .advance k]

/-- `IRQ` steps until none is enabled, one a step of the model. DESIGN CHOICE: the callback body of a
high-priority delivery stands in front of the rest, so it runs whole before the next `IRQ` step and the
remaining ticks of the `ADVANCE` (log 15, unsafe). -/
def settle (s : State) : Result :=
  match s.deliverable with
  | none => .next s
  | some src => takeInterrupt src (s.pushHost [.settle])

/-- What a host move does, once it has been taken off the host's list. -/
def hostMove (m : HostMove) (s : State) : Result :=
  match m with
  | .write offset size v => hostWrite offset size v s
  | .read offset size => hostRead offset size s
  | .irqEnable => hostSetGie true s
  | .irqDisable => hostSetGie false s
  | .iret => hostIret s
  | .invoke cb arg => .next (s.pushHost (s.callbackBody cb arg))
  | .branch offset mask value skip => hostBranch offset mask value skip s
  | .service => .next (s.pushHost [cmdMove .reconcile, .servicePop])
  | .servicePop => .next (s.pushHost [cmdMove .popExpired, .serviceTest])
  | .serviceTest => .next (serviceTest s)
  | .delay n => .next (s.pushHost [cmdMove .now, .delayStart n])
  | .delayStart n => .next (s.pushHost [cmdMove .now, .delayTest s.res0 n])
  | .delayTest t0 n => .next (delayTest t0 n s)
  | .advance n => .next (advance n s)
  | .settle => settle s

/-- A move that issues a command: the write of `CMD` (20_memory.md R64). -/
def HostMove.issues : HostMove → Bool
  | .write offset size _ => accessDefined offset size && offset == 0
  | _ => false

/-- One entry of the schedule is used up. -/
def State.useTurn (s : State) : State := { s with sched := s.sched.tail }

/-- The host's next move is taken off its list, and its turn is used up. -/
def State.takeMove (s : State) (rest : List HostMove) : State := { s with host := rest, sched := s.sched.tail }

/-- The `HOST` agent's turn. "the `IRQ` agent steps first" when an interrupt is deliverable and the next
move issues a command (20_memory.md R64, 60_exceptions.md R235); then the turn is not used up. A host
with no move left lets its turn pass. -/
def hostTurn (s : State) : Result :=
  match s.host with
  | [] => .next s.useTurn
  | m :: rest =>
    match m.issues, s.deliverable with
    | true, some src => takeInterrupt src s
    | _, _ => hostMove m (s.takeMove rest)

end Sys2Proof.Machine
end

