-- ==== Sys2Proof/Machine/Agents.lean ====
section
/-! DEFINITION. Which agent steps next and what its step is (20_memory.md R60 to R64, 70_reset_and_hazards.md
R260). The schedule is an input of the run. -/

namespace Sys2Proof.Machine

/-- Whose turn it is when the schedule gives no more: a deliverable interrupt, then the host while it has
moves, then the clock (DESIGN CHOICE, log 5: SCHED0 of 20_memory.md R75 while the host has moves). -/
def State.idleTurn (s : State) : Turn :=
  if s.deliverable.isSome then .irq else if s.host.isEmpty then .clk else .host

/-- Whose turn it is. -/
def State.turn (s : State) : Turn :=
  match s.sched with
  | [] => s.idleTurn
  | t :: _ => t

/-- The reset line: every piece of state takes its reset value, whatever it was; a callback body in
progress is abandoned (70_reset_and_hazards.md R260). The parameters and the inputs of the run (the rest
of the schedule, the draws, the callback bodies) stay, and the host begins `program`. -/
def State.externalReset (s : State) (program : List HostMove) : State :=
  { State.resetFor s.cfg with
    sched := s.sched
    host := program
    draws := s.draws
    callbacks := s.callbacks }

/-- The `IRQ` agent's turn: it takes the first deliverable source, or lets its turn pass. -/
def irqTurn (s : State) : Result :=
  match s.deliverable with
  | none => .next s.useTurn
  | some src => takeInterrupt src s.useTurn

/-- A step of one of the three agents. -/
def agentTurn (t : Turn) (s : State) : Result :=
  match t with
  | .host => hostTurn s
  | .clk => .next s.useTurn.tick
  | .irq => irqTurn s
  | .reset program => .next (s.useTurn.externalReset program)

/-- "once it is not `None` no agent steps" (10_state.md R39); only the reset line leaves a faulted state
(60_exceptions.md R228). This fail-stop is the block's only diagnostic (60_exceptions.md R250). -/
def guardedTurn (t : Turn) (s : State) : Result :=
  match t, s.fault with
  | .reset program, _ => agentTurn (.reset program) s
  | t, .none => agentTurn t s
  | _, .fatalAssert => .fault .fatalAssert
  | _, .invariantViolated => .fault .invariantViolated

/-- One step of the machine. A parameter set that breaks a constraint is refused
(93_implementation_defined.md U4). -/
def agentStep (s : State) : Result :=
  if s.cfg.wellFormed then guardedTurn s.turn s else .refused .badParameters

/-- `s` with a host write of a `CMD` word as the host's next move and the host's turn next. -/
def State.withCommand (s : State) (w : Word) : State :=
  { s with host := .write 0 4 w :: s.host, sched := .host :: s.sched }

end Sys2Proof.Machine
end

