-- ==== Sys2Proof/Machine/Step.lean ====
section
/-! DEFINITION. The step, and how a `CMD` word is put where the step takes its next command from. -/

namespace Sys2Proof.Machine

/-- One step: one agent's atomic unit (20_memory.md R61); all of it stands in Agents.lean. -/
def step (s : State) : Host.Outcome State Fault Refusal := agentStep s

/-- The block fetches no instructions (10_state.md R22): a command is issued by the host's write of
`CMD`. The word becomes the host's next move and the host gets the next turn (log 6). -/
def State.withFetchWord (s : State) (nbits w : Nat) : State := s.withCommand (tableWord nbits w)

end Sys2Proof.Machine
end

