-- ==== Sys2Proof/Safety.lean ====
section
/-! DEFINITION. What a safe state is: the well-formedness `WF` of 10_state.md R41, the invariants of the
compare unit of R42, the environment's invariants, and the two queues as lists of TimerIds (the terms in
which claims about the commands are stated). -/

namespace Sys2Proof.Machine

/-! ### The queues as lists -/

/-- The TimerIds met when following `next` from `cur`: nothing when that does not reach `NO_TIMER` in at
most `fuel` slots, or meets a TimerId that names no slot (10_state.md R41, clause 2). -/
def State.chain (s : State) : Nat → TimerId → Option (List TimerId)
  | fuel, cur =>
    if cur = noTimer then some []
    else match s.slot? cur with
      | none => none
      | some sl =>
        match fuel with
        | 0 => none
        | n + 1 => (State.chain s n sl.next).map (cur :: ·)

/-- The running queue, if it is a list. -/
def State.runList (s : State) : Option (List TimerId) := s.chain s.cfg.nTimers s.runHead

/-- The expired queue, if it is a list. -/
def State.expList (s : State) : Option (List TimerId) := s.chain s.cfg.nTimers s.expHead

/-- A link or head is `NO_TIMER` or names a slot (10_state.md R41, clause 1). -/
abbrev State.linkOk (s : State) (id : TimerId) : Prop := id = noTimer ∨ id.toNat < s.cfg.nTimers

/-- Clauses 1 to 6 of 10_state.md R41, for given queues, and the canonical form of the slot table. -/
structure QueueWF (s : State) (run exp : List TimerId) : Prop where
  /-- The slot table is in its canonical form. -/
  table : Memory.wf s.cfg s.slots = true
  /-- Clause 1: the heads, the tail and every link. -/
  runHeadOk : s.linkOk s.runHead
  expHeadOk : s.linkOk s.expHead
  expTailOk : s.linkOk s.expTail
  nextOk : ∀ id : TimerId, ∀ sl ∈ s.slot? id, s.linkOk sl.next
  /-- Clause 2: both chains end, and a TimerId is on at most one queue. -/
  runChain : s.runList = some run
  expChain : s.expList = some exp
  disjoint : (run ++ exp).Nodup
  /-- Clause 3: a callback is registered exactly on the queues. -/
  callbacks : ∀ id : TimerId, ∀ sl ∈ s.slot? id, (sl.callback ≠ null ↔ id ∈ run ++ exp)
  /-- Clause 4: the tail register, `NO_TIMER` when the queue is empty. -/
  tail : s.expTail = exp.getLast?.getD noTimer
  /-- Clause 5: the redundant count. -/
  count : s.runCount.toNat = run.length
  /-- Clause 6: a slot on neither queue links to nothing. -/
  idle : ∀ id : TimerId, ∀ sl ∈ s.slot? id, id ∉ run ++ exp → sl.next = noTimer

/-- Well-formedness `WF`, clauses 1 to 6 of 10_state.md R41 (clause 7 is `State.sorted`). -/
def WF (s : State) : Prop := ∃ run exp, QueueWF s run exp

/-- The deadline of a slot. -/
def State.deadline (s : State) (id : TimerId) : Word :=
  match s.slot? id with
  | some sl => sl.absExpiry
  | none => 0

/-- Consecutive times are ordered by the comparator. -/
def sortedTimes (p : Params) : List Word → Bool
  | a :: b :: rest => isBefore p a b && sortedTimes p (b :: rest)
  | _ => true

/-- Clause 7 of 10_state.md R41 for a running queue. -/
def State.sorted (s : State) (run : List TimerId) : Bool := sortedTimes s.cfg (run.map s.deadline)

/-- All these times lie within an arc shorter than `2^(W-1)` (40_comparator_clock.md R111 (e)). -/
def withinArc (p : Params) (ts : List Word) : Prop :=
  ∃ base : Word, ∀ t ∈ ts, t.toNat < 2 ^ p.w ∧ (timeSub p t base).toNat < 2 ^ (p.w - 1)

/-! ### What the procedures do to the queues -/

/-- The queues after `reconcile()`: when `expired_flag` is set the running queue's head, if there is one,
goes to the expired queue's tail (45_reconcile_dispatch.md R190). -/
def reconciledQueues (flag : Bool) (run exp : List TimerId) : List TimerId × List TimerId :=
  if flag then (run.tail, exp ++ run.head?.toList) else (run, exp)

/-- The running queue after an insertion: behind every slot whose deadline is at or before `target`, up to
the first that is not (42_running_queue.md R151). -/
def State.insertedRun (s : State) (run : List TimerId) (id : TimerId) (target : Word) : List TimerId :=
  run.takeWhile (fun j => isBefore s.cfg (s.deadline j) target) ++
    id :: run.dropWhile (fun j => isBefore s.cfg (s.deadline j) target)

/-! ### The compare unit and the environment -/

/-- The invariants (a), (b), (c) of 10_state.md R42, and the converse of (a): the compare register is
authoritative exactly while the head's deadline is in the current epoch. -/
structure CompareInv (s : State) : Prop where
  auth : s.ocrAuth = true → ∃ sl, s.slot? s.runHead = some sl ∧ s.cmpIe = true ∧
    s.ocr = timeLo s.cfg sl.absExpiry ∧ timeHi s.cfg sl.absExpiry = s.sysHigh
  enable : s.cmpIe = true → s.ocrAuth = true
  emptyQueue : s.runHead = noTimer → s.cmpIe = false ∧ s.ocrAuth = false
  armed : ∀ sl ∈ s.slot? s.runHead, timeHi s.cfg sl.absExpiry = s.sysHigh → s.ocrAuth = true

/-- The environment's invariants: every register within its width (10_state.md R30 to R36), the status
code's upper bits zero (30_encoding.md R83), the overflow enable never written (R34), a latch only while
its enable is 1 (R33, R36), the high-priority enable exactly while a callback is registered
(60_exceptions.md R228), `gie = 0` in interrupt context (R247), and no high-priority state when there is
no high-priority timer (R35, R36). -/
structure EnvInv (s : State) : Prop where
  sysHigh : s.sysHigh.toNat < 2 ^ s.cfg.shw
  cnt : s.cnt.toNat < 2 ^ s.cfg.hw
  ocr : s.ocr.toNat < 2 ^ s.cfg.hw
  ocrHp : s.ocrHp.toNat < 2 ^ s.cfg.hw
  hpExpiry : s.hpExpiry.toNat < 2 ^ s.cfg.w
  status : s.status.toNat < 256
  ovfIe : s.ovfIe = true
  cmpLatch : s.cmpIf = true → s.cmpIe = true
  hpLatch : s.hpIf = true → s.hpIe = true
  hpEnable : s.hpIe = true ↔ s.hpCb ≠ null
  irqContext : s.ctx = .irq → s.gie = false
  hpAbsent : s.cfg.hpPresent = false →
    s.hpCb = null ∧ s.hpArg = 0 ∧ s.hpExpiry = 0 ∧ s.ocrHp = 0 ∧ s.hpIe = false ∧ s.hpIf = false

/-- A safe state: nothing has faulted and every invariant holds. -/
structure Safe (s : State) : Prop where
  parameters : s.cfg.wellFormed = true
  noFault : s.fault = .none
  env : EnvInv s
  queues : WF s
  compare : CompareInv s

/-! ### The terms of the statements about commands

Each relation below is written from the spec's rule over numbers and lists; none calls a meaning. -/

/-- The four result registers hold these values, everything else is as in `s` (30_encoding.md R83). -/
def State.withResults (s : State) (st r0 r1 r2 : Word) : State :=
  { s with status := st, res0 := r0, res1 := r1, res2 := r2 }

/-- `t` is `s` after `n` ticks: the counter has advanced by `n`, and a latch is set when it was set or when
one of the `n` new counts met its condition (60_exceptions.md R240, 20_memory.md R63). -/
structure Ticked (n : Nat) (s t : State) : Prop where
  frame : t = { s with cnt := t.cnt, ovfIf := t.ovfIf, cmpIf := t.cmpIf, hpIf := t.hpIf }
  cnt : t.cnt.toNat = (s.cnt.toNat + n) % 2 ^ s.cfg.hw
  ovf : t.ovfIf = true ↔ s.ovfIf = true ∨
    ∃ k, 1 ≤ k ∧ k ≤ n ∧ (s.cnt.toNat + k) % 2 ^ s.cfg.hw = 0
  cmp : t.cmpIf = true ↔ s.cmpIf = true ∨ (s.cmpIe = true ∧
    ∃ k, 1 ≤ k ∧ k ≤ n ∧ (s.cnt.toNat + k) % 2 ^ s.cfg.hw = s.ocr.toNat)
  hp : t.hpIf = true ↔ s.hpIf = true ∨ (s.cfg.hpPresent = true ∧ s.hpIe = true ∧
    ∃ k, 1 ≤ k ∧ k ≤ n ∧ (s.cnt.toNat + k) % 2 ^ s.cfg.hw = s.ocrHp.toNat)

/-- `t` is `s` after `prog_compare()` (44_compare_programmer.md R175 to R179): with no running timer the
compare unit is disarmed; else it is armed or disarmed for the head's deadline, the ticks of the `yield`
pass, and `expired_flag` is set when the deadline is at or before the then time plus one. -/
def CompareProgrammed (s t : State) : Prop :=
  if s.runHead = noTimer then t = { s with cmpIe := false, cmpIf := false, ocrAuth := false }
  else ∃ sl a u, s.slot? s.runHead = some sl ∧
    (sl.absExpiry.toNat / 2 ^ s.cfg.hw = s.sysHigh.toNat →
      a = { s with
        ocr := BitVec.ofNat 32 (sl.absExpiry.toNat % 2 ^ s.cfg.hw)
        cmpIe := true, cmpIf := false, ocrAuth := true }) ∧
    (sl.absExpiry.toNat / 2 ^ s.cfg.hw ≠ s.sysHigh.toNat →
      a = { s with cmpIe := false, cmpIf := false, ocrAuth := false }) ∧
    Ticked (s.draws.headD 0) { a with draws := s.draws.tail } u ∧
    t = { u with
      expiredFlag := s.expiredFlag || isBefore s.cfg sl.absExpiry (timeAdd s.cfg u.nowTime 1) }

/-- Only the queue registers and slots differ between `s` and `t` (10_state.md R23 to R27). -/
def QueueFieldsOnly (s t : State) : Prop :=
  t = { s with
    slots := t.slots
    runHead := t.runHead
    expHead := t.expHead
    expTail := t.expTail
    runCount := t.runCount }

/-- The slots whose link the move of a due head writes: the head, and the expired queue's old tail. -/
def moveWrites (run exp : List TimerId) : List TimerId :=
  match run with
  | [] => []
  | h :: _ => h :: exp.getLast?.toList

/-- `t` is `s` after the running queue's head, if there is one, has moved to the expired queue's tail
(45_reconcile_dispatch.md R190, 43_expired_queue.md R165). -/
structure HeadMoved (s t : State) (run exp : List TimerId) : Prop where
  frame : QueueFieldsOnly s t
  queues : QueueWF t run.tail (exp ++ run.head?.toList)
  /-- "The moved slot keeps its `callback`, `callback_arg` and `abs_expiry`." -/
  data : ∀ j sl, s.slot? j = some sl → ∃ n, t.slot? j = some { sl with next := n }
  others : ∀ j, j ∉ moveWrites run exp → t.slot? j = s.slot? j

/-- `t` is `s` after `reconcile()` (45_reconcile_dispatch.md R190). -/
def ReconciledTo (s t : State) (run exp : List TimerId) : Prop :=
  if s.expiredFlag then ∃ m, HeadMoved { s with expiredFlag := false } m run exp ∧ CompareProgrammed m t
  else t = s

/-- `t` is `s` after steps 2 to 4 of an insertion (42_running_queue.md R150, R151): only the new slot and
its predecessor's link are written. -/
structure InsertedInto (s t : State) (run exp : List TimerId) (id : TimerId) (target cb arg : Word) :
    Prop where
  frame : QueueFieldsOnly s t
  queues : QueueWF t (s.insertedRun run id target) exp
  slot : ∃ n, t.slot? id = some ⟨target, cb, arg, n⟩
  data : ∀ j sl, j ≠ id → s.slot? j = some sl → ∃ n, t.slot? j = some { sl with next := n }
  others : ∀ j, j ≠ id →
    (run.takeWhile fun k => isBefore s.cfg (s.deadline k) target).getLast? ≠ some j →
    t.slot? j = s.slot? j

/-- `t` is `s` after `id` has left its queue and its slot has become idle (41_slot_table_commands.md R133,
42_running_queue.md R152, 43_expired_queue.md R167): only the slot and its predecessor's link are written. -/
structure RemovedFrom (s t : State) (run exp : List TimerId) (id : TimerId) : Prop where
  frame : QueueFieldsOnly s t
  queues : QueueWF t (run.erase id) (exp.erase id)
  slot : ∀ sl, s.slot? id = some sl → t.slot? id = some { sl with callback := null, next := noTimer }
  data : ∀ j sl, j ≠ id → s.slot? j = some sl → ∃ n, t.slot? j = some { sl with next := n }
  others : ∀ j, j ≠ id →
    ((if id ∈ run then run else exp).takeWhile fun k => k != id).getLast? ≠ some j →
    t.slot? j = s.slot? j

/-- The delay of an absolute deadline: `(target - now) mod 2^W` (41_slot_table_commands.md R132). -/
def State.delayTo (s : State) (target : Word) : Nat :=
  (target.toNat + 2 ^ s.cfg.w - s.nowTime.toNat) % 2 ^ s.cfg.w

/-- Every check of `START` passes and the deadline is `target` (41_slot_table_commands.md R130 to R132). -/
structure StartAccepted (s : State) (mode : BitVec 4) (id : TimerId) (target : Word) : Prop where
  inRange : id.toNat < s.cfg.nTimers
  callback : s.opCb ≠ null
  idle : ∀ sl ∈ s.slot? id, sl.callback = null
  time :
    (mode = 0 ∧ s.cfg.minTimeout.toNat ≤ s.opTimeout.toNat ∧
      (s.opTimeout.toNat ≤ s.cfg.maxTimeout.toNat ∨ s.cfg.relClamp = true) ∧
      target.toNat = (s.nowTime.toNat + min s.opTimeout.toNat s.cfg.maxTimeout.toNat) % 2 ^ s.cfg.w) ∨
    (mode = 1 ∧ s.opTimeout.toNat < 2 ^ s.cfg.w ∧ target = s.opTimeout ∧
      s.cfg.minTimeout.toNat ≤ s.delayTo target ∧ s.delayTo target ≤ s.cfg.maxTimeout.toNat)

/-- The host's next step is the write of this `CMD` word, and nothing keeps it from being issued
(20_memory.md R64, 30_encoding.md R80). -/
structure Issues (s : State) (w : Word) (rest : List HostMove) : Prop where
  parameters : s.cfg.wellFormed = true
  noFault : s.fault = .none
  turn : s.turn = .host
  host : s.host = .write 0 4 w :: rest
  quiet : s.deliverable = none

/-- What the engine keeps for the invariants and for observation only: `run_count` and `hp_expiry` set to
a fixed value (10_state.md R27, R35). -/
def State.forgetUnread (s : State) : State := { s with runCount := 0, hpExpiry := 0 }

/-- Two outcomes are the same but for `run_count` and `hp_expiry`. -/
def sameButUnread : Result → Result → Prop
  | .next a, .next b => a.forgetUnread = b.forgetUnread
  | .fault f, .fault g => f = g
  | .refused r, .refused q => r = q
  | _, _ => False

end Sys2Proof.Machine
end

