-- ==== Sys2Proof/Certificates/Slice0/Obligations.lean ====
section
/-! DEFINITION. The statements about the engine. Each docstring names the rules of spec/ it formalises; a
clause that is the model's own choice names its log entry in notes/assumptions/. -/

open Sys2Proof Sys2Proof.Machine

/-! ### Encoding (30_encoding.md) -/

/-- Words written out from the fields of R81 and the rows of R84 decode to the command they stand for. -/
def Obligations.SampleWordsDecodeToTheirCommands : Prop :=
  decode true 0x11000003#32 = .instr (.start 1 3) ∧
  decode true 0x17000009#32 = .instr (.start 7 9) ∧
  decode true 0x200000FE#32 = .instr (.stop 0xFE) ∧
  decode true 0x30000002#32 = .instr (.isRunning 2) ∧
  decode true 0x40000000#32 = .instr .reconcile ∧
  decode true 0x50000000#32 = .instr .popExpired ∧
  decode true 0x60000000#32 = .instr .now ∧
  decode true 0x81000000#32 = .instr (.hpStart 1) ∧
  decode true 0x90000000#32 = .instr .hpStop ∧
  decode true 0xA0000000#32 = .instr .hpIsRunning ∧
  (∀ i, decode true 0x00000000#32 ≠ .instr i) ∧
  (∀ i, decode true 0x10000100#32 ≠ .instr i) ∧
  (∀ i, decode true 0x40000001#32 ≠ .instr i) ∧
  (∀ i, decode false 0x81000000#32 ≠ .instr i)

/-- R81, R84, R87, R89, R90: a word decodes to an instruction exactly when it is that instruction's word
and the instruction's row exists; every field at every value. -/
def Obligations.DecodeIsTheInverseOfEncode : Prop :=
  ∀ (hp : Bool) (c : Word) (i : Instr),
    decode hp c = .instr i ↔ i.wellFormed hp = true ∧ c = encode i

/-- R84: "the rows are disjoint": no word selects two rows of the opcode map. -/
def Obligations.OpcodeRowsAreDisjoint : Prop :=
  ∀ (hp : Bool) (c : Word) (r q : OpcodeRow), r ∈ opcodeMap → q ∈ opcodeMap →
    r.selects hp c = true → q.selects hp c = true → r = q

/-- R88, R89: exactly these words are illegal: an unassigned `OPC`, a non-zero `RSV`, a `MODE` or an `ID`
in a command that does not use the field, and the three `HP_` codes when there is no such timer. -/
def Obligations.IllegalFramesAreTheReservedOnes : Prop :=
  ∀ (hp : Bool) (c : Word),
    (∃ why, decode hp c = .illegal why) ↔
      fieldOpc c = 0x0 ∨ fieldOpc c = 0x7 ∨ 0xB ≤ (fieldOpc c).toNat ∨
      fieldRsv c ≠ 0 ∨
      (fieldMode c ≠ 0 ∧ fieldOpc c ≠ 0x1 ∧ fieldOpc c ≠ 0x8) ∨
      (fieldId c ≠ 0 ∧ fieldOpc c ≠ 0x1 ∧ fieldOpc c ≠ 0x2 ∧ fieldOpc c ≠ 0x3) ∨
      (hp = false ∧ (fieldOpc c = 0x8 ∨ fieldOpc c = 0x9 ∨ fieldOpc c = 0xA))

/-- R89: "When `HP_PRESENT` is false the `OPC` values `0x8`, `0x9`, `0xA` select no row and are illegal by
rule R88": the decoder yields none of the three commands, and issuing such a word answers `IllegalCommand`
and changes nothing but the result registers. -/
def Obligations.HighPriorityCommandsNeedTheTimer : Prop :=
  ∀ (s : State) (w : Word) (rest : List HostMove), Issues s w rest → s.cfg.hpPresent = false →
    fieldOpc w = 0x8 ∨ fieldOpc w = 0x9 ∨ fieldOpc w = 0xA →
    opcodeMap.find? (OpcodeRow.selects false w) = none ∧
    step s = .next { s with
      host := rest, sched := s.sched.tail, cmd := w,
      status := 0xFF, res0 := 0, res1 := 0, res2 := 0 }

/-- R88, R227, R248: "An illegal frame ... changes no state except the result registers"; a `RECONCILE` or
`POP_EXPIRED` in interrupt context is answered in the same way; the all-zero word is illegal. The host's
write of `CMD` itself, its move and its turn are used up. -/
def Obligations.IllegalCommandsChangeOnlyTheResults : Prop :=
  (∀ (s : State) (w : Word) (rest : List HostMove) (why : IllegalFrame), Issues s w rest →
    decode s.cfg.hpPresent w = .illegal why →
    step s = .next { s with
      host := rest, sched := s.sched.tail, cmd := w,
      status := 0xFF, res0 := 0, res1 := 0, res2 := 0 }) ∧
  (∀ s : State, s.ctx = .irq →
    exec .reconcile s = .next { s with status := 0xFF, res0 := 0, res1 := 0, res2 := 0 } ∧
    exec .popExpired s = .next { s with status := 0xFF, res0 := 0, res1 := 0, res2 := 0 }) ∧
  (∀ hp : Bool, ∃ why, decode hp 0 = .illegal why)

/-! ### A step (20_memory.md R60 to R64, 30_encoding.md R80) -/

/-- R80, R87: when the host's write of `CMD` comes next and decodes to `i`, the step is `exec i` at the
state with the move and the turn used up and `CMD` written; and `withFetchWord` puts a word there (the
host's list and the schedule are the model's: logs 4 and 6). -/
def Obligations.StepRunsTheDecodedCommand : Prop :=
  (∀ (s : State) (w : Word) (rest : List HostMove) (i : Instr), Issues s w rest →
    decode s.cfg.hpPresent w = .instr i →
    step s = exec i { s with host := rest, sched := s.sched.tail, cmd := w }) ∧
  (∀ (s : State) (nbits w : Nat) (i : Instr), s.cfg.wellFormed = true → s.fault = .none →
    s.deliverable = none → decode s.cfg.hpPresent (tableWord nbits w) = .instr i →
    step (s.withFetchWord nbits w) = exec i { s with cmd := tableWord nbits w })

/-- R60, R61: on the host's turn a step is the host's next move, taken off its list, unless it issues a
command while an interrupt is deliverable (logs 4 and 6). -/
def Obligations.StepTakesTheHostsNextMove : Prop :=
  ∀ (s : State) (m : HostMove) (rest : List HostMove), s.cfg.wellFormed = true → s.fault = .none →
    s.turn = .host → s.host = m :: rest → (m.issues = true → s.deliverable = none) →
    step s = hostMove m { s with host := rest, sched := s.sched.tail }

/-- R64, R235, R237: a deliverable interrupt is taken before the host issues its next command: the step is
the interrupt's and answers a next state; `CMD` is not written, the host keeps its turn (log 4), and the
write is again its next move, behind nothing but the invocation of a high-priority delivery (R234). -/
def Obligations.DeliverableInterruptComesBeforeTheCommand : Prop :=
  ∀ (s : State) (w : Word) (rest : List HostMove) (src : Source), s.cfg.wellFormed = true →
    s.turn = .host → s.host = .write 0 4 w :: rest → s.deliverable = some src →
    step s = takeInterrupt src s ∧
    ∃ t, takeInterrupt src s = .next t ∧ t.cmd = s.cmd ∧ t.sched = s.sched ∧
      ((src ≠ .hp ∨ s.hpCb = 0) → t.host = .write 0 4 w :: rest) ∧
      (src = .hp ∧ s.hpCb ≠ 0 → t.host = .invoke s.hpCb s.hpArg :: .write 0 4 w :: rest)

/-- R60, R62, R235: on the `IRQ` agent's turn the first deliverable source is taken; with none the turn
passes and nothing else changes (log 4). -/
def Obligations.IrqTurnTakesTheFirstSource : Prop :=
  ∀ s : State, s.cfg.wellFormed = true → s.fault = .none → s.turn = .irq →
    (∀ src, s.deliverable = some src → step s = takeInterrupt src { s with sched := s.sched.tail }) ∧
    (s.deliverable = none → step s = .next { s with sched := s.sched.tail })

/-- R87, R252: "every frame has a defined result": every command, in every state, answers a next state. -/
def Obligations.EveryCommandAnswersANextState : Prop :=
  ∀ (i : Instr) (s : State), ∃ t, exec i s = .next t

/-- The frame common to all nine commands. R21: the engine never writes `CMD` and the operands; R30, R34:
no command writes `sys_high` or `ovf_ie`; R38: `ctx` stays; R66: `gie` is restored (when nothing is raised:
log 9); R40: the parameters and the host's program are not the engine's. -/
def Obligations.CommandsKeepOperandsContextAndGie : Prop :=
  ∀ (i : Instr) (s t : State), exec i s = .next t →
    t.cmd = s.cmd ∧ t.opTimeout = s.opTimeout ∧ t.opCb = s.opCb ∧ t.opArg = s.opArg ∧
    t.sysHigh = s.sysHigh ∧ t.ovfIe = s.ovfIe ∧ t.ctx = s.ctx ∧
    (s.ovfIf = true → t.ovfIf = true) ∧
    t.cfg = s.cfg ∧ t.host = s.host ∧ t.sched = s.sched ∧ t.callbacks = s.callbacks ∧
    t.hostRead = s.hostRead ∧ t.slots.length = s.slots.length ∧
    (t.fault = .none → t.gie = s.gie)

/-- The frame of the commands that write no queue, slot or compare-unit state, and no flag "other than the
save and restore of `gie`" (R43, R115, R134, R207): only the result registers change. -/
def Obligations.ReadingCommandsWriteOnlyResults : Prop :=
  ∀ (s t : State) (i : Instr), (i = .now ∨ i = .hpIsRunning ∨ ∃ id, i = .isRunning id) →
    exec i s = .next t →
    t = { s with status := t.status, res0 := t.res0, res1 := t.res1, res2 := t.res2 }

/-- R86: which status each command returns (`HP_` commands where the timer exists; `RECONCILE` and
`POP_EXPIRED` answer `IllegalCommand` in interrupt context, R248), and R83: which results are zero. -/
def Obligations.StatusCodesOfEachCommand : Prop :=
  ∀ (i : Instr) (s t : State), s.fault = .none → s.cfg.hpPresent = true → exec i s = .next t →
    t.fault = .none →
    match i with
    | .start _ _ =>
      t.status ∈ [0x00#32, 0x01#32, 0x02#32, 0x03#32, 0x04#32] ∧ t.res0 = 0 ∧ t.res1 = 0 ∧ t.res2 = 0
    | .stop _ => t.status ∈ [0x00#32, 0x01#32, 0x05#32] ∧ t.res0 = 0 ∧ t.res1 = 0 ∧ t.res2 = 0
    | .isRunning _ => t.status = 0x00#32 ∧ t.res0.toNat ≤ 1 ∧ t.res1 = 0 ∧ t.res2 = 0
    | .reconcile =>
      t.status = (if s.ctx = .irq then 0xFF#32 else 0x00#32) ∧ t.res0 = 0 ∧ t.res1 = 0 ∧ t.res2 = 0
    | .popExpired => t.status = (if s.ctx = .irq then 0xFF#32 else 0x00#32)
    | .now => t.status = 0x00#32 ∧ t.res1 = 0 ∧ t.res2 = 0
    | .hpStart _ =>
      t.status ∈ [0x00#32, 0x02#32, 0x03#32, 0x04#32] ∧ t.res0 = 0 ∧ t.res1 = 0 ∧ t.res2 = 0
    | .hpStop => t.status ∈ [0x00#32, 0x05#32] ∧ t.res0 = 0 ∧ t.res1 = 0 ∧ t.res2 = 0
    | .hpIsRunning => t.status = 0x00#32 ∧ t.res0.toNat ≤ 1 ∧ t.res1 = 0 ∧ t.res2 = 0

/-! ### Host actions, the interface, parameters, faults, reset -/

/-- R92, R238, R248, 93 V10: the three host actions, where each is allowed, and that the other context
refuses it. -/
def Obligations.HostActionsWriteGieAndContext : Prop :=
  ∀ s : State,
    (s.ctx = .main →
      hostMove .irqEnable s = .next { s with gie := true } ∧
      hostMove .irqDisable s = .next { s with gie := false } ∧
      hostMove .iret s = .refused .moveNotInContext) ∧
    (s.ctx = .irq →
      hostMove .irqEnable s = .refused .moveNotInContext ∧
      hostMove .irqDisable s = .refused .moveNotInContext ∧
      hostMove .iret s = .next { s with ctx := .main, gie := true })

/-- R91, R192, R116, R236: the fixed sequences of the two pseudo-commands and the invocation, as the moves
that replace them on the host's list (one a step, log 6; a reference with no body has the empty one, log 7):
`SERVICE` is `RECONCILE`, then `POP_EXPIRED` and `invoke` until a pop is not valid; `DELAY n` is `NOW` until
`(t - t0) mod 2^W >= n`, for an `n` outside the operand range of R116 too (log 17). -/
def Obligations.PseudoCommandsAreTheirSequences : Prop :=
  ∀ s : State,
    hostMove .service s =
      .next { s with host := .write 0 4 (encode .reconcile) :: .servicePop :: s.host } ∧
    hostMove .servicePop s =
      .next { s with host := .write 0 4 (encode .popExpired) :: .serviceTest :: s.host } ∧
    (s.res0.getLsbD 0 = false → hostMove .serviceTest s = .next s) ∧
    (s.res0.getLsbD 0 = true →
      hostMove .serviceTest s = .next { s with host := .invoke s.res1 s.res2 :: .servicePop :: s.host }) ∧
    (∀ cb arg body, s.callbacks.find? (fun c => c.cb == cb && c.arg == arg) = some ⟨cb, arg, body⟩ →
      hostMove (.invoke cb arg) s = .next { s with host := body ++ s.host }) ∧
    (∀ n, hostMove (.delay n) s =
      .next { s with host := .write 0 4 (encode .now) :: .delayStart n :: s.host }) ∧
    (∀ n, hostMove (.delayStart n) s =
      .next { s with host := .write 0 4 (encode .now) :: .delayTest s.res0 n :: s.host }) ∧
    (∀ t0 n : Word, n.toNat ≤ (timeSub s.cfg s.res0 t0).toNat →
      hostMove (.delayTest t0 n) s = .next s) ∧
    (∀ t0 n : Word, (timeSub s.cfg s.res0 t0).toNat < n.toNat →
      hostMove (.delayTest t0 n) s =
        .next { s with host := .write 0 4 (encode .now) :: .delayTest t0 n :: s.host })

/-- R92, R75: `ADVANCE n` is `n` times one `CLK` step and then `IRQ` steps until none is enabled; what a
high-priority delivery puts on the host's list stands in front of the rest of the `ADVANCE` (log 15). -/
def Obligations.AdvanceTicksAndSettles : Prop :=
  ∀ (s : State) (n : Nat),
    hostMove (.advance 0) s = .next s ∧
    hostMove (.advance (n + 1)) s =
      .next { s.tick with host := .settle :: .advance n :: s.host } ∧
    (s.deliverable = none → hostMove .settle s = .next s) ∧
    (∀ src, s.deliverable = some src →
      hostMove .settle s = takeInterrupt src { s with host := .settle :: s.host })

/-- R21, R68, R69: the eight registers at offsets `4*n`; a read has no side effect on the engine; a write to
a read-only register is ignored (R21; log 10); from 0x20 up reads are 0 and writes are ignored, whatever the
alignment and the size (for a size other than 4: log 2); a sub-word or misaligned access to a register is
refused; byte `k` of register `n` is bits `8k+7:8k`. -/
def Obligations.InterfaceRegisterAccess : Prop :=
  ∀ (s : State) (offset size : Nat) (v : Word),
    (offset < 0x20 ∧ (size ≠ 4 ∨ offset % 4 ≠ 0) →
      hostMove (.read offset size) s = .refused .subWordAccess ∧
      hostMove (.write offset size v) s = .refused .subWordAccess) ∧
    (∀ n x, (s.cmd :: s.opTimeout :: s.opCb :: s.opArg :: s.status :: s.res0 :: s.res1 :: [s.res2])[n]? =
        some x →
      hostMove (.read (4 * n) 4) s = .next { s with hostRead := x } ∧
      ∀ k, k < 4 → (s.interfaceByte (4 * n + k)).toNat = x.toNat / 2 ^ (8 * k) % 2 ^ 8) ∧
    (0x20 ≤ offset →
      hostMove (.read offset size) s = .next { s with hostRead := 0 } ∧
      hostMove (.write offset size v) s = .next s) ∧
    hostMove (.write 4 4 v) s = .next { s with opTimeout := v } ∧
    hostMove (.write 8 4 v) s = .next { s with opCb := v } ∧
    hostMove (.write 12 4 v) s = .next { s with opArg := v } ∧
    (∀ n, 4 ≤ n → hostMove (.write (4 * n) 4 v) s = .next s)

/-- R6, 93 U4: "A model `refuse`s a parameter set that breaks a constraint", each constraint of the table. -/
def Obligations.BrokenParameterSetsAreRefused : Prop :=
  ∀ s : State,
    (¬(28 ≤ s.cfg.w ∧ s.cfg.w ≤ 32 ∧ 1 ≤ s.cfg.hw ∧ s.cfg.hw ≤ s.cfg.w ∧ s.cfg.nTimers ≤ 255 ∧
      s.cfg.minTimeout.toNat ≤ s.cfg.maxTimeout.toNat ∧
      s.cfg.maxTimeout.toNat ≤ 2 ^ (s.cfg.w - 1) - 1 ∧
      s.cfg.minTimeout.toNat ≤ s.cfg.hpMaxTimeout.toNat ∧
      s.cfg.hpMaxTimeout.toNat ≤ s.cfg.maxTimeout.toNat ∧
      s.cfg.hpMaxTimeout.toNat ≤ 2 ^ s.cfg.hw - 1)) →
    step s = .refused .badParameters

/-- R39: "sticky; once it is not `None` no agent steps and no rule clears it": no agent's step answers a
next state, and only the reset line leaves the state (R260). -/
def Obligations.FaultRegisterIsSticky : Prop :=
  (∀ s t : State, s.fault ≠ .none → step s = .next t → ∃ program, s.turn = .reset program) ∧
  (∀ s : State, s.cfg.wellFormed = true → (∀ program, s.turn ≠ .reset program) →
    (s.fault = .fatalAssert → step s = .fault .fatalAssert) ∧
    (s.fault = .invariantViolated → step s = .fault .invariantViolated)) ∧
  (∀ p : Params, (State.resetFor p).fault = .none)

/-- R45: the value of every piece of the spec's state after reset, in every configuration. -/
def Obligations.ResetValuesAreTheTable : Prop :=
  ∀ p : Params,
    let s := State.resetFor p
    s.cmd = 0 ∧ s.opTimeout = 0 ∧ s.opCb = 0 ∧ s.opArg = 0 ∧
    s.status = 0 ∧ s.res0 = 0 ∧ s.res1 = 0 ∧ s.res2 = 0 ∧
    s.slots = List.replicate p.nTimers ⟨0, 0, 0, 0xFF⟩ ∧
    s.runHead = 0xFF ∧ s.expHead = 0xFF ∧ s.expTail = 0xFF ∧ s.runCount = 0 ∧
    s.expiredFlag = false ∧ s.ocrAuth = false ∧
    s.sysHigh = 0 ∧ s.cnt = 0 ∧ s.ocr = 0 ∧ s.cmpIe = false ∧ s.cmpIf = false ∧
    s.ovfIe = true ∧ s.ovfIf = false ∧
    s.hpCb = 0 ∧ s.hpArg = 0 ∧ s.hpExpiry = 0 ∧ s.ocrHp = 0 ∧ s.hpIe = false ∧ s.hpIf = false ∧
    s.gie = false ∧ s.ctx = .main ∧ s.fault = .none

/-- R260: the reset line gives every piece of the spec's state its reset value, whatever it was, a faulted
state too; the parameters and the inputs of the run stay (logs 1 and 6). -/
def Obligations.ResetLineRestoresTheResetState : Prop :=
  ∀ (s : State) (program : List HostMove) (rest : List Turn), s.cfg.wellFormed = true →
    s.sched = .reset program :: rest →
    step s = .next { State.resetFor s.cfg with
      sched := rest, host := program, draws := s.draws, callbacks := s.callbacks }

/-- R41, R42, R260: the state after reset satisfies `WF` and the compare-unit invariants, in every
well-formed configuration, and the machine starts in the one of REF (log 1). -/
def Obligations.ResetStateIsSafe : Prop :=
  (∀ p : Params, p.wellFormed = true → Safe (State.resetFor p)) ∧ Safe State.reset

/-! ### Comparator, clock, tick (40_comparator_clock.md, 60_exceptions.md R240) -/

/-- R110: `is_before(t1, t2) = ((t2 - t1) mod 2^W) < 2^(W-1)` over `W`-bit times; `is_before(t, t)` is true;
the rule's example. -/
def Obligations.ComparatorIsTheHalfModulusTest : Prop :=
  (∀ (p : Params) (t1 t2 : Word), p.wellFormed = true →
    t1.toNat < 2 ^ p.w → t2.toNat < 2 ^ p.w →
    (isBefore p t1 t2 = true ↔ ((t2.toNat : Int) - t1.toNat) % 2 ^ p.w < 2 ^ (p.w - 1)) ∧
    (isBefore p t1 t2 = true ↔
      ∃ k, k < 2 ^ (p.w - 1) ∧ t2.toNat = (t1.toNat + k) % 2 ^ p.w) ∧
    isBefore p t1 t1 = true) ∧
  isBefore Params.ref 0xFFFFFFF6 0x0000000A = true

/-- R111 (a) to (d) and (f): both directions of the comparator by the distance of the two times, and its
invariance under adding a constant. -/
def Obligations.ComparatorByDistance : Prop :=
  ∀ (p : Params) (t1 t2 c : Word), p.wellFormed = true →
    t1.toNat < 2 ^ p.w → t2.toNat < 2 ^ p.w →
    let d := (t2.toNat + 2 ^ p.w - t1.toNat) % 2 ^ p.w
    (d = 0 → isBefore p t1 t2 = true ∧ isBefore p t2 t1 = true) ∧
    (0 < d ∧ d < 2 ^ (p.w - 1) → isBefore p t1 t2 = true ∧ isBefore p t2 t1 = false) ∧
    (d = 2 ^ (p.w - 1) → isBefore p t1 t2 = false ∧ isBefore p t2 t1 = false) ∧
    (2 ^ (p.w - 1) < d → isBefore p t1 t2 = false ∧ isBefore p t2 t1 = true) ∧
    isBefore p (timeAdd p t1 c) (timeAdd p t2 c) = isBefore p t1 t2

/-- R111 (e): on times within an arc shorter than half the modulus the comparator is a total preorder; on
the whole circle it is not transitive. -/
def Obligations.ComparatorOrdersEveryShortArc : Prop :=
  (∀ (p : Params) (ts : List Word), p.wellFormed = true → withinArc p ts →
    (∀ a ∈ ts, ∀ b ∈ ts, isBefore p a b = true ∨ isBefore p b a = true) ∧
    (∀ a ∈ ts, ∀ b ∈ ts, ∀ c ∈ ts, isBefore p a b = true → isBefore p b c = true →
      isBefore p a c = true)) ∧
  (∀ p : Params, p.wellFormed = true →
    ∃ a b c : Word, isBefore p a b = true ∧ isBefore p b c = true ∧ isBefore p a c = false)

/-- R112: `hi(t) = t[W-1:HW]`, `lo(t) = t[HW-1:0]`, `t = (hi(t) << HW) | lo(t)`; `hi(t) = 0` when
`HW = W`. -/
def Obligations.TimesSplitIntoHighAndLowParts : Prop :=
  ∀ (p : Params) (t : Word), p.wellFormed = true → t.toNat < 2 ^ p.w →
    timeHi p t = (t >>> p.hw) ∧
    (timeLo p t).toNat = t.toNat % 2 ^ p.hw ∧
    t = (timeHi p t <<< p.hw) ||| timeLo p t ∧
    (timeHi p t).toNat < 2 ^ p.shw ∧
    (p.hw = p.w → timeHi p t = 0)

/-- R113, R115: `NOW` answers `Success` and the sample `(sys_high << HW) | cnt`, whatever `ovf_if` is, and
changes nothing else. -/
def Obligations.NowAnswersTheExtendedClock : Prop :=
  ∀ s : State, s.cfg.wellFormed = true → EnvInv s →
    exec .now s = .next { s with
      status := 0
      res0 := BitVec.ofNat 32 (s.sysHigh.toNat * 2 ^ s.cfg.hw + s.cnt.toNat)
      res1 := 0
      res2 := 0 } ∧
    s.sysHigh.toNat * 2 ^ s.cfg.hw + s.cnt.toNat < 2 ^ s.cfg.w

/-- R240: the `CLK` step, enabled whenever `fault = None`, whatever `gie` and `ctx` are; the tests use the
count after the increment; a match is an event of becoming equal: `ocr` written with the present count
matches `2^HW` ticks later and not before. -/
def Obligations.ClockStepIsTheTick : Prop :=
  (∀ s : State, s.cfg.wellFormed = true → s.fault = .none → s.turn = .clk →
    ∃ t : State, step s = .next t ∧
      t = { s with
        sched := s.sched.tail, cnt := t.cnt, ovfIf := t.ovfIf, cmpIf := t.cmpIf, hpIf := t.hpIf } ∧
      t.cnt.toNat = (s.cnt.toNat + 1) % 2 ^ s.cfg.hw ∧
      (t.ovfIf = true ↔ s.ovfIf = true ∨ t.cnt = 0) ∧
      (t.cmpIf = true ↔ s.cmpIf = true ∨ (s.cmpIe = true ∧ t.cnt = s.ocr)) ∧
      (t.hpIf = true ↔ s.hpIf = true ∨
        (s.cfg.hpPresent = true ∧ s.hpIe = true ∧ t.cnt = s.ocrHp))) ∧
  (∀ s : State, s.cfg.wellFormed = true → EnvInv s → s.cmpIe = true → s.cmpIf = false →
    (∀ k, k < 2 ^ s.cfg.hw → (State.ticks k (s.programCompare s.cnt)).cmpIf = false) ∧
    (State.ticks (2 ^ s.cfg.hw) (s.programCompare s.cnt)).cmpIf = true)

/-- R63, R240: the effect of `n` ticks (at a `yield` or not): the count advances by `n` and no match or
overflow on the way is lost; `sys_high` does not advance. -/
def Obligations.TicksAdvanceTheCounterAndLatch : Prop :=
  ∀ (n : Nat) (s : State), s.cfg.wellFormed = true → EnvInv s → Ticked n s (State.ticks n s)

/-- R114: "together they make the extended clock count modulo `2^W`": a tick that does not overflow adds one
to the time, and a tick that does adds one once the overflow handler has run (with no tick at its `yield`). -/
def Obligations.ExtendedClockCountsEveryTick : Prop :=
  ∀ (s : State) (run exp : List TimerId), s.cfg.wellFormed = true → EnvInv s → QueueWF s run exp →
    s.ovfIf = false →
    (s.tick.ovfIf = false → s.tick.nowTime.toNat = (s.nowTime.toNat + 1) % 2 ^ s.cfg.w) ∧
    (s.tick.ovfIf = true → s.draws.headD 0 = 0 → ∃ t, takeInterrupt .ovf s.tick = .next t ∧
      t.nowTime.toNat = (s.nowTime.toNat + 1) % 2 ^ s.cfg.w ∧ t.ovfIf = false)

/-- R266: a second wrap before the overflow handler runs loses an epoch: with one overflow already pending
(the time is `2^HW` behind), `n` more ticks up to the next wrap and one run of the handler leave the clock
still `2^HW` behind the count of all ticks, and nothing pending. -/
def Obligations.SecondWrapLosesAnEpoch : Prop :=
  ∀ (s : State) (run exp : List TimerId) (n : Nat), s.cfg.wellFormed = true → EnvInv s →
    QueueWF s run exp → s.ovfIf = true → s.draws = [] → s.cnt.toNat + n = 2 ^ s.cfg.hw →
    ∃ t, takeInterrupt .ovf (State.ticks n s) = .next t ∧
      t.nowTime.toNat = (s.nowTime.toNat + n) % 2 ^ s.cfg.w ∧ t.ovfIf = false

/-! ### Interrupts (60_exceptions.md R228 to R239) -/

/-- R231, R235, R239: which source the `IRQ` agent takes, when; none in interrupt context (interrupts do
not nest), none with `gie = 0`, none in a faulted state. -/
def Obligations.InterruptSourcesAndTheirPriority : Prop :=
  ∀ s : State,
    let enabled := s.fault = .none ∧ s.gie = true ∧ s.ctx = .main
    let ovf := s.ovfIf = true ∧ s.ovfIe = true
    let hp := s.cfg.hpPresent = true ∧ s.hpIf = true ∧ s.hpIe = true
    let cmp := s.cmpIf = true ∧ s.cmpIe = true
    (s.deliverable = some .ovf ↔ enabled ∧ ovf) ∧
    (s.deliverable = some .hp ↔ enabled ∧ ¬ovf ∧ hp) ∧
    (s.deliverable = some .cmp ↔ enabled ∧ ¬ovf ∧ ¬hp ∧ cmp) ∧
    (s.deliverable = none ↔ ¬enabled ∨ (¬ovf ∧ ¬hp ∧ ¬cmp))

/-- R242, R243, R244: the three platform operations on the compare unit, and that each writes nothing
else. -/
def Obligations.PlatformCompareOperations : Prop :=
  ∀ (s : State) (v : Word),
    s.programCompare v = { s with ocr := v } ∧
    s.enableCompareIrq = { s with cmpIf := false, cmpIe := true } ∧
    s.disableCompareIrq = { s with cmpIe := false, cmpIf := false } ∧
    (∀ n, s.disableCompareIrq.cmpIf = false ∧ (State.ticks n s.disableCompareIrq).cmpIf = false)

/-- R232, R237, R238: the overflow handler: latch cleared, epoch advanced modulo `2^SHW`, `prog_compare` run
with `ctx = IRQ` and `gie = 0`, then the return. -/
def Obligations.OverflowHandlerAdvancesTheEpoch : Prop :=
  ∀ (s : State) (run exp : List TimerId), s.cfg.wellFormed = true → EnvInv s → QueueWF s run exp →
    ∃ v, takeInterrupt .ovf s = .next { v with ctx := .main, gie := true } ∧
      CompareProgrammed
        { s with
          ctx := .irq
          gie := false
          ovfIf := false
          sysHigh := BitVec.ofNat 32 ((s.sysHigh.toNat + 1) % 2 ^ s.cfg.shw) } v

/-- R233, R237, R238: the compare-match handler clears its latch and sets `expired_flag` when the compare
register is authoritative; it leaves everything else. -/
def Obligations.CompareHandlerSetsTheExpiredFlag : Prop :=
  ∀ s : State,
    (s.ocrAuth = true → takeInterrupt .cmp s =
      .next { s with cmpIf := false, expiredFlag := true, ctx := .main, gie := true }) ∧
    (s.ocrAuth = false → takeInterrupt .cmp s =
      .next { s with cmpIf := false, ctx := .main, gie := true })

/-- R234, R228, R237: the high-priority delivery invokes the callback with `ctx = IRQ` and `gie = 0`, the
timer already cleared; with no callback registered it raises `FatalAssert` (what else a raise leaves
written: log 9). -/
def Obligations.HighPriorityDelivery : Prop :=
  ∀ s : State,
    (s.hpCb ≠ 0 → takeInterrupt .hp s = .next { s with
      ctx := .irq, gie := false, hpIf := false, hpCb := 0, hpIe := false,
      host := .invoke s.hpCb s.hpArg :: s.host }) ∧
    (s.hpCb = 0 → takeInterrupt .hp s = .next { s with
      ctx := .irq, gie := false, hpIf := false, fault := .fatalAssert })

/-- R73, R237: "the handlers of the `IRQ` agent write only `expired_flag`, `sys_high`, the compare unit ...
and the high-priority state; they never write a queue register or a slot field"; nor an interface
register. -/
def Obligations.HandlersNeverWriteQueuesOrInterface : Prop :=
  ∀ (src : Source) (s t : State), takeInterrupt src s = .next t →
    t = { s with
      expiredFlag := t.expiredFlag, ocrAuth := t.ocrAuth, sysHigh := t.sysHigh
      cnt := t.cnt, ocr := t.ocr, cmpIe := t.cmpIe, cmpIf := t.cmpIf, ovfIf := t.ovfIf
      hpCb := t.hpCb, hpIe := t.hpIe, hpIf := t.hpIf
      gie := t.gie, ctx := t.ctx, fault := t.fault, host := t.host, draws := t.draws } ∧
    (src ≠ .ovf → t.sysHigh = s.sysHigh ∧ t.cnt = s.cnt ∧ t.ocr = s.ocr ∧ t.cmpIe = s.cmpIe) ∧
    (src ≠ .hp → t.hpCb = s.hpCb ∧ t.hpIe = s.hpIe ∧ t.host = s.host) ∧
    (s.expiredFlag = true → t.expiredFlag = true)

/-! ### START, STOP, IS_RUNNING (41_slot_table_commands.md, 42_running_queue.md) -/

/-- R134, R221: `IS_RUNNING` answers `Success` and whether `id` is a slot with a callback; 0 for an id
outside the table; it changes nothing else. -/
def Obligations.IsRunningAnswersWhetherACallbackIsSet : Prop :=
  ∀ (s : State) (id : TimerId), Memory.wf s.cfg s.slots = true →
    (∀ sl, s.slot? id = some sl → sl.callback ≠ 0 →
      exec (.isRunning id) s = .next { s with status := 0, res0 := 1, res1 := 0, res2 := 0 }) ∧
    (∀ sl, s.slot? id = some sl → sl.callback = 0 →
      exec (.isRunning id) s = .next { s with status := 0, res0 := 0, res1 := 0, res2 := 0 }) ∧
    (s.cfg.nTimers ≤ id.toNat →
      exec (.isRunning id) s = .next { s with status := 0, res0 := 0, res1 := 0, res2 := 0 }) ∧
    (id.toNat < s.cfg.nTimers → ∃ sl, s.slot? id = some sl)

/-- R130 to R132, R135, R222 to R225, R230: the four error answers of `START`, in the order of its checks;
each leaves everything but the result registers unchanged. -/
def Obligations.StartRejectionsChangeNothing : Prop :=
  ∀ (s : State) (mode : BitVec 4) (id : TimerId), s.cfg.wellFormed = true →
    Memory.wf s.cfg s.slots = true →
    let inRange := id.toNat < s.cfg.nTimers
    let operandsOk := s.opCb ≠ 0 ∧ (mode = 0 ∨ mode = 1)
    let idle := ∀ sl, s.slot? id = some sl → sl.callback = 0
    let lo := s.cfg.minTimeout.toNat
    let hi := s.cfg.maxTimeout.toNat
    (¬inRange → exec (.start mode id) s = .next (s.withResults 0x01 0 0 0)) ∧
    (inRange ∧ ¬operandsOk → exec (.start mode id) s = .next (s.withResults 0x02 0 0 0)) ∧
    (inRange ∧ operandsOk ∧ ¬idle → exec (.start mode id) s = .next (s.withResults 0x03 0 0 0)) ∧
    (inRange ∧ operandsOk ∧ idle ∧ mode = 0 ∧
        (s.opTimeout.toNat < lo ∨ (hi < s.opTimeout.toNat ∧ s.cfg.relClamp = false)) →
      exec (.start mode id) s = .next (s.withResults 0x04 0 0 0)) ∧
    (inRange ∧ operandsOk ∧ idle ∧ mode = 1 ∧
        (2 ^ s.cfg.w ≤ s.opTimeout.toNat ∨ s.delayTo s.opTimeout < lo ∨ hi < s.delayTo s.opTimeout) →
      exec (.start mode id) s = .next (s.withResults 0x04 0 0 0))

/-- R130, R150, R151, R190, R175: a `START` whose checks pass completes. The ticks of its first `yield`
pass, `reconcile` runs, the slot is filled and linked behind every slot whose deadline is at or before its
own, and the compare unit is reprogrammed exactly when the slot is the new head. -/
def Obligations.StartInsertsTheTimer : Prop :=
  ∀ (s : State) (run exp : List TimerId) (mode : BitVec 4) (id : TimerId) (target : Word),
    s.cfg.wellFormed = true → EnvInv s → QueueWF s run exp → StartAccepted s mode id target →
    let q := reconciledQueues s.expiredFlag run exp
    ∃ a b c d : State,
      exec (.start mode id) s = .next ({ d with gie := s.gie }.withResults 0 0 0 0) ∧
      Ticked (s.draws.headD 0) { s with gie := false, draws := s.draws.tail } a ∧
      ReconciledTo a b run exp ∧
      InsertedInto b c q.1 q.2 id target s.opCb s.opArg ∧
      (c.runHead = id → CompareProgrammed c d) ∧
      (c.runHead ≠ id → d = c)

/-- R130 to R132: "every accepted deadline satisfies `is_before(now, target)`": whatever the mode and the
state, after a `START` that answers `Success` the slot holds the operands and a deadline that is ahead of the
time the command began at by at least `MIN_TIMEOUT` and at most `MAX_TIMEOUT` ticks. -/
def Obligations.AcceptedDeadlinesAreAhead : Prop :=
  ∀ (s t : State) (mode : BitVec 4) (id : TimerId), s.cfg.wellFormed = true →
    exec (.start mode id) s = .next t → t.status = 0 → t.fault = .none →
    ∃ sl, t.slot? id = some sl ∧ sl.callback = s.opCb ∧ sl.callbackArg = s.opArg ∧
      isBefore s.cfg s.nowTime sl.absExpiry = true ∧
      s.cfg.minTimeout.toNat ≤ s.delayTo sl.absExpiry ∧ s.delayTo sl.absExpiry ≤ s.cfg.maxTimeout.toNat

/-- R41 clause 7, R151, R153: while the deadlines on the running queue before and after lie within an arc
shorter than half the modulus, every command (`START`'s insertion, the removals of `STOP` and of
reconciliation) and every step of the machine keeps the running queue in order. A `START` that answers
`Success` places its slot behind every slot at or before its deadline, an equal one too, and before every
later one; the slots of the reconciled queue keep their places. -/
def Obligations.QueueOrderIsKept : Prop :=
  ∀ (s t : State) (run exp : List TimerId), QueueWF s run exp → s.sorted run = true →
    let kept := ∃ run' exp' : List TimerId, QueueWF t run' exp' ∧
      (withinArc s.cfg (run.map s.deadline ++ run'.map t.deadline) → t.sorted run' = true)
    (step s = .next t → kept) ∧
    (∀ i : Instr, s.cfg.wellFormed = true → exec i s = .next t → kept) ∧
    (∀ (mode : BitVec 4) (id : TimerId), s.cfg.wellFormed = true → exec (.start mode id) s = .next t →
      t.status = 0 → withinArc s.cfg (t.deadline id :: run.map s.deadline) →
      ∃ (before after exp' : List TimerId), QueueWF t (before ++ id :: after) exp' ∧
        before ++ after = (reconciledQueues s.expiredFlag run exp).1 ∧
        (∀ j ∈ before, isBefore s.cfg (t.deadline j) (t.deadline id) = true) ∧
        (∀ j ∈ after, isBefore s.cfg (t.deadline j) (t.deadline id) = false ∧
          isBefore s.cfg (t.deadline id) (t.deadline j) = true))

/-- R133, R135, R222: a `STOP` of an id outside the table answers `InvalidId` and changes nothing else: its
reconciliation has not run. -/
def Obligations.StopOfAnIdOutsideTheTable : Prop :=
  ∀ (s : State) (id : TimerId), s.cfg.nTimers ≤ id.toNat →
    exec (.stop id) s = .next (s.withResults 0x01 0 0 0)

/-- R133, R152, R167, R190, R226: `STOP` reconciles, then takes the timer off whichever queue holds it and
clears its slot, reprogramming the compare unit when it was the running queue's head; a timer on neither
queue answers `NotRunning`, with the reconciliation done. -/
def Obligations.StopCancelsTheTimer : Prop :=
  ∀ (s : State) (run exp : List TimerId) (id : TimerId), s.cfg.wellFormed = true → EnvInv s →
    QueueWF s run exp → id.toNat < s.cfg.nTimers →
    let q := reconciledQueues s.expiredFlag run exp
    ∃ b : State, ReconciledTo { s with gie := false } b run exp ∧
      (id ∉ q.1 ++ q.2 →
        exec (.stop id) s = .next ({ b with gie := s.gie }.withResults 0x05 0 0 0)) ∧
      (id ∈ q.1 ++ q.2 → ∃ c d : State,
        exec (.stop id) s = .next ({ d with gie := s.gie }.withResults 0 0 0 0) ∧
        RemovedFrom b c q.1 q.2 id ∧
        (q.1.head? = some id → CompareProgrammed c d) ∧
        (q.1.head? ≠ some id → d = c))

/-! ### RECONCILE and POP_EXPIRED (45_reconcile_dispatch.md, 43_expired_queue.md) -/

/-- R190, R191: with `expired_flag` clear `RECONCILE` changes nothing but the results; with it set it clears
it, moves at most one timer, and reprograms the compare unit. -/
def Obligations.ReconcileMovesAtMostTheHead : Prop :=
  ∀ (s : State) (run exp : List TimerId), s.cfg.wellFormed = true → EnvInv s → QueueWF s run exp →
    s.ctx = .main →
    (s.expiredFlag = false → exec .reconcile s = .next (s.withResults 0 0 0 0)) ∧
    (s.expiredFlag = true → ∃ m d : State,
      exec .reconcile s = .next ({ d with gie := s.gie }.withResults 0 0 0 0) ∧
      HeadMoved { s with gie := false, expiredFlag := false } m run exp ∧
      CompareProgrammed m d)

/-- R166, R168, R83: `POP_EXPIRED` takes the expired queue's head, answers its id, callback and argument,
makes its slot idle, and changes nothing else. -/
def Obligations.PopTakesTheExpiredHead : Prop :=
  ∀ (s : State) (run exp : List TimerId) (h : TimerId) (sl : Slot), s.cfg.wellFormed = true →
    QueueWF s run (h :: exp) → s.ctx = .main → s.slot? h = some sl →
    ∃ t : State,
      exec .popExpired s = .next t ∧
      t = { s with
        slots := t.slots
        expHead := t.expHead
        expTail := t.expTail
        status := 0
        res0 := BitVec.ofNat 32 (h.toNat * 2 ^ 8 + 1)
        res1 := sl.callback
        res2 := sl.callbackArg } ∧
      QueueWF t run exp ∧
      t.slot? h = some { sl with callback := 0, next := 0xFF } ∧
      ∀ j, j ≠ h → t.slot? j = s.slot? j

/-- R166, R83: on an empty expired queue `POP_EXPIRED` answers `0xFF00` and changes nothing else. -/
def Obligations.PopOnAnEmptyQueue : Prop :=
  ∀ s : State, s.ctx = .main → s.expHead = 0xFF →
    exec .popExpired s = .next (s.withResults 0 0x0000FF00 0 0)

/-! ### The high-priority timer (46_high_priority.md) -/

/-- R205, R223 to R225, R230: every answer of `HP_START`, in the order of its checks: the three errors
change nothing but the results, and an accepted one arms the timer; no queue, slot, `expired_flag` or
compare register is touched. -/
def Obligations.HpStartArmsTheTimer : Prop :=
  ∀ (s : State) (mode : BitVec 4), s.cfg.wellFormed = true → s.cfg.hpPresent = true →
    let lo := s.cfg.minTimeout.toNat
    let hi := s.cfg.hpMaxTimeout.toNat
    let operandsOk := s.opCb ≠ 0 ∧ (mode = 0 ∨ mode = 1)
    let armed := fun target : Nat => { s with
      hpCb := s.opCb, hpArg := s.opArg, hpExpiry := BitVec.ofNat 32 target
      ocrHp := BitVec.ofNat 32 (target % 2 ^ s.cfg.hw), hpIf := false, hpIe := true }
    (¬operandsOk → exec (.hpStart mode) s = .next (s.withResults 0x02 0 0 0)) ∧
    (operandsOk ∧ s.hpCb ≠ 0 → exec (.hpStart mode) s = .next (s.withResults 0x03 0 0 0)) ∧
    (operandsOk ∧ s.hpCb = 0 ∧ mode = 0 ∧ (s.opTimeout.toNat < lo ∨ hi < s.opTimeout.toNat) →
      exec (.hpStart mode) s = .next (s.withResults 0x04 0 0 0)) ∧
    (operandsOk ∧ s.hpCb = 0 ∧ mode = 1 ∧
        (2 ^ s.cfg.w ≤ s.opTimeout.toNat ∨ s.delayTo s.opTimeout < lo ∨ hi < s.delayTo s.opTimeout) →
      exec (.hpStart mode) s = .next (s.withResults 0x04 0 0 0)) ∧
    (operandsOk ∧ s.hpCb = 0 ∧ mode = 0 ∧ lo ≤ s.opTimeout.toNat ∧ s.opTimeout.toNat ≤ hi →
      exec (.hpStart mode) s =
        .next ((armed ((s.nowTime.toNat + s.opTimeout.toNat) % 2 ^ s.cfg.w)).withResults 0 0 0 0)) ∧
    (operandsOk ∧ s.hpCb = 0 ∧ mode = 1 ∧ s.opTimeout.toNat < 2 ^ s.cfg.w ∧
        lo ≤ s.delayTo s.opTimeout ∧ s.delayTo s.opTimeout ≤ hi →
      exec (.hpStart mode) s = .next ((armed s.opTimeout.toNat).withResults 0 0 0 0))

/-- R206, R207: `HP_STOP` cancels the outstanding timer, a latched match with it, and keeps `hp_arg`,
`hp_expiry` and `ocr_hp`, or answers `NotRunning`; `HP_IS_RUNNING` answers whether one is outstanding. -/
def Obligations.HpStopAndHpIsRunning : Prop :=
  ∀ s : State, s.cfg.hpPresent = true →
    (s.hpCb ≠ 0 →
      exec .hpStop s = .next ({ s with hpCb := 0, hpIe := false, hpIf := false }.withResults 0 0 0 0) ∧
      exec .hpIsRunning s = .next (s.withResults 0 1 0 0)) ∧
    (s.hpCb = 0 →
      exec .hpStop s = .next (s.withResults 0x05 0 0 0) ∧
      exec .hpIsRunning s = .next (s.withResults 0 0 0 0))

/-- R205 (a) and corner case (1), R271: after an accepted `HP_START` the first match comes exactly `delay`
ticks after its sample of the time, and `2^HW` ticks after it for a delay of 0. -/
def Obligations.HpMatchComesExactlyAfterTheDelay : Prop :=
  ∀ (s t : State) (mode : BitVec 4), s.cfg.wellFormed = true → EnvInv s → s.cfg.hpPresent = true →
    exec (.hpStart mode) s = .next t → t.status = 0 →
    let delay := s.delayTo t.hpExpiry
    let first := if delay = 0 then 2 ^ s.cfg.hw else delay
    (∀ k, k < first → (State.ticks k t).hpIf = false) ∧ (State.ticks first t).hpIf = true

/-! ### The whole machine -/

/-- R30 to R37, R83, R228, R247: every register stays within its width, `ovf_ie` stays 1, a latch is set only
while its enable is, `hp_ie` is 1 exactly while a callback is registered, `gie = 0` in interrupt context:
kept by every step, from every state. -/
def Obligations.EnvironmentInvariantIsKept : Prop :=
  ∀ s t : State, EnvInv s → step s = .next t → EnvInv t

/-- R41: "every command, handler and `CLK` step preserves them when they hold before it": clauses 1 to 6 of
`WF`, kept by every step; and from `WF` no step raises `InvariantViolated` (R229). -/
def Obligations.QueueWellFormednessIsKept : Prop :=
  ∀ s t : State, WF s → step s = .next t →
    WF t ∧ (t.fault = .invariantViolated → s.fault = .invariantViolated)

/-- R42: the compare unit's invariants are kept by every step: when the register is authoritative it holds
the low part of the head's deadline and its interrupt is enabled, and otherwise it is disabled. -/
def Obligations.CompareUnitInvariantIsKept : Prop :=
  ∀ s t : State, WF s → CompareInv s → step s = .next t → CompareInv t

/-- R41, R42, R228, R229: from a safe state no step answers a fault, and every next state is safe: neither
`FatalAssert` nor `InvariantViolated` can be reached from reset. -/
def Obligations.SafeStatesStaySafe : Prop :=
  ∀ s : State, Safe s → (∀ f, step s ≠ .fault f) ∧ ∀ t, step s = .next t → Safe t

/-- 93 V7, V10, R92, R68: the only refusals of a machine with well-formed parameters are the sub-word and
misaligned accesses to a register and the host actions in the wrong context. That nothing else is refused is
in part the model's reading: a write to a read-only register is ignored (R21, where 93 V9 says refuse: log
10), every access from 0x20 up has an effect (log 2), a body may go on after its `HostIret` (log 16), a
`DELAY` outside its range runs (log 17), and a `branch` may skip past a body's end (log 18). -/
def Obligations.OnlyForbiddenHostMovesAreRefused : Prop :=
  ∀ (s : State) (r : Refusal), s.cfg.wellFormed = true → step s = .refused r →
    s.turn = .host ∧ ∃ m rest, s.host = m :: rest ∧
      ((r = .subWordAccess ∧
          ((∃ offset size v, m = .write offset size v ∧ offset < 0x20 ∧ (size ≠ 4 ∨ offset % 4 ≠ 0)) ∨
           (∃ offset size, m = .read offset size ∧ offset < 0x20 ∧ (size ≠ 4 ∨ offset % 4 ≠ 0)) ∨
           (∃ offset mask value skip, m = .branch offset mask value skip ∧ offset < 0x20 ∧
             offset % 4 ≠ 0))) ∨
       (r = .moveNotInContext ∧
          ((m = .iret ∧ s.ctx = .main) ∨ ((m = .irqEnable ∨ m = .irqDisable) ∧ s.ctx = .irq))))

/-- R28: `expired_flag` is "*Cleared* only by `reconcile`": only a `START`, a `STOP` or a `RECONCILE`, or the
reset line, takes it from 1 to 0. -/
def Obligations.ExpiredFlagIsClearedOnlyByReconciliation : Prop :=
  ∀ s t : State, step s = .next t → s.expiredFlag = true → t.expiredFlag = false →
    (∃ program, s.turn = .reset program) ∨
    (s.turn = .host ∧ ∃ w rest i, s.host = .write 0 4 w :: rest ∧
      decode s.cfg.hpPresent w = .instr i ∧
      ((∃ mode id, i = .start mode id) ∨ (∃ id, i = .stop id) ∨ i = .reconcile))

/-- R23, R25 to R27, R73: only a `START`, a `STOP`, a `RECONCILE` or a `POP_EXPIRED`, or the reset line,
writes a slot or a queue register: no tick, no handler, no other host move. -/
def Obligations.QueuesAreWrittenOnlyByQueueCommands : Prop :=
  ∀ s t : State, step s = .next t →
    ¬(t.slots = s.slots ∧ t.runHead = s.runHead ∧ t.expHead = s.expHead ∧ t.expTail = s.expTail ∧
      t.runCount = s.runCount) →
    (∃ program, s.turn = .reset program) ∨
    (s.turn = .host ∧ ∃ w rest i, s.host = .write 0 4 w :: rest ∧
      decode s.cfg.hpPresent w = .instr i ∧
      ((∃ mode id, i = .start mode id) ∨ (∃ id, i = .stop id) ∨ i = .reconcile ∨ i = .popExpired))

/-- R30: `sys_high` is "Written only by the overflow handler ..., which adds 1 modulo `2^SHW`". -/
def Obligations.SysHighIsWrittenOnlyByTheOverflowHandler : Prop :=
  ∀ s t : State, step s = .next t → t.sysHigh ≠ s.sysHigh →
    (∃ program, s.turn = .reset program) ∨
    (s.deliverable = some .ovf ∧ t.sysHigh.toNat = (s.sysHigh.toNat + 1) % 2 ^ s.cfg.shw)

/-- R27, R35: no rule branches on `run_count` and no rule reads `hp_expiry`: two states that agree on
everything else take steps that agree on everything else; so a wrong `run_count` raises nothing, which is the
model's reading where 93 U3 differs from R27 and R229 (log 19). -/
def Obligations.RunCountAndHpExpiryAreNeverRead : Prop :=
  ∀ s u : State, s.forgetUnread = u.forgetUnread → sameButUnread (step s) (step u)
end

