-- ==== Sys2Proof/Laws/State.lean ====
section
/-! SUPPORT. One lemma per field per state update, each true by `rfl` and a simp lemma, so that no later
proof unfolds an update; then the fields that a run of ticks and a `yield` leave alone. -/

namespace Sys2Proof.Machine

/-! ### `modifySlot` -/

@[simp] theorem State.modifySlot_cfg (s : State) (id : TimerId) (f : Slot → Slot) : (s.modifySlot id f).cfg = s.cfg := rfl
@[simp] theorem State.modifySlot_cmd (s : State) (id : TimerId) (f : Slot → Slot) : (s.modifySlot id f).cmd = s.cmd := rfl
@[simp] theorem State.modifySlot_opTimeout (s : State) (id : TimerId) (f : Slot → Slot) : (s.modifySlot id f).opTimeout = s.opTimeout := rfl
@[simp] theorem State.modifySlot_opCb (s : State) (id : TimerId) (f : Slot → Slot) : (s.modifySlot id f).opCb = s.opCb := rfl
@[simp] theorem State.modifySlot_opArg (s : State) (id : TimerId) (f : Slot → Slot) : (s.modifySlot id f).opArg = s.opArg := rfl
@[simp] theorem State.modifySlot_status (s : State) (id : TimerId) (f : Slot → Slot) : (s.modifySlot id f).status = s.status := rfl
@[simp] theorem State.modifySlot_res0 (s : State) (id : TimerId) (f : Slot → Slot) : (s.modifySlot id f).res0 = s.res0 := rfl
@[simp] theorem State.modifySlot_res1 (s : State) (id : TimerId) (f : Slot → Slot) : (s.modifySlot id f).res1 = s.res1 := rfl
@[simp] theorem State.modifySlot_res2 (s : State) (id : TimerId) (f : Slot → Slot) : (s.modifySlot id f).res2 = s.res2 := rfl
@[simp] theorem State.modifySlot_slots (s : State) (id : TimerId) (f : Slot → Slot) : (s.modifySlot id f).slots = s.slots.modify id.toNat f := rfl
@[simp] theorem State.modifySlot_runHead (s : State) (id : TimerId) (f : Slot → Slot) : (s.modifySlot id f).runHead = s.runHead := rfl
@[simp] theorem State.modifySlot_expHead (s : State) (id : TimerId) (f : Slot → Slot) : (s.modifySlot id f).expHead = s.expHead := rfl
@[simp] theorem State.modifySlot_expTail (s : State) (id : TimerId) (f : Slot → Slot) : (s.modifySlot id f).expTail = s.expTail := rfl
@[simp] theorem State.modifySlot_runCount (s : State) (id : TimerId) (f : Slot → Slot) : (s.modifySlot id f).runCount = s.runCount := rfl
@[simp] theorem State.modifySlot_expiredFlag (s : State) (id : TimerId) (f : Slot → Slot) : (s.modifySlot id f).expiredFlag = s.expiredFlag := rfl
@[simp] theorem State.modifySlot_ocrAuth (s : State) (id : TimerId) (f : Slot → Slot) : (s.modifySlot id f).ocrAuth = s.ocrAuth := rfl
@[simp] theorem State.modifySlot_sysHigh (s : State) (id : TimerId) (f : Slot → Slot) : (s.modifySlot id f).sysHigh = s.sysHigh := rfl
@[simp] theorem State.modifySlot_cnt (s : State) (id : TimerId) (f : Slot → Slot) : (s.modifySlot id f).cnt = s.cnt := rfl
@[simp] theorem State.modifySlot_ocr (s : State) (id : TimerId) (f : Slot → Slot) : (s.modifySlot id f).ocr = s.ocr := rfl
@[simp] theorem State.modifySlot_cmpIe (s : State) (id : TimerId) (f : Slot → Slot) : (s.modifySlot id f).cmpIe = s.cmpIe := rfl
@[simp] theorem State.modifySlot_cmpIf (s : State) (id : TimerId) (f : Slot → Slot) : (s.modifySlot id f).cmpIf = s.cmpIf := rfl
@[simp] theorem State.modifySlot_ovfIe (s : State) (id : TimerId) (f : Slot → Slot) : (s.modifySlot id f).ovfIe = s.ovfIe := rfl
@[simp] theorem State.modifySlot_ovfIf (s : State) (id : TimerId) (f : Slot → Slot) : (s.modifySlot id f).ovfIf = s.ovfIf := rfl
@[simp] theorem State.modifySlot_hpCb (s : State) (id : TimerId) (f : Slot → Slot) : (s.modifySlot id f).hpCb = s.hpCb := rfl
@[simp] theorem State.modifySlot_hpArg (s : State) (id : TimerId) (f : Slot → Slot) : (s.modifySlot id f).hpArg = s.hpArg := rfl
@[simp] theorem State.modifySlot_hpExpiry (s : State) (id : TimerId) (f : Slot → Slot) : (s.modifySlot id f).hpExpiry = s.hpExpiry := rfl
@[simp] theorem State.modifySlot_ocrHp (s : State) (id : TimerId) (f : Slot → Slot) : (s.modifySlot id f).ocrHp = s.ocrHp := rfl
@[simp] theorem State.modifySlot_hpIe (s : State) (id : TimerId) (f : Slot → Slot) : (s.modifySlot id f).hpIe = s.hpIe := rfl
@[simp] theorem State.modifySlot_hpIf (s : State) (id : TimerId) (f : Slot → Slot) : (s.modifySlot id f).hpIf = s.hpIf := rfl
@[simp] theorem State.modifySlot_gie (s : State) (id : TimerId) (f : Slot → Slot) : (s.modifySlot id f).gie = s.gie := rfl
@[simp] theorem State.modifySlot_ctx (s : State) (id : TimerId) (f : Slot → Slot) : (s.modifySlot id f).ctx = s.ctx := rfl
@[simp] theorem State.modifySlot_fault (s : State) (id : TimerId) (f : Slot → Slot) : (s.modifySlot id f).fault = s.fault := rfl
@[simp] theorem State.modifySlot_sched (s : State) (id : TimerId) (f : Slot → Slot) : (s.modifySlot id f).sched = s.sched := rfl
@[simp] theorem State.modifySlot_host (s : State) (id : TimerId) (f : Slot → Slot) : (s.modifySlot id f).host = s.host := rfl
@[simp] theorem State.modifySlot_draws (s : State) (id : TimerId) (f : Slot → Slot) : (s.modifySlot id f).draws = s.draws := rfl
@[simp] theorem State.modifySlot_callbacks (s : State) (id : TimerId) (f : Slot → Slot) : (s.modifySlot id f).callbacks = s.callbacks := rfl
@[simp] theorem State.modifySlot_hostRead (s : State) (id : TimerId) (f : Slot → Slot) : (s.modifySlot id f).hostRead = s.hostRead := rfl

/-! ### `setNext` -/

@[simp] theorem State.setNext_cfg (s : State) (id n : TimerId) : (s.setNext id n).cfg = s.cfg := rfl
@[simp] theorem State.setNext_cmd (s : State) (id n : TimerId) : (s.setNext id n).cmd = s.cmd := rfl
@[simp] theorem State.setNext_opTimeout (s : State) (id n : TimerId) : (s.setNext id n).opTimeout = s.opTimeout := rfl
@[simp] theorem State.setNext_opCb (s : State) (id n : TimerId) : (s.setNext id n).opCb = s.opCb := rfl
@[simp] theorem State.setNext_opArg (s : State) (id n : TimerId) : (s.setNext id n).opArg = s.opArg := rfl
@[simp] theorem State.setNext_status (s : State) (id n : TimerId) : (s.setNext id n).status = s.status := rfl
@[simp] theorem State.setNext_res0 (s : State) (id n : TimerId) : (s.setNext id n).res0 = s.res0 := rfl
@[simp] theorem State.setNext_res1 (s : State) (id n : TimerId) : (s.setNext id n).res1 = s.res1 := rfl
@[simp] theorem State.setNext_res2 (s : State) (id n : TimerId) : (s.setNext id n).res2 = s.res2 := rfl
@[simp] theorem State.setNext_slots (s : State) (id n : TimerId) : (s.setNext id n).slots = s.slots.modify id.toNat fun sl => { sl with next := n } := rfl
@[simp] theorem State.setNext_runHead (s : State) (id n : TimerId) : (s.setNext id n).runHead = s.runHead := rfl
@[simp] theorem State.setNext_expHead (s : State) (id n : TimerId) : (s.setNext id n).expHead = s.expHead := rfl
@[simp] theorem State.setNext_expTail (s : State) (id n : TimerId) : (s.setNext id n).expTail = s.expTail := rfl
@[simp] theorem State.setNext_runCount (s : State) (id n : TimerId) : (s.setNext id n).runCount = s.runCount := rfl
@[simp] theorem State.setNext_expiredFlag (s : State) (id n : TimerId) : (s.setNext id n).expiredFlag = s.expiredFlag := rfl
@[simp] theorem State.setNext_ocrAuth (s : State) (id n : TimerId) : (s.setNext id n).ocrAuth = s.ocrAuth := rfl
@[simp] theorem State.setNext_sysHigh (s : State) (id n : TimerId) : (s.setNext id n).sysHigh = s.sysHigh := rfl
@[simp] theorem State.setNext_cnt (s : State) (id n : TimerId) : (s.setNext id n).cnt = s.cnt := rfl
@[simp] theorem State.setNext_ocr (s : State) (id n : TimerId) : (s.setNext id n).ocr = s.ocr := rfl
@[simp] theorem State.setNext_cmpIe (s : State) (id n : TimerId) : (s.setNext id n).cmpIe = s.cmpIe := rfl
@[simp] theorem State.setNext_cmpIf (s : State) (id n : TimerId) : (s.setNext id n).cmpIf = s.cmpIf := rfl
@[simp] theorem State.setNext_ovfIe (s : State) (id n : TimerId) : (s.setNext id n).ovfIe = s.ovfIe := rfl
@[simp] theorem State.setNext_ovfIf (s : State) (id n : TimerId) : (s.setNext id n).ovfIf = s.ovfIf := rfl
@[simp] theorem State.setNext_hpCb (s : State) (id n : TimerId) : (s.setNext id n).hpCb = s.hpCb := rfl
@[simp] theorem State.setNext_hpArg (s : State) (id n : TimerId) : (s.setNext id n).hpArg = s.hpArg := rfl
@[simp] theorem State.setNext_hpExpiry (s : State) (id n : TimerId) : (s.setNext id n).hpExpiry = s.hpExpiry := rfl
@[simp] theorem State.setNext_ocrHp (s : State) (id n : TimerId) : (s.setNext id n).ocrHp = s.ocrHp := rfl
@[simp] theorem State.setNext_hpIe (s : State) (id n : TimerId) : (s.setNext id n).hpIe = s.hpIe := rfl
@[simp] theorem State.setNext_hpIf (s : State) (id n : TimerId) : (s.setNext id n).hpIf = s.hpIf := rfl
@[simp] theorem State.setNext_gie (s : State) (id n : TimerId) : (s.setNext id n).gie = s.gie := rfl
@[simp] theorem State.setNext_ctx (s : State) (id n : TimerId) : (s.setNext id n).ctx = s.ctx := rfl
@[simp] theorem State.setNext_fault (s : State) (id n : TimerId) : (s.setNext id n).fault = s.fault := rfl
@[simp] theorem State.setNext_sched (s : State) (id n : TimerId) : (s.setNext id n).sched = s.sched := rfl
@[simp] theorem State.setNext_host (s : State) (id n : TimerId) : (s.setNext id n).host = s.host := rfl
@[simp] theorem State.setNext_draws (s : State) (id n : TimerId) : (s.setNext id n).draws = s.draws := rfl
@[simp] theorem State.setNext_callbacks (s : State) (id n : TimerId) : (s.setNext id n).callbacks = s.callbacks := rfl
@[simp] theorem State.setNext_hostRead (s : State) (id n : TimerId) : (s.setNext id n).hostRead = s.hostRead := rfl

/-! ### `clearCallback` -/

@[simp] theorem State.clearCallback_cfg (s : State) (id : TimerId) : (s.clearCallback id).cfg = s.cfg := rfl
@[simp] theorem State.clearCallback_cmd (s : State) (id : TimerId) : (s.clearCallback id).cmd = s.cmd := rfl
@[simp] theorem State.clearCallback_opTimeout (s : State) (id : TimerId) : (s.clearCallback id).opTimeout = s.opTimeout := rfl
@[simp] theorem State.clearCallback_opCb (s : State) (id : TimerId) : (s.clearCallback id).opCb = s.opCb := rfl
@[simp] theorem State.clearCallback_opArg (s : State) (id : TimerId) : (s.clearCallback id).opArg = s.opArg := rfl
@[simp] theorem State.clearCallback_status (s : State) (id : TimerId) : (s.clearCallback id).status = s.status := rfl
@[simp] theorem State.clearCallback_res0 (s : State) (id : TimerId) : (s.clearCallback id).res0 = s.res0 := rfl
@[simp] theorem State.clearCallback_res1 (s : State) (id : TimerId) : (s.clearCallback id).res1 = s.res1 := rfl
@[simp] theorem State.clearCallback_res2 (s : State) (id : TimerId) : (s.clearCallback id).res2 = s.res2 := rfl
@[simp] theorem State.clearCallback_slots (s : State) (id : TimerId) : (s.clearCallback id).slots = s.slots.modify id.toNat fun sl => { sl with callback := null } := rfl
@[simp] theorem State.clearCallback_runHead (s : State) (id : TimerId) : (s.clearCallback id).runHead = s.runHead := rfl
@[simp] theorem State.clearCallback_expHead (s : State) (id : TimerId) : (s.clearCallback id).expHead = s.expHead := rfl
@[simp] theorem State.clearCallback_expTail (s : State) (id : TimerId) : (s.clearCallback id).expTail = s.expTail := rfl
@[simp] theorem State.clearCallback_runCount (s : State) (id : TimerId) : (s.clearCallback id).runCount = s.runCount := rfl
@[simp] theorem State.clearCallback_expiredFlag (s : State) (id : TimerId) : (s.clearCallback id).expiredFlag = s.expiredFlag := rfl
@[simp] theorem State.clearCallback_ocrAuth (s : State) (id : TimerId) : (s.clearCallback id).ocrAuth = s.ocrAuth := rfl
@[simp] theorem State.clearCallback_sysHigh (s : State) (id : TimerId) : (s.clearCallback id).sysHigh = s.sysHigh := rfl
@[simp] theorem State.clearCallback_cnt (s : State) (id : TimerId) : (s.clearCallback id).cnt = s.cnt := rfl
@[simp] theorem State.clearCallback_ocr (s : State) (id : TimerId) : (s.clearCallback id).ocr = s.ocr := rfl
@[simp] theorem State.clearCallback_cmpIe (s : State) (id : TimerId) : (s.clearCallback id).cmpIe = s.cmpIe := rfl
@[simp] theorem State.clearCallback_cmpIf (s : State) (id : TimerId) : (s.clearCallback id).cmpIf = s.cmpIf := rfl
@[simp] theorem State.clearCallback_ovfIe (s : State) (id : TimerId) : (s.clearCallback id).ovfIe = s.ovfIe := rfl
@[simp] theorem State.clearCallback_ovfIf (s : State) (id : TimerId) : (s.clearCallback id).ovfIf = s.ovfIf := rfl
@[simp] theorem State.clearCallback_hpCb (s : State) (id : TimerId) : (s.clearCallback id).hpCb = s.hpCb := rfl
@[simp] theorem State.clearCallback_hpArg (s : State) (id : TimerId) : (s.clearCallback id).hpArg = s.hpArg := rfl
@[simp] theorem State.clearCallback_hpExpiry (s : State) (id : TimerId) : (s.clearCallback id).hpExpiry = s.hpExpiry := rfl
@[simp] theorem State.clearCallback_ocrHp (s : State) (id : TimerId) : (s.clearCallback id).ocrHp = s.ocrHp := rfl
@[simp] theorem State.clearCallback_hpIe (s : State) (id : TimerId) : (s.clearCallback id).hpIe = s.hpIe := rfl
@[simp] theorem State.clearCallback_hpIf (s : State) (id : TimerId) : (s.clearCallback id).hpIf = s.hpIf := rfl
@[simp] theorem State.clearCallback_gie (s : State) (id : TimerId) : (s.clearCallback id).gie = s.gie := rfl
@[simp] theorem State.clearCallback_ctx (s : State) (id : TimerId) : (s.clearCallback id).ctx = s.ctx := rfl
@[simp] theorem State.clearCallback_fault (s : State) (id : TimerId) : (s.clearCallback id).fault = s.fault := rfl
@[simp] theorem State.clearCallback_sched (s : State) (id : TimerId) : (s.clearCallback id).sched = s.sched := rfl
@[simp] theorem State.clearCallback_host (s : State) (id : TimerId) : (s.clearCallback id).host = s.host := rfl
@[simp] theorem State.clearCallback_draws (s : State) (id : TimerId) : (s.clearCallback id).draws = s.draws := rfl
@[simp] theorem State.clearCallback_callbacks (s : State) (id : TimerId) : (s.clearCallback id).callbacks = s.callbacks := rfl
@[simp] theorem State.clearCallback_hostRead (s : State) (id : TimerId) : (s.clearCallback id).hostRead = s.hostRead := rfl

/-! ### `fillSlot` -/

@[simp] theorem State.fillSlot_cfg (s : State) (id : TimerId) (target cb arg : Word) : (s.fillSlot id target cb arg).cfg = s.cfg := rfl
@[simp] theorem State.fillSlot_cmd (s : State) (id : TimerId) (target cb arg : Word) : (s.fillSlot id target cb arg).cmd = s.cmd := rfl
@[simp] theorem State.fillSlot_opTimeout (s : State) (id : TimerId) (target cb arg : Word) : (s.fillSlot id target cb arg).opTimeout = s.opTimeout := rfl
@[simp] theorem State.fillSlot_opCb (s : State) (id : TimerId) (target cb arg : Word) : (s.fillSlot id target cb arg).opCb = s.opCb := rfl
@[simp] theorem State.fillSlot_opArg (s : State) (id : TimerId) (target cb arg : Word) : (s.fillSlot id target cb arg).opArg = s.opArg := rfl
@[simp] theorem State.fillSlot_status (s : State) (id : TimerId) (target cb arg : Word) : (s.fillSlot id target cb arg).status = s.status := rfl
@[simp] theorem State.fillSlot_res0 (s : State) (id : TimerId) (target cb arg : Word) : (s.fillSlot id target cb arg).res0 = s.res0 := rfl
@[simp] theorem State.fillSlot_res1 (s : State) (id : TimerId) (target cb arg : Word) : (s.fillSlot id target cb arg).res1 = s.res1 := rfl
@[simp] theorem State.fillSlot_res2 (s : State) (id : TimerId) (target cb arg : Word) : (s.fillSlot id target cb arg).res2 = s.res2 := rfl
@[simp] theorem State.fillSlot_slots (s : State) (id : TimerId) (target cb arg : Word) : (s.fillSlot id target cb arg).slots = s.slots.modify id.toNat fun sl => { sl with absExpiry := target, callback := cb, callbackArg := arg } := rfl
@[simp] theorem State.fillSlot_runHead (s : State) (id : TimerId) (target cb arg : Word) : (s.fillSlot id target cb arg).runHead = s.runHead := rfl
@[simp] theorem State.fillSlot_expHead (s : State) (id : TimerId) (target cb arg : Word) : (s.fillSlot id target cb arg).expHead = s.expHead := rfl
@[simp] theorem State.fillSlot_expTail (s : State) (id : TimerId) (target cb arg : Word) : (s.fillSlot id target cb arg).expTail = s.expTail := rfl
@[simp] theorem State.fillSlot_runCount (s : State) (id : TimerId) (target cb arg : Word) : (s.fillSlot id target cb arg).runCount = s.runCount := rfl
@[simp] theorem State.fillSlot_expiredFlag (s : State) (id : TimerId) (target cb arg : Word) : (s.fillSlot id target cb arg).expiredFlag = s.expiredFlag := rfl
@[simp] theorem State.fillSlot_ocrAuth (s : State) (id : TimerId) (target cb arg : Word) : (s.fillSlot id target cb arg).ocrAuth = s.ocrAuth := rfl
@[simp] theorem State.fillSlot_sysHigh (s : State) (id : TimerId) (target cb arg : Word) : (s.fillSlot id target cb arg).sysHigh = s.sysHigh := rfl
@[simp] theorem State.fillSlot_cnt (s : State) (id : TimerId) (target cb arg : Word) : (s.fillSlot id target cb arg).cnt = s.cnt := rfl
@[simp] theorem State.fillSlot_ocr (s : State) (id : TimerId) (target cb arg : Word) : (s.fillSlot id target cb arg).ocr = s.ocr := rfl
@[simp] theorem State.fillSlot_cmpIe (s : State) (id : TimerId) (target cb arg : Word) : (s.fillSlot id target cb arg).cmpIe = s.cmpIe := rfl
@[simp] theorem State.fillSlot_cmpIf (s : State) (id : TimerId) (target cb arg : Word) : (s.fillSlot id target cb arg).cmpIf = s.cmpIf := rfl
@[simp] theorem State.fillSlot_ovfIe (s : State) (id : TimerId) (target cb arg : Word) : (s.fillSlot id target cb arg).ovfIe = s.ovfIe := rfl
@[simp] theorem State.fillSlot_ovfIf (s : State) (id : TimerId) (target cb arg : Word) : (s.fillSlot id target cb arg).ovfIf = s.ovfIf := rfl
@[simp] theorem State.fillSlot_hpCb (s : State) (id : TimerId) (target cb arg : Word) : (s.fillSlot id target cb arg).hpCb = s.hpCb := rfl
@[simp] theorem State.fillSlot_hpArg (s : State) (id : TimerId) (target cb arg : Word) : (s.fillSlot id target cb arg).hpArg = s.hpArg := rfl
@[simp] theorem State.fillSlot_hpExpiry (s : State) (id : TimerId) (target cb arg : Word) : (s.fillSlot id target cb arg).hpExpiry = s.hpExpiry := rfl
@[simp] theorem State.fillSlot_ocrHp (s : State) (id : TimerId) (target cb arg : Word) : (s.fillSlot id target cb arg).ocrHp = s.ocrHp := rfl
@[simp] theorem State.fillSlot_hpIe (s : State) (id : TimerId) (target cb arg : Word) : (s.fillSlot id target cb arg).hpIe = s.hpIe := rfl
@[simp] theorem State.fillSlot_hpIf (s : State) (id : TimerId) (target cb arg : Word) : (s.fillSlot id target cb arg).hpIf = s.hpIf := rfl
@[simp] theorem State.fillSlot_gie (s : State) (id : TimerId) (target cb arg : Word) : (s.fillSlot id target cb arg).gie = s.gie := rfl
@[simp] theorem State.fillSlot_ctx (s : State) (id : TimerId) (target cb arg : Word) : (s.fillSlot id target cb arg).ctx = s.ctx := rfl
@[simp] theorem State.fillSlot_fault (s : State) (id : TimerId) (target cb arg : Word) : (s.fillSlot id target cb arg).fault = s.fault := rfl
@[simp] theorem State.fillSlot_sched (s : State) (id : TimerId) (target cb arg : Word) : (s.fillSlot id target cb arg).sched = s.sched := rfl
@[simp] theorem State.fillSlot_host (s : State) (id : TimerId) (target cb arg : Word) : (s.fillSlot id target cb arg).host = s.host := rfl
@[simp] theorem State.fillSlot_draws (s : State) (id : TimerId) (target cb arg : Word) : (s.fillSlot id target cb arg).draws = s.draws := rfl
@[simp] theorem State.fillSlot_callbacks (s : State) (id : TimerId) (target cb arg : Word) : (s.fillSlot id target cb arg).callbacks = s.callbacks := rfl
@[simp] theorem State.fillSlot_hostRead (s : State) (id : TimerId) (target cb arg : Word) : (s.fillSlot id target cb arg).hostRead = s.hostRead := rfl

/-! ### `invariantViolated` -/

@[simp] theorem State.invariantViolated_cfg (s : State) : (s.invariantViolated).cfg = s.cfg := rfl
@[simp] theorem State.invariantViolated_cmd (s : State) : (s.invariantViolated).cmd = s.cmd := rfl
@[simp] theorem State.invariantViolated_opTimeout (s : State) : (s.invariantViolated).opTimeout = s.opTimeout := rfl
@[simp] theorem State.invariantViolated_opCb (s : State) : (s.invariantViolated).opCb = s.opCb := rfl
@[simp] theorem State.invariantViolated_opArg (s : State) : (s.invariantViolated).opArg = s.opArg := rfl
@[simp] theorem State.invariantViolated_status (s : State) : (s.invariantViolated).status = s.status := rfl
@[simp] theorem State.invariantViolated_res0 (s : State) : (s.invariantViolated).res0 = s.res0 := rfl
@[simp] theorem State.invariantViolated_res1 (s : State) : (s.invariantViolated).res1 = s.res1 := rfl
@[simp] theorem State.invariantViolated_res2 (s : State) : (s.invariantViolated).res2 = s.res2 := rfl
@[simp] theorem State.invariantViolated_slots (s : State) : (s.invariantViolated).slots = s.slots := rfl
@[simp] theorem State.invariantViolated_runHead (s : State) : (s.invariantViolated).runHead = s.runHead := rfl
@[simp] theorem State.invariantViolated_expHead (s : State) : (s.invariantViolated).expHead = s.expHead := rfl
@[simp] theorem State.invariantViolated_expTail (s : State) : (s.invariantViolated).expTail = s.expTail := rfl
@[simp] theorem State.invariantViolated_runCount (s : State) : (s.invariantViolated).runCount = s.runCount := rfl
@[simp] theorem State.invariantViolated_expiredFlag (s : State) : (s.invariantViolated).expiredFlag = s.expiredFlag := rfl
@[simp] theorem State.invariantViolated_ocrAuth (s : State) : (s.invariantViolated).ocrAuth = s.ocrAuth := rfl
@[simp] theorem State.invariantViolated_sysHigh (s : State) : (s.invariantViolated).sysHigh = s.sysHigh := rfl
@[simp] theorem State.invariantViolated_cnt (s : State) : (s.invariantViolated).cnt = s.cnt := rfl
@[simp] theorem State.invariantViolated_ocr (s : State) : (s.invariantViolated).ocr = s.ocr := rfl
@[simp] theorem State.invariantViolated_cmpIe (s : State) : (s.invariantViolated).cmpIe = s.cmpIe := rfl
@[simp] theorem State.invariantViolated_cmpIf (s : State) : (s.invariantViolated).cmpIf = s.cmpIf := rfl
@[simp] theorem State.invariantViolated_ovfIe (s : State) : (s.invariantViolated).ovfIe = s.ovfIe := rfl
@[simp] theorem State.invariantViolated_ovfIf (s : State) : (s.invariantViolated).ovfIf = s.ovfIf := rfl
@[simp] theorem State.invariantViolated_hpCb (s : State) : (s.invariantViolated).hpCb = s.hpCb := rfl
@[simp] theorem State.invariantViolated_hpArg (s : State) : (s.invariantViolated).hpArg = s.hpArg := rfl
@[simp] theorem State.invariantViolated_hpExpiry (s : State) : (s.invariantViolated).hpExpiry = s.hpExpiry := rfl
@[simp] theorem State.invariantViolated_ocrHp (s : State) : (s.invariantViolated).ocrHp = s.ocrHp := rfl
@[simp] theorem State.invariantViolated_hpIe (s : State) : (s.invariantViolated).hpIe = s.hpIe := rfl
@[simp] theorem State.invariantViolated_hpIf (s : State) : (s.invariantViolated).hpIf = s.hpIf := rfl
@[simp] theorem State.invariantViolated_gie (s : State) : (s.invariantViolated).gie = s.gie := rfl
@[simp] theorem State.invariantViolated_ctx (s : State) : (s.invariantViolated).ctx = s.ctx := rfl
@[simp] theorem State.invariantViolated_fault (s : State) : (s.invariantViolated).fault = .invariantViolated := rfl
@[simp] theorem State.invariantViolated_sched (s : State) : (s.invariantViolated).sched = s.sched := rfl
@[simp] theorem State.invariantViolated_host (s : State) : (s.invariantViolated).host = s.host := rfl
@[simp] theorem State.invariantViolated_draws (s : State) : (s.invariantViolated).draws = s.draws := rfl
@[simp] theorem State.invariantViolated_callbacks (s : State) : (s.invariantViolated).callbacks = s.callbacks := rfl
@[simp] theorem State.invariantViolated_hostRead (s : State) : (s.invariantViolated).hostRead = s.hostRead := rfl
@[simp] theorem State.slot?_invariantViolated (s : State) (j : TimerId) : (s.invariantViolated).slot? j = s.slot? j := rfl

/-! ### `fatalAssert` -/

@[simp] theorem State.fatalAssert_cfg (s : State) : (s.fatalAssert).cfg = s.cfg := rfl
@[simp] theorem State.fatalAssert_cmd (s : State) : (s.fatalAssert).cmd = s.cmd := rfl
@[simp] theorem State.fatalAssert_opTimeout (s : State) : (s.fatalAssert).opTimeout = s.opTimeout := rfl
@[simp] theorem State.fatalAssert_opCb (s : State) : (s.fatalAssert).opCb = s.opCb := rfl
@[simp] theorem State.fatalAssert_opArg (s : State) : (s.fatalAssert).opArg = s.opArg := rfl
@[simp] theorem State.fatalAssert_status (s : State) : (s.fatalAssert).status = s.status := rfl
@[simp] theorem State.fatalAssert_res0 (s : State) : (s.fatalAssert).res0 = s.res0 := rfl
@[simp] theorem State.fatalAssert_res1 (s : State) : (s.fatalAssert).res1 = s.res1 := rfl
@[simp] theorem State.fatalAssert_res2 (s : State) : (s.fatalAssert).res2 = s.res2 := rfl
@[simp] theorem State.fatalAssert_slots (s : State) : (s.fatalAssert).slots = s.slots := rfl
@[simp] theorem State.fatalAssert_runHead (s : State) : (s.fatalAssert).runHead = s.runHead := rfl
@[simp] theorem State.fatalAssert_expHead (s : State) : (s.fatalAssert).expHead = s.expHead := rfl
@[simp] theorem State.fatalAssert_expTail (s : State) : (s.fatalAssert).expTail = s.expTail := rfl
@[simp] theorem State.fatalAssert_runCount (s : State) : (s.fatalAssert).runCount = s.runCount := rfl
@[simp] theorem State.fatalAssert_expiredFlag (s : State) : (s.fatalAssert).expiredFlag = s.expiredFlag := rfl
@[simp] theorem State.fatalAssert_ocrAuth (s : State) : (s.fatalAssert).ocrAuth = s.ocrAuth := rfl
@[simp] theorem State.fatalAssert_sysHigh (s : State) : (s.fatalAssert).sysHigh = s.sysHigh := rfl
@[simp] theorem State.fatalAssert_cnt (s : State) : (s.fatalAssert).cnt = s.cnt := rfl
@[simp] theorem State.fatalAssert_ocr (s : State) : (s.fatalAssert).ocr = s.ocr := rfl
@[simp] theorem State.fatalAssert_cmpIe (s : State) : (s.fatalAssert).cmpIe = s.cmpIe := rfl
@[simp] theorem State.fatalAssert_cmpIf (s : State) : (s.fatalAssert).cmpIf = s.cmpIf := rfl
@[simp] theorem State.fatalAssert_ovfIe (s : State) : (s.fatalAssert).ovfIe = s.ovfIe := rfl
@[simp] theorem State.fatalAssert_ovfIf (s : State) : (s.fatalAssert).ovfIf = s.ovfIf := rfl
@[simp] theorem State.fatalAssert_hpCb (s : State) : (s.fatalAssert).hpCb = s.hpCb := rfl
@[simp] theorem State.fatalAssert_hpArg (s : State) : (s.fatalAssert).hpArg = s.hpArg := rfl
@[simp] theorem State.fatalAssert_hpExpiry (s : State) : (s.fatalAssert).hpExpiry = s.hpExpiry := rfl
@[simp] theorem State.fatalAssert_ocrHp (s : State) : (s.fatalAssert).ocrHp = s.ocrHp := rfl
@[simp] theorem State.fatalAssert_hpIe (s : State) : (s.fatalAssert).hpIe = s.hpIe := rfl
@[simp] theorem State.fatalAssert_hpIf (s : State) : (s.fatalAssert).hpIf = s.hpIf := rfl
@[simp] theorem State.fatalAssert_gie (s : State) : (s.fatalAssert).gie = s.gie := rfl
@[simp] theorem State.fatalAssert_ctx (s : State) : (s.fatalAssert).ctx = s.ctx := rfl
@[simp] theorem State.fatalAssert_fault (s : State) : (s.fatalAssert).fault = .fatalAssert := rfl
@[simp] theorem State.fatalAssert_sched (s : State) : (s.fatalAssert).sched = s.sched := rfl
@[simp] theorem State.fatalAssert_host (s : State) : (s.fatalAssert).host = s.host := rfl
@[simp] theorem State.fatalAssert_draws (s : State) : (s.fatalAssert).draws = s.draws := rfl
@[simp] theorem State.fatalAssert_callbacks (s : State) : (s.fatalAssert).callbacks = s.callbacks := rfl
@[simp] theorem State.fatalAssert_hostRead (s : State) : (s.fatalAssert).hostRead = s.hostRead := rfl
@[simp] theorem State.slot?_fatalAssert (s : State) (j : TimerId) : (s.fatalAssert).slot? j = s.slot? j := rfl

/-! ### `tick` -/

@[simp] theorem State.tick_cfg (s : State) : (s.tick).cfg = s.cfg := rfl
@[simp] theorem State.tick_cmd (s : State) : (s.tick).cmd = s.cmd := rfl
@[simp] theorem State.tick_opTimeout (s : State) : (s.tick).opTimeout = s.opTimeout := rfl
@[simp] theorem State.tick_opCb (s : State) : (s.tick).opCb = s.opCb := rfl
@[simp] theorem State.tick_opArg (s : State) : (s.tick).opArg = s.opArg := rfl
@[simp] theorem State.tick_status (s : State) : (s.tick).status = s.status := rfl
@[simp] theorem State.tick_res0 (s : State) : (s.tick).res0 = s.res0 := rfl
@[simp] theorem State.tick_res1 (s : State) : (s.tick).res1 = s.res1 := rfl
@[simp] theorem State.tick_res2 (s : State) : (s.tick).res2 = s.res2 := rfl
@[simp] theorem State.tick_slots (s : State) : (s.tick).slots = s.slots := rfl
@[simp] theorem State.tick_runHead (s : State) : (s.tick).runHead = s.runHead := rfl
@[simp] theorem State.tick_expHead (s : State) : (s.tick).expHead = s.expHead := rfl
@[simp] theorem State.tick_expTail (s : State) : (s.tick).expTail = s.expTail := rfl
@[simp] theorem State.tick_runCount (s : State) : (s.tick).runCount = s.runCount := rfl
@[simp] theorem State.tick_expiredFlag (s : State) : (s.tick).expiredFlag = s.expiredFlag := rfl
@[simp] theorem State.tick_ocrAuth (s : State) : (s.tick).ocrAuth = s.ocrAuth := rfl
@[simp] theorem State.tick_sysHigh (s : State) : (s.tick).sysHigh = s.sysHigh := rfl
@[simp] theorem State.tick_cnt (s : State) : (s.tick).cnt = s.cntNext := rfl
@[simp] theorem State.tick_ocr (s : State) : (s.tick).ocr = s.ocr := rfl
@[simp] theorem State.tick_cmpIe (s : State) : (s.tick).cmpIe = s.cmpIe := rfl
@[simp] theorem State.tick_cmpIf (s : State) : (s.tick).cmpIf = (s.cmpIf || (s.cmpIe && s.cntNext == s.ocr)) := rfl
@[simp] theorem State.tick_ovfIe (s : State) : (s.tick).ovfIe = s.ovfIe := rfl
@[simp] theorem State.tick_ovfIf (s : State) : (s.tick).ovfIf = (s.ovfIf || s.cntNext == 0) := rfl
@[simp] theorem State.tick_hpCb (s : State) : (s.tick).hpCb = s.hpCb := rfl
@[simp] theorem State.tick_hpArg (s : State) : (s.tick).hpArg = s.hpArg := rfl
@[simp] theorem State.tick_hpExpiry (s : State) : (s.tick).hpExpiry = s.hpExpiry := rfl
@[simp] theorem State.tick_ocrHp (s : State) : (s.tick).ocrHp = s.ocrHp := rfl
@[simp] theorem State.tick_hpIe (s : State) : (s.tick).hpIe = s.hpIe := rfl
@[simp] theorem State.tick_hpIf (s : State) : (s.tick).hpIf = (s.hpIf || (s.cfg.hpPresent && s.hpIe && s.cntNext == s.ocrHp)) := rfl
@[simp] theorem State.tick_gie (s : State) : (s.tick).gie = s.gie := rfl
@[simp] theorem State.tick_ctx (s : State) : (s.tick).ctx = s.ctx := rfl
@[simp] theorem State.tick_fault (s : State) : (s.tick).fault = s.fault := rfl
@[simp] theorem State.tick_sched (s : State) : (s.tick).sched = s.sched := rfl
@[simp] theorem State.tick_host (s : State) : (s.tick).host = s.host := rfl
@[simp] theorem State.tick_draws (s : State) : (s.tick).draws = s.draws := rfl
@[simp] theorem State.tick_callbacks (s : State) : (s.tick).callbacks = s.callbacks := rfl
@[simp] theorem State.tick_hostRead (s : State) : (s.tick).hostRead = s.hostRead := rfl
@[simp] theorem State.slot?_tick (s : State) (j : TimerId) : (s.tick).slot? j = s.slot? j := rfl

/-! ### `programCompare` -/

@[simp] theorem State.programCompare_cfg (s : State) (v : Word) : (s.programCompare v).cfg = s.cfg := rfl
@[simp] theorem State.programCompare_cmd (s : State) (v : Word) : (s.programCompare v).cmd = s.cmd := rfl
@[simp] theorem State.programCompare_opTimeout (s : State) (v : Word) : (s.programCompare v).opTimeout = s.opTimeout := rfl
@[simp] theorem State.programCompare_opCb (s : State) (v : Word) : (s.programCompare v).opCb = s.opCb := rfl
@[simp] theorem State.programCompare_opArg (s : State) (v : Word) : (s.programCompare v).opArg = s.opArg := rfl
@[simp] theorem State.programCompare_status (s : State) (v : Word) : (s.programCompare v).status = s.status := rfl
@[simp] theorem State.programCompare_res0 (s : State) (v : Word) : (s.programCompare v).res0 = s.res0 := rfl
@[simp] theorem State.programCompare_res1 (s : State) (v : Word) : (s.programCompare v).res1 = s.res1 := rfl
@[simp] theorem State.programCompare_res2 (s : State) (v : Word) : (s.programCompare v).res2 = s.res2 := rfl
@[simp] theorem State.programCompare_slots (s : State) (v : Word) : (s.programCompare v).slots = s.slots := rfl
@[simp] theorem State.programCompare_runHead (s : State) (v : Word) : (s.programCompare v).runHead = s.runHead := rfl
@[simp] theorem State.programCompare_expHead (s : State) (v : Word) : (s.programCompare v).expHead = s.expHead := rfl
@[simp] theorem State.programCompare_expTail (s : State) (v : Word) : (s.programCompare v).expTail = s.expTail := rfl
@[simp] theorem State.programCompare_runCount (s : State) (v : Word) : (s.programCompare v).runCount = s.runCount := rfl
@[simp] theorem State.programCompare_expiredFlag (s : State) (v : Word) : (s.programCompare v).expiredFlag = s.expiredFlag := rfl
@[simp] theorem State.programCompare_ocrAuth (s : State) (v : Word) : (s.programCompare v).ocrAuth = s.ocrAuth := rfl
@[simp] theorem State.programCompare_sysHigh (s : State) (v : Word) : (s.programCompare v).sysHigh = s.sysHigh := rfl
@[simp] theorem State.programCompare_cnt (s : State) (v : Word) : (s.programCompare v).cnt = s.cnt := rfl
@[simp] theorem State.programCompare_ocr (s : State) (v : Word) : (s.programCompare v).ocr = v := rfl
@[simp] theorem State.programCompare_cmpIe (s : State) (v : Word) : (s.programCompare v).cmpIe = s.cmpIe := rfl
@[simp] theorem State.programCompare_cmpIf (s : State) (v : Word) : (s.programCompare v).cmpIf = s.cmpIf := rfl
@[simp] theorem State.programCompare_ovfIe (s : State) (v : Word) : (s.programCompare v).ovfIe = s.ovfIe := rfl
@[simp] theorem State.programCompare_ovfIf (s : State) (v : Word) : (s.programCompare v).ovfIf = s.ovfIf := rfl
@[simp] theorem State.programCompare_hpCb (s : State) (v : Word) : (s.programCompare v).hpCb = s.hpCb := rfl
@[simp] theorem State.programCompare_hpArg (s : State) (v : Word) : (s.programCompare v).hpArg = s.hpArg := rfl
@[simp] theorem State.programCompare_hpExpiry (s : State) (v : Word) : (s.programCompare v).hpExpiry = s.hpExpiry := rfl
@[simp] theorem State.programCompare_ocrHp (s : State) (v : Word) : (s.programCompare v).ocrHp = s.ocrHp := rfl
@[simp] theorem State.programCompare_hpIe (s : State) (v : Word) : (s.programCompare v).hpIe = s.hpIe := rfl
@[simp] theorem State.programCompare_hpIf (s : State) (v : Word) : (s.programCompare v).hpIf = s.hpIf := rfl
@[simp] theorem State.programCompare_gie (s : State) (v : Word) : (s.programCompare v).gie = s.gie := rfl
@[simp] theorem State.programCompare_ctx (s : State) (v : Word) : (s.programCompare v).ctx = s.ctx := rfl
@[simp] theorem State.programCompare_fault (s : State) (v : Word) : (s.programCompare v).fault = s.fault := rfl
@[simp] theorem State.programCompare_sched (s : State) (v : Word) : (s.programCompare v).sched = s.sched := rfl
@[simp] theorem State.programCompare_host (s : State) (v : Word) : (s.programCompare v).host = s.host := rfl
@[simp] theorem State.programCompare_draws (s : State) (v : Word) : (s.programCompare v).draws = s.draws := rfl
@[simp] theorem State.programCompare_callbacks (s : State) (v : Word) : (s.programCompare v).callbacks = s.callbacks := rfl
@[simp] theorem State.programCompare_hostRead (s : State) (v : Word) : (s.programCompare v).hostRead = s.hostRead := rfl
@[simp] theorem State.slot?_programCompare (s : State) (v : Word) (j : TimerId) : (s.programCompare v).slot? j = s.slot? j := rfl

/-! ### `enableCompareIrq` -/

@[simp] theorem State.enableCompareIrq_cfg (s : State) : (s.enableCompareIrq).cfg = s.cfg := rfl
@[simp] theorem State.enableCompareIrq_cmd (s : State) : (s.enableCompareIrq).cmd = s.cmd := rfl
@[simp] theorem State.enableCompareIrq_opTimeout (s : State) : (s.enableCompareIrq).opTimeout = s.opTimeout := rfl
@[simp] theorem State.enableCompareIrq_opCb (s : State) : (s.enableCompareIrq).opCb = s.opCb := rfl
@[simp] theorem State.enableCompareIrq_opArg (s : State) : (s.enableCompareIrq).opArg = s.opArg := rfl
@[simp] theorem State.enableCompareIrq_status (s : State) : (s.enableCompareIrq).status = s.status := rfl
@[simp] theorem State.enableCompareIrq_res0 (s : State) : (s.enableCompareIrq).res0 = s.res0 := rfl
@[simp] theorem State.enableCompareIrq_res1 (s : State) : (s.enableCompareIrq).res1 = s.res1 := rfl
@[simp] theorem State.enableCompareIrq_res2 (s : State) : (s.enableCompareIrq).res2 = s.res2 := rfl
@[simp] theorem State.enableCompareIrq_slots (s : State) : (s.enableCompareIrq).slots = s.slots := rfl
@[simp] theorem State.enableCompareIrq_runHead (s : State) : (s.enableCompareIrq).runHead = s.runHead := rfl
@[simp] theorem State.enableCompareIrq_expHead (s : State) : (s.enableCompareIrq).expHead = s.expHead := rfl
@[simp] theorem State.enableCompareIrq_expTail (s : State) : (s.enableCompareIrq).expTail = s.expTail := rfl
@[simp] theorem State.enableCompareIrq_runCount (s : State) : (s.enableCompareIrq).runCount = s.runCount := rfl
@[simp] theorem State.enableCompareIrq_expiredFlag (s : State) : (s.enableCompareIrq).expiredFlag = s.expiredFlag := rfl
@[simp] theorem State.enableCompareIrq_ocrAuth (s : State) : (s.enableCompareIrq).ocrAuth = s.ocrAuth := rfl
@[simp] theorem State.enableCompareIrq_sysHigh (s : State) : (s.enableCompareIrq).sysHigh = s.sysHigh := rfl
@[simp] theorem State.enableCompareIrq_cnt (s : State) : (s.enableCompareIrq).cnt = s.cnt := rfl
@[simp] theorem State.enableCompareIrq_ocr (s : State) : (s.enableCompareIrq).ocr = s.ocr := rfl
@[simp] theorem State.enableCompareIrq_cmpIe (s : State) : (s.enableCompareIrq).cmpIe = true := rfl
@[simp] theorem State.enableCompareIrq_cmpIf (s : State) : (s.enableCompareIrq).cmpIf = false := rfl
@[simp] theorem State.enableCompareIrq_ovfIe (s : State) : (s.enableCompareIrq).ovfIe = s.ovfIe := rfl
@[simp] theorem State.enableCompareIrq_ovfIf (s : State) : (s.enableCompareIrq).ovfIf = s.ovfIf := rfl
@[simp] theorem State.enableCompareIrq_hpCb (s : State) : (s.enableCompareIrq).hpCb = s.hpCb := rfl
@[simp] theorem State.enableCompareIrq_hpArg (s : State) : (s.enableCompareIrq).hpArg = s.hpArg := rfl
@[simp] theorem State.enableCompareIrq_hpExpiry (s : State) : (s.enableCompareIrq).hpExpiry = s.hpExpiry := rfl
@[simp] theorem State.enableCompareIrq_ocrHp (s : State) : (s.enableCompareIrq).ocrHp = s.ocrHp := rfl
@[simp] theorem State.enableCompareIrq_hpIe (s : State) : (s.enableCompareIrq).hpIe = s.hpIe := rfl
@[simp] theorem State.enableCompareIrq_hpIf (s : State) : (s.enableCompareIrq).hpIf = s.hpIf := rfl
@[simp] theorem State.enableCompareIrq_gie (s : State) : (s.enableCompareIrq).gie = s.gie := rfl
@[simp] theorem State.enableCompareIrq_ctx (s : State) : (s.enableCompareIrq).ctx = s.ctx := rfl
@[simp] theorem State.enableCompareIrq_fault (s : State) : (s.enableCompareIrq).fault = s.fault := rfl
@[simp] theorem State.enableCompareIrq_sched (s : State) : (s.enableCompareIrq).sched = s.sched := rfl
@[simp] theorem State.enableCompareIrq_host (s : State) : (s.enableCompareIrq).host = s.host := rfl
@[simp] theorem State.enableCompareIrq_draws (s : State) : (s.enableCompareIrq).draws = s.draws := rfl
@[simp] theorem State.enableCompareIrq_callbacks (s : State) : (s.enableCompareIrq).callbacks = s.callbacks := rfl
@[simp] theorem State.enableCompareIrq_hostRead (s : State) : (s.enableCompareIrq).hostRead = s.hostRead := rfl
@[simp] theorem State.slot?_enableCompareIrq (s : State) (j : TimerId) : (s.enableCompareIrq).slot? j = s.slot? j := rfl

/-! ### `disableCompareIrq` -/

@[simp] theorem State.disableCompareIrq_cfg (s : State) : (s.disableCompareIrq).cfg = s.cfg := rfl
@[simp] theorem State.disableCompareIrq_cmd (s : State) : (s.disableCompareIrq).cmd = s.cmd := rfl
@[simp] theorem State.disableCompareIrq_opTimeout (s : State) : (s.disableCompareIrq).opTimeout = s.opTimeout := rfl
@[simp] theorem State.disableCompareIrq_opCb (s : State) : (s.disableCompareIrq).opCb = s.opCb := rfl
@[simp] theorem State.disableCompareIrq_opArg (s : State) : (s.disableCompareIrq).opArg = s.opArg := rfl
@[simp] theorem State.disableCompareIrq_status (s : State) : (s.disableCompareIrq).status = s.status := rfl
@[simp] theorem State.disableCompareIrq_res0 (s : State) : (s.disableCompareIrq).res0 = s.res0 := rfl
@[simp] theorem State.disableCompareIrq_res1 (s : State) : (s.disableCompareIrq).res1 = s.res1 := rfl
@[simp] theorem State.disableCompareIrq_res2 (s : State) : (s.disableCompareIrq).res2 = s.res2 := rfl
@[simp] theorem State.disableCompareIrq_slots (s : State) : (s.disableCompareIrq).slots = s.slots := rfl
@[simp] theorem State.disableCompareIrq_runHead (s : State) : (s.disableCompareIrq).runHead = s.runHead := rfl
@[simp] theorem State.disableCompareIrq_expHead (s : State) : (s.disableCompareIrq).expHead = s.expHead := rfl
@[simp] theorem State.disableCompareIrq_expTail (s : State) : (s.disableCompareIrq).expTail = s.expTail := rfl
@[simp] theorem State.disableCompareIrq_runCount (s : State) : (s.disableCompareIrq).runCount = s.runCount := rfl
@[simp] theorem State.disableCompareIrq_expiredFlag (s : State) : (s.disableCompareIrq).expiredFlag = s.expiredFlag := rfl
@[simp] theorem State.disableCompareIrq_ocrAuth (s : State) : (s.disableCompareIrq).ocrAuth = s.ocrAuth := rfl
@[simp] theorem State.disableCompareIrq_sysHigh (s : State) : (s.disableCompareIrq).sysHigh = s.sysHigh := rfl
@[simp] theorem State.disableCompareIrq_cnt (s : State) : (s.disableCompareIrq).cnt = s.cnt := rfl
@[simp] theorem State.disableCompareIrq_ocr (s : State) : (s.disableCompareIrq).ocr = s.ocr := rfl
@[simp] theorem State.disableCompareIrq_cmpIe (s : State) : (s.disableCompareIrq).cmpIe = false := rfl
@[simp] theorem State.disableCompareIrq_cmpIf (s : State) : (s.disableCompareIrq).cmpIf = false := rfl
@[simp] theorem State.disableCompareIrq_ovfIe (s : State) : (s.disableCompareIrq).ovfIe = s.ovfIe := rfl
@[simp] theorem State.disableCompareIrq_ovfIf (s : State) : (s.disableCompareIrq).ovfIf = s.ovfIf := rfl
@[simp] theorem State.disableCompareIrq_hpCb (s : State) : (s.disableCompareIrq).hpCb = s.hpCb := rfl
@[simp] theorem State.disableCompareIrq_hpArg (s : State) : (s.disableCompareIrq).hpArg = s.hpArg := rfl
@[simp] theorem State.disableCompareIrq_hpExpiry (s : State) : (s.disableCompareIrq).hpExpiry = s.hpExpiry := rfl
@[simp] theorem State.disableCompareIrq_ocrHp (s : State) : (s.disableCompareIrq).ocrHp = s.ocrHp := rfl
@[simp] theorem State.disableCompareIrq_hpIe (s : State) : (s.disableCompareIrq).hpIe = s.hpIe := rfl
@[simp] theorem State.disableCompareIrq_hpIf (s : State) : (s.disableCompareIrq).hpIf = s.hpIf := rfl
@[simp] theorem State.disableCompareIrq_gie (s : State) : (s.disableCompareIrq).gie = s.gie := rfl
@[simp] theorem State.disableCompareIrq_ctx (s : State) : (s.disableCompareIrq).ctx = s.ctx := rfl
@[simp] theorem State.disableCompareIrq_fault (s : State) : (s.disableCompareIrq).fault = s.fault := rfl
@[simp] theorem State.disableCompareIrq_sched (s : State) : (s.disableCompareIrq).sched = s.sched := rfl
@[simp] theorem State.disableCompareIrq_host (s : State) : (s.disableCompareIrq).host = s.host := rfl
@[simp] theorem State.disableCompareIrq_draws (s : State) : (s.disableCompareIrq).draws = s.draws := rfl
@[simp] theorem State.disableCompareIrq_callbacks (s : State) : (s.disableCompareIrq).callbacks = s.callbacks := rfl
@[simp] theorem State.disableCompareIrq_hostRead (s : State) : (s.disableCompareIrq).hostRead = s.hostRead := rfl
@[simp] theorem State.slot?_disableCompareIrq (s : State) (j : TimerId) : (s.disableCompareIrq).slot? j = s.slot? j := rfl

/-! ### `safetyCheck` -/

@[simp] theorem State.safetyCheck_cfg (s : State) (exp : Word) : (s.safetyCheck exp).cfg = s.cfg := rfl
@[simp] theorem State.safetyCheck_cmd (s : State) (exp : Word) : (s.safetyCheck exp).cmd = s.cmd := rfl
@[simp] theorem State.safetyCheck_opTimeout (s : State) (exp : Word) : (s.safetyCheck exp).opTimeout = s.opTimeout := rfl
@[simp] theorem State.safetyCheck_opCb (s : State) (exp : Word) : (s.safetyCheck exp).opCb = s.opCb := rfl
@[simp] theorem State.safetyCheck_opArg (s : State) (exp : Word) : (s.safetyCheck exp).opArg = s.opArg := rfl
@[simp] theorem State.safetyCheck_status (s : State) (exp : Word) : (s.safetyCheck exp).status = s.status := rfl
@[simp] theorem State.safetyCheck_res0 (s : State) (exp : Word) : (s.safetyCheck exp).res0 = s.res0 := rfl
@[simp] theorem State.safetyCheck_res1 (s : State) (exp : Word) : (s.safetyCheck exp).res1 = s.res1 := rfl
@[simp] theorem State.safetyCheck_res2 (s : State) (exp : Word) : (s.safetyCheck exp).res2 = s.res2 := rfl
@[simp] theorem State.safetyCheck_slots (s : State) (exp : Word) : (s.safetyCheck exp).slots = s.slots := rfl
@[simp] theorem State.safetyCheck_runHead (s : State) (exp : Word) : (s.safetyCheck exp).runHead = s.runHead := rfl
@[simp] theorem State.safetyCheck_expHead (s : State) (exp : Word) : (s.safetyCheck exp).expHead = s.expHead := rfl
@[simp] theorem State.safetyCheck_expTail (s : State) (exp : Word) : (s.safetyCheck exp).expTail = s.expTail := rfl
@[simp] theorem State.safetyCheck_runCount (s : State) (exp : Word) : (s.safetyCheck exp).runCount = s.runCount := rfl
@[simp] theorem State.safetyCheck_expiredFlag (s : State) (exp : Word) : (s.safetyCheck exp).expiredFlag = (s.expiredFlag || s.isDue exp) := rfl
@[simp] theorem State.safetyCheck_ocrAuth (s : State) (exp : Word) : (s.safetyCheck exp).ocrAuth = s.ocrAuth := rfl
@[simp] theorem State.safetyCheck_sysHigh (s : State) (exp : Word) : (s.safetyCheck exp).sysHigh = s.sysHigh := rfl
@[simp] theorem State.safetyCheck_cnt (s : State) (exp : Word) : (s.safetyCheck exp).cnt = s.cnt := rfl
@[simp] theorem State.safetyCheck_ocr (s : State) (exp : Word) : (s.safetyCheck exp).ocr = s.ocr := rfl
@[simp] theorem State.safetyCheck_cmpIe (s : State) (exp : Word) : (s.safetyCheck exp).cmpIe = s.cmpIe := rfl
@[simp] theorem State.safetyCheck_cmpIf (s : State) (exp : Word) : (s.safetyCheck exp).cmpIf = s.cmpIf := rfl
@[simp] theorem State.safetyCheck_ovfIe (s : State) (exp : Word) : (s.safetyCheck exp).ovfIe = s.ovfIe := rfl
@[simp] theorem State.safetyCheck_ovfIf (s : State) (exp : Word) : (s.safetyCheck exp).ovfIf = s.ovfIf := rfl
@[simp] theorem State.safetyCheck_hpCb (s : State) (exp : Word) : (s.safetyCheck exp).hpCb = s.hpCb := rfl
@[simp] theorem State.safetyCheck_hpArg (s : State) (exp : Word) : (s.safetyCheck exp).hpArg = s.hpArg := rfl
@[simp] theorem State.safetyCheck_hpExpiry (s : State) (exp : Word) : (s.safetyCheck exp).hpExpiry = s.hpExpiry := rfl
@[simp] theorem State.safetyCheck_ocrHp (s : State) (exp : Word) : (s.safetyCheck exp).ocrHp = s.ocrHp := rfl
@[simp] theorem State.safetyCheck_hpIe (s : State) (exp : Word) : (s.safetyCheck exp).hpIe = s.hpIe := rfl
@[simp] theorem State.safetyCheck_hpIf (s : State) (exp : Word) : (s.safetyCheck exp).hpIf = s.hpIf := rfl
@[simp] theorem State.safetyCheck_gie (s : State) (exp : Word) : (s.safetyCheck exp).gie = s.gie := rfl
@[simp] theorem State.safetyCheck_ctx (s : State) (exp : Word) : (s.safetyCheck exp).ctx = s.ctx := rfl
@[simp] theorem State.safetyCheck_fault (s : State) (exp : Word) : (s.safetyCheck exp).fault = s.fault := rfl
@[simp] theorem State.safetyCheck_sched (s : State) (exp : Word) : (s.safetyCheck exp).sched = s.sched := rfl
@[simp] theorem State.safetyCheck_host (s : State) (exp : Word) : (s.safetyCheck exp).host = s.host := rfl
@[simp] theorem State.safetyCheck_draws (s : State) (exp : Word) : (s.safetyCheck exp).draws = s.draws := rfl
@[simp] theorem State.safetyCheck_callbacks (s : State) (exp : Word) : (s.safetyCheck exp).callbacks = s.callbacks := rfl
@[simp] theorem State.safetyCheck_hostRead (s : State) (exp : Word) : (s.safetyCheck exp).hostRead = s.hostRead := rfl
@[simp] theorem State.slot?_safetyCheck (s : State) (exp : Word) (j : TimerId) : (s.safetyCheck exp).slot? j = s.slot? j := rfl

/-! ### `writeReply` -/

@[simp] theorem State.writeReply_cfg (s : State) (r : Reply) : (s.writeReply r).cfg = s.cfg := rfl
@[simp] theorem State.writeReply_cmd (s : State) (r : Reply) : (s.writeReply r).cmd = s.cmd := rfl
@[simp] theorem State.writeReply_opTimeout (s : State) (r : Reply) : (s.writeReply r).opTimeout = s.opTimeout := rfl
@[simp] theorem State.writeReply_opCb (s : State) (r : Reply) : (s.writeReply r).opCb = s.opCb := rfl
@[simp] theorem State.writeReply_opArg (s : State) (r : Reply) : (s.writeReply r).opArg = s.opArg := rfl
@[simp] theorem State.writeReply_status (s : State) (r : Reply) : (s.writeReply r).status = r.status.code := rfl
@[simp] theorem State.writeReply_res0 (s : State) (r : Reply) : (s.writeReply r).res0 = r.res0 := rfl
@[simp] theorem State.writeReply_res1 (s : State) (r : Reply) : (s.writeReply r).res1 = r.res1 := rfl
@[simp] theorem State.writeReply_res2 (s : State) (r : Reply) : (s.writeReply r).res2 = r.res2 := rfl
@[simp] theorem State.writeReply_slots (s : State) (r : Reply) : (s.writeReply r).slots = s.slots := rfl
@[simp] theorem State.writeReply_runHead (s : State) (r : Reply) : (s.writeReply r).runHead = s.runHead := rfl
@[simp] theorem State.writeReply_expHead (s : State) (r : Reply) : (s.writeReply r).expHead = s.expHead := rfl
@[simp] theorem State.writeReply_expTail (s : State) (r : Reply) : (s.writeReply r).expTail = s.expTail := rfl
@[simp] theorem State.writeReply_runCount (s : State) (r : Reply) : (s.writeReply r).runCount = s.runCount := rfl
@[simp] theorem State.writeReply_expiredFlag (s : State) (r : Reply) : (s.writeReply r).expiredFlag = s.expiredFlag := rfl
@[simp] theorem State.writeReply_ocrAuth (s : State) (r : Reply) : (s.writeReply r).ocrAuth = s.ocrAuth := rfl
@[simp] theorem State.writeReply_sysHigh (s : State) (r : Reply) : (s.writeReply r).sysHigh = s.sysHigh := rfl
@[simp] theorem State.writeReply_cnt (s : State) (r : Reply) : (s.writeReply r).cnt = s.cnt := rfl
@[simp] theorem State.writeReply_ocr (s : State) (r : Reply) : (s.writeReply r).ocr = s.ocr := rfl
@[simp] theorem State.writeReply_cmpIe (s : State) (r : Reply) : (s.writeReply r).cmpIe = s.cmpIe := rfl
@[simp] theorem State.writeReply_cmpIf (s : State) (r : Reply) : (s.writeReply r).cmpIf = s.cmpIf := rfl
@[simp] theorem State.writeReply_ovfIe (s : State) (r : Reply) : (s.writeReply r).ovfIe = s.ovfIe := rfl
@[simp] theorem State.writeReply_ovfIf (s : State) (r : Reply) : (s.writeReply r).ovfIf = s.ovfIf := rfl
@[simp] theorem State.writeReply_hpCb (s : State) (r : Reply) : (s.writeReply r).hpCb = s.hpCb := rfl
@[simp] theorem State.writeReply_hpArg (s : State) (r : Reply) : (s.writeReply r).hpArg = s.hpArg := rfl
@[simp] theorem State.writeReply_hpExpiry (s : State) (r : Reply) : (s.writeReply r).hpExpiry = s.hpExpiry := rfl
@[simp] theorem State.writeReply_ocrHp (s : State) (r : Reply) : (s.writeReply r).ocrHp = s.ocrHp := rfl
@[simp] theorem State.writeReply_hpIe (s : State) (r : Reply) : (s.writeReply r).hpIe = s.hpIe := rfl
@[simp] theorem State.writeReply_hpIf (s : State) (r : Reply) : (s.writeReply r).hpIf = s.hpIf := rfl
@[simp] theorem State.writeReply_gie (s : State) (r : Reply) : (s.writeReply r).gie = s.gie := rfl
@[simp] theorem State.writeReply_ctx (s : State) (r : Reply) : (s.writeReply r).ctx = s.ctx := rfl
@[simp] theorem State.writeReply_fault (s : State) (r : Reply) : (s.writeReply r).fault = s.fault := rfl
@[simp] theorem State.writeReply_sched (s : State) (r : Reply) : (s.writeReply r).sched = s.sched := rfl
@[simp] theorem State.writeReply_host (s : State) (r : Reply) : (s.writeReply r).host = s.host := rfl
@[simp] theorem State.writeReply_draws (s : State) (r : Reply) : (s.writeReply r).draws = s.draws := rfl
@[simp] theorem State.writeReply_callbacks (s : State) (r : Reply) : (s.writeReply r).callbacks = s.callbacks := rfl
@[simp] theorem State.writeReply_hostRead (s : State) (r : Reply) : (s.writeReply r).hostRead = s.hostRead := rfl
@[simp] theorem State.slot?_writeReply (s : State) (r : Reply) (j : TimerId) : (s.writeReply r).slot? j = s.slot? j := rfl

/-! ### `illegalCommand` -/

@[simp] theorem State.illegalCommand_cfg (s : State) : (s.illegalCommand).cfg = s.cfg := rfl
@[simp] theorem State.illegalCommand_cmd (s : State) : (s.illegalCommand).cmd = s.cmd := rfl
@[simp] theorem State.illegalCommand_opTimeout (s : State) : (s.illegalCommand).opTimeout = s.opTimeout := rfl
@[simp] theorem State.illegalCommand_opCb (s : State) : (s.illegalCommand).opCb = s.opCb := rfl
@[simp] theorem State.illegalCommand_opArg (s : State) : (s.illegalCommand).opArg = s.opArg := rfl
@[simp] theorem State.illegalCommand_status (s : State) : (s.illegalCommand).status = 0xFF := rfl
@[simp] theorem State.illegalCommand_res0 (s : State) : (s.illegalCommand).res0 = 0 := rfl
@[simp] theorem State.illegalCommand_res1 (s : State) : (s.illegalCommand).res1 = 0 := rfl
@[simp] theorem State.illegalCommand_res2 (s : State) : (s.illegalCommand).res2 = 0 := rfl
@[simp] theorem State.illegalCommand_slots (s : State) : (s.illegalCommand).slots = s.slots := rfl
@[simp] theorem State.illegalCommand_runHead (s : State) : (s.illegalCommand).runHead = s.runHead := rfl
@[simp] theorem State.illegalCommand_expHead (s : State) : (s.illegalCommand).expHead = s.expHead := rfl
@[simp] theorem State.illegalCommand_expTail (s : State) : (s.illegalCommand).expTail = s.expTail := rfl
@[simp] theorem State.illegalCommand_runCount (s : State) : (s.illegalCommand).runCount = s.runCount := rfl
@[simp] theorem State.illegalCommand_expiredFlag (s : State) : (s.illegalCommand).expiredFlag = s.expiredFlag := rfl
@[simp] theorem State.illegalCommand_ocrAuth (s : State) : (s.illegalCommand).ocrAuth = s.ocrAuth := rfl
@[simp] theorem State.illegalCommand_sysHigh (s : State) : (s.illegalCommand).sysHigh = s.sysHigh := rfl
@[simp] theorem State.illegalCommand_cnt (s : State) : (s.illegalCommand).cnt = s.cnt := rfl
@[simp] theorem State.illegalCommand_ocr (s : State) : (s.illegalCommand).ocr = s.ocr := rfl
@[simp] theorem State.illegalCommand_cmpIe (s : State) : (s.illegalCommand).cmpIe = s.cmpIe := rfl
@[simp] theorem State.illegalCommand_cmpIf (s : State) : (s.illegalCommand).cmpIf = s.cmpIf := rfl
@[simp] theorem State.illegalCommand_ovfIe (s : State) : (s.illegalCommand).ovfIe = s.ovfIe := rfl
@[simp] theorem State.illegalCommand_ovfIf (s : State) : (s.illegalCommand).ovfIf = s.ovfIf := rfl
@[simp] theorem State.illegalCommand_hpCb (s : State) : (s.illegalCommand).hpCb = s.hpCb := rfl
@[simp] theorem State.illegalCommand_hpArg (s : State) : (s.illegalCommand).hpArg = s.hpArg := rfl
@[simp] theorem State.illegalCommand_hpExpiry (s : State) : (s.illegalCommand).hpExpiry = s.hpExpiry := rfl
@[simp] theorem State.illegalCommand_ocrHp (s : State) : (s.illegalCommand).ocrHp = s.ocrHp := rfl
@[simp] theorem State.illegalCommand_hpIe (s : State) : (s.illegalCommand).hpIe = s.hpIe := rfl
@[simp] theorem State.illegalCommand_hpIf (s : State) : (s.illegalCommand).hpIf = s.hpIf := rfl
@[simp] theorem State.illegalCommand_gie (s : State) : (s.illegalCommand).gie = s.gie := rfl
@[simp] theorem State.illegalCommand_ctx (s : State) : (s.illegalCommand).ctx = s.ctx := rfl
@[simp] theorem State.illegalCommand_fault (s : State) : (s.illegalCommand).fault = s.fault := rfl
@[simp] theorem State.illegalCommand_sched (s : State) : (s.illegalCommand).sched = s.sched := rfl
@[simp] theorem State.illegalCommand_host (s : State) : (s.illegalCommand).host = s.host := rfl
@[simp] theorem State.illegalCommand_draws (s : State) : (s.illegalCommand).draws = s.draws := rfl
@[simp] theorem State.illegalCommand_callbacks (s : State) : (s.illegalCommand).callbacks = s.callbacks := rfl
@[simp] theorem State.illegalCommand_hostRead (s : State) : (s.illegalCommand).hostRead = s.hostRead := rfl
@[simp] theorem State.slot?_illegalCommand (s : State) (j : TimerId) : (s.illegalCommand).slot? j = s.slot? j := rfl

/-! ### `interruptEntry` -/

@[simp] theorem State.interruptEntry_cfg (s : State) : (s.interruptEntry).cfg = s.cfg := rfl
@[simp] theorem State.interruptEntry_cmd (s : State) : (s.interruptEntry).cmd = s.cmd := rfl
@[simp] theorem State.interruptEntry_opTimeout (s : State) : (s.interruptEntry).opTimeout = s.opTimeout := rfl
@[simp] theorem State.interruptEntry_opCb (s : State) : (s.interruptEntry).opCb = s.opCb := rfl
@[simp] theorem State.interruptEntry_opArg (s : State) : (s.interruptEntry).opArg = s.opArg := rfl
@[simp] theorem State.interruptEntry_status (s : State) : (s.interruptEntry).status = s.status := rfl
@[simp] theorem State.interruptEntry_res0 (s : State) : (s.interruptEntry).res0 = s.res0 := rfl
@[simp] theorem State.interruptEntry_res1 (s : State) : (s.interruptEntry).res1 = s.res1 := rfl
@[simp] theorem State.interruptEntry_res2 (s : State) : (s.interruptEntry).res2 = s.res2 := rfl
@[simp] theorem State.interruptEntry_slots (s : State) : (s.interruptEntry).slots = s.slots := rfl
@[simp] theorem State.interruptEntry_runHead (s : State) : (s.interruptEntry).runHead = s.runHead := rfl
@[simp] theorem State.interruptEntry_expHead (s : State) : (s.interruptEntry).expHead = s.expHead := rfl
@[simp] theorem State.interruptEntry_expTail (s : State) : (s.interruptEntry).expTail = s.expTail := rfl
@[simp] theorem State.interruptEntry_runCount (s : State) : (s.interruptEntry).runCount = s.runCount := rfl
@[simp] theorem State.interruptEntry_expiredFlag (s : State) : (s.interruptEntry).expiredFlag = s.expiredFlag := rfl
@[simp] theorem State.interruptEntry_ocrAuth (s : State) : (s.interruptEntry).ocrAuth = s.ocrAuth := rfl
@[simp] theorem State.interruptEntry_sysHigh (s : State) : (s.interruptEntry).sysHigh = s.sysHigh := rfl
@[simp] theorem State.interruptEntry_cnt (s : State) : (s.interruptEntry).cnt = s.cnt := rfl
@[simp] theorem State.interruptEntry_ocr (s : State) : (s.interruptEntry).ocr = s.ocr := rfl
@[simp] theorem State.interruptEntry_cmpIe (s : State) : (s.interruptEntry).cmpIe = s.cmpIe := rfl
@[simp] theorem State.interruptEntry_cmpIf (s : State) : (s.interruptEntry).cmpIf = s.cmpIf := rfl
@[simp] theorem State.interruptEntry_ovfIe (s : State) : (s.interruptEntry).ovfIe = s.ovfIe := rfl
@[simp] theorem State.interruptEntry_ovfIf (s : State) : (s.interruptEntry).ovfIf = s.ovfIf := rfl
@[simp] theorem State.interruptEntry_hpCb (s : State) : (s.interruptEntry).hpCb = s.hpCb := rfl
@[simp] theorem State.interruptEntry_hpArg (s : State) : (s.interruptEntry).hpArg = s.hpArg := rfl
@[simp] theorem State.interruptEntry_hpExpiry (s : State) : (s.interruptEntry).hpExpiry = s.hpExpiry := rfl
@[simp] theorem State.interruptEntry_ocrHp (s : State) : (s.interruptEntry).ocrHp = s.ocrHp := rfl
@[simp] theorem State.interruptEntry_hpIe (s : State) : (s.interruptEntry).hpIe = s.hpIe := rfl
@[simp] theorem State.interruptEntry_hpIf (s : State) : (s.interruptEntry).hpIf = s.hpIf := rfl
@[simp] theorem State.interruptEntry_gie (s : State) : (s.interruptEntry).gie = false := rfl
@[simp] theorem State.interruptEntry_ctx (s : State) : (s.interruptEntry).ctx = .irq := rfl
@[simp] theorem State.interruptEntry_fault (s : State) : (s.interruptEntry).fault = s.fault := rfl
@[simp] theorem State.interruptEntry_sched (s : State) : (s.interruptEntry).sched = s.sched := rfl
@[simp] theorem State.interruptEntry_host (s : State) : (s.interruptEntry).host = s.host := rfl
@[simp] theorem State.interruptEntry_draws (s : State) : (s.interruptEntry).draws = s.draws := rfl
@[simp] theorem State.interruptEntry_callbacks (s : State) : (s.interruptEntry).callbacks = s.callbacks := rfl
@[simp] theorem State.interruptEntry_hostRead (s : State) : (s.interruptEntry).hostRead = s.hostRead := rfl
@[simp] theorem State.slot?_interruptEntry (s : State) (j : TimerId) : (s.interruptEntry).slot? j = s.slot? j := rfl

/-! ### `interruptReturn` -/

@[simp] theorem State.interruptReturn_cfg (s : State) : (s.interruptReturn).cfg = s.cfg := rfl
@[simp] theorem State.interruptReturn_cmd (s : State) : (s.interruptReturn).cmd = s.cmd := rfl
@[simp] theorem State.interruptReturn_opTimeout (s : State) : (s.interruptReturn).opTimeout = s.opTimeout := rfl
@[simp] theorem State.interruptReturn_opCb (s : State) : (s.interruptReturn).opCb = s.opCb := rfl
@[simp] theorem State.interruptReturn_opArg (s : State) : (s.interruptReturn).opArg = s.opArg := rfl
@[simp] theorem State.interruptReturn_status (s : State) : (s.interruptReturn).status = s.status := rfl
@[simp] theorem State.interruptReturn_res0 (s : State) : (s.interruptReturn).res0 = s.res0 := rfl
@[simp] theorem State.interruptReturn_res1 (s : State) : (s.interruptReturn).res1 = s.res1 := rfl
@[simp] theorem State.interruptReturn_res2 (s : State) : (s.interruptReturn).res2 = s.res2 := rfl
@[simp] theorem State.interruptReturn_slots (s : State) : (s.interruptReturn).slots = s.slots := rfl
@[simp] theorem State.interruptReturn_runHead (s : State) : (s.interruptReturn).runHead = s.runHead := rfl
@[simp] theorem State.interruptReturn_expHead (s : State) : (s.interruptReturn).expHead = s.expHead := rfl
@[simp] theorem State.interruptReturn_expTail (s : State) : (s.interruptReturn).expTail = s.expTail := rfl
@[simp] theorem State.interruptReturn_runCount (s : State) : (s.interruptReturn).runCount = s.runCount := rfl
@[simp] theorem State.interruptReturn_expiredFlag (s : State) : (s.interruptReturn).expiredFlag = s.expiredFlag := rfl
@[simp] theorem State.interruptReturn_ocrAuth (s : State) : (s.interruptReturn).ocrAuth = s.ocrAuth := rfl
@[simp] theorem State.interruptReturn_sysHigh (s : State) : (s.interruptReturn).sysHigh = s.sysHigh := rfl
@[simp] theorem State.interruptReturn_cnt (s : State) : (s.interruptReturn).cnt = s.cnt := rfl
@[simp] theorem State.interruptReturn_ocr (s : State) : (s.interruptReturn).ocr = s.ocr := rfl
@[simp] theorem State.interruptReturn_cmpIe (s : State) : (s.interruptReturn).cmpIe = s.cmpIe := rfl
@[simp] theorem State.interruptReturn_cmpIf (s : State) : (s.interruptReturn).cmpIf = s.cmpIf := rfl
@[simp] theorem State.interruptReturn_ovfIe (s : State) : (s.interruptReturn).ovfIe = s.ovfIe := rfl
@[simp] theorem State.interruptReturn_ovfIf (s : State) : (s.interruptReturn).ovfIf = s.ovfIf := rfl
@[simp] theorem State.interruptReturn_hpCb (s : State) : (s.interruptReturn).hpCb = s.hpCb := rfl
@[simp] theorem State.interruptReturn_hpArg (s : State) : (s.interruptReturn).hpArg = s.hpArg := rfl
@[simp] theorem State.interruptReturn_hpExpiry (s : State) : (s.interruptReturn).hpExpiry = s.hpExpiry := rfl
@[simp] theorem State.interruptReturn_ocrHp (s : State) : (s.interruptReturn).ocrHp = s.ocrHp := rfl
@[simp] theorem State.interruptReturn_hpIe (s : State) : (s.interruptReturn).hpIe = s.hpIe := rfl
@[simp] theorem State.interruptReturn_hpIf (s : State) : (s.interruptReturn).hpIf = s.hpIf := rfl
@[simp] theorem State.interruptReturn_gie (s : State) : (s.interruptReturn).gie = true := rfl
@[simp] theorem State.interruptReturn_ctx (s : State) : (s.interruptReturn).ctx = .main := rfl
@[simp] theorem State.interruptReturn_fault (s : State) : (s.interruptReturn).fault = s.fault := rfl
@[simp] theorem State.interruptReturn_sched (s : State) : (s.interruptReturn).sched = s.sched := rfl
@[simp] theorem State.interruptReturn_host (s : State) : (s.interruptReturn).host = s.host := rfl
@[simp] theorem State.interruptReturn_draws (s : State) : (s.interruptReturn).draws = s.draws := rfl
@[simp] theorem State.interruptReturn_callbacks (s : State) : (s.interruptReturn).callbacks = s.callbacks := rfl
@[simp] theorem State.interruptReturn_hostRead (s : State) : (s.interruptReturn).hostRead = s.hostRead := rfl
@[simp] theorem State.slot?_interruptReturn (s : State) (j : TimerId) : (s.interruptReturn).slot? j = s.slot? j := rfl

/-! ### `pushHost` -/

@[simp] theorem State.pushHost_cfg (s : State) (ms : List HostMove) : (s.pushHost ms).cfg = s.cfg := rfl
@[simp] theorem State.pushHost_cmd (s : State) (ms : List HostMove) : (s.pushHost ms).cmd = s.cmd := rfl
@[simp] theorem State.pushHost_opTimeout (s : State) (ms : List HostMove) : (s.pushHost ms).opTimeout = s.opTimeout := rfl
@[simp] theorem State.pushHost_opCb (s : State) (ms : List HostMove) : (s.pushHost ms).opCb = s.opCb := rfl
@[simp] theorem State.pushHost_opArg (s : State) (ms : List HostMove) : (s.pushHost ms).opArg = s.opArg := rfl
@[simp] theorem State.pushHost_status (s : State) (ms : List HostMove) : (s.pushHost ms).status = s.status := rfl
@[simp] theorem State.pushHost_res0 (s : State) (ms : List HostMove) : (s.pushHost ms).res0 = s.res0 := rfl
@[simp] theorem State.pushHost_res1 (s : State) (ms : List HostMove) : (s.pushHost ms).res1 = s.res1 := rfl
@[simp] theorem State.pushHost_res2 (s : State) (ms : List HostMove) : (s.pushHost ms).res2 = s.res2 := rfl
@[simp] theorem State.pushHost_slots (s : State) (ms : List HostMove) : (s.pushHost ms).slots = s.slots := rfl
@[simp] theorem State.pushHost_runHead (s : State) (ms : List HostMove) : (s.pushHost ms).runHead = s.runHead := rfl
@[simp] theorem State.pushHost_expHead (s : State) (ms : List HostMove) : (s.pushHost ms).expHead = s.expHead := rfl
@[simp] theorem State.pushHost_expTail (s : State) (ms : List HostMove) : (s.pushHost ms).expTail = s.expTail := rfl
@[simp] theorem State.pushHost_runCount (s : State) (ms : List HostMove) : (s.pushHost ms).runCount = s.runCount := rfl
@[simp] theorem State.pushHost_expiredFlag (s : State) (ms : List HostMove) : (s.pushHost ms).expiredFlag = s.expiredFlag := rfl
@[simp] theorem State.pushHost_ocrAuth (s : State) (ms : List HostMove) : (s.pushHost ms).ocrAuth = s.ocrAuth := rfl
@[simp] theorem State.pushHost_sysHigh (s : State) (ms : List HostMove) : (s.pushHost ms).sysHigh = s.sysHigh := rfl
@[simp] theorem State.pushHost_cnt (s : State) (ms : List HostMove) : (s.pushHost ms).cnt = s.cnt := rfl
@[simp] theorem State.pushHost_ocr (s : State) (ms : List HostMove) : (s.pushHost ms).ocr = s.ocr := rfl
@[simp] theorem State.pushHost_cmpIe (s : State) (ms : List HostMove) : (s.pushHost ms).cmpIe = s.cmpIe := rfl
@[simp] theorem State.pushHost_cmpIf (s : State) (ms : List HostMove) : (s.pushHost ms).cmpIf = s.cmpIf := rfl
@[simp] theorem State.pushHost_ovfIe (s : State) (ms : List HostMove) : (s.pushHost ms).ovfIe = s.ovfIe := rfl
@[simp] theorem State.pushHost_ovfIf (s : State) (ms : List HostMove) : (s.pushHost ms).ovfIf = s.ovfIf := rfl
@[simp] theorem State.pushHost_hpCb (s : State) (ms : List HostMove) : (s.pushHost ms).hpCb = s.hpCb := rfl
@[simp] theorem State.pushHost_hpArg (s : State) (ms : List HostMove) : (s.pushHost ms).hpArg = s.hpArg := rfl
@[simp] theorem State.pushHost_hpExpiry (s : State) (ms : List HostMove) : (s.pushHost ms).hpExpiry = s.hpExpiry := rfl
@[simp] theorem State.pushHost_ocrHp (s : State) (ms : List HostMove) : (s.pushHost ms).ocrHp = s.ocrHp := rfl
@[simp] theorem State.pushHost_hpIe (s : State) (ms : List HostMove) : (s.pushHost ms).hpIe = s.hpIe := rfl
@[simp] theorem State.pushHost_hpIf (s : State) (ms : List HostMove) : (s.pushHost ms).hpIf = s.hpIf := rfl
@[simp] theorem State.pushHost_gie (s : State) (ms : List HostMove) : (s.pushHost ms).gie = s.gie := rfl
@[simp] theorem State.pushHost_ctx (s : State) (ms : List HostMove) : (s.pushHost ms).ctx = s.ctx := rfl
@[simp] theorem State.pushHost_fault (s : State) (ms : List HostMove) : (s.pushHost ms).fault = s.fault := rfl
@[simp] theorem State.pushHost_sched (s : State) (ms : List HostMove) : (s.pushHost ms).sched = s.sched := rfl
@[simp] theorem State.pushHost_host (s : State) (ms : List HostMove) : (s.pushHost ms).host = ms ++ s.host := rfl
@[simp] theorem State.pushHost_draws (s : State) (ms : List HostMove) : (s.pushHost ms).draws = s.draws := rfl
@[simp] theorem State.pushHost_callbacks (s : State) (ms : List HostMove) : (s.pushHost ms).callbacks = s.callbacks := rfl
@[simp] theorem State.pushHost_hostRead (s : State) (ms : List HostMove) : (s.pushHost ms).hostRead = s.hostRead := rfl
@[simp] theorem State.slot?_pushHost (s : State) (ms : List HostMove) (j : TimerId) : (s.pushHost ms).slot? j = s.slot? j := rfl

/-! ### `setRunHead` -/

@[simp] theorem State.setRunHead_cfg (s : State) (id : TimerId) : (s.setRunHead id).cfg = s.cfg := rfl
@[simp] theorem State.setRunHead_cmd (s : State) (id : TimerId) : (s.setRunHead id).cmd = s.cmd := rfl
@[simp] theorem State.setRunHead_opTimeout (s : State) (id : TimerId) : (s.setRunHead id).opTimeout = s.opTimeout := rfl
@[simp] theorem State.setRunHead_opCb (s : State) (id : TimerId) : (s.setRunHead id).opCb = s.opCb := rfl
@[simp] theorem State.setRunHead_opArg (s : State) (id : TimerId) : (s.setRunHead id).opArg = s.opArg := rfl
@[simp] theorem State.setRunHead_status (s : State) (id : TimerId) : (s.setRunHead id).status = s.status := rfl
@[simp] theorem State.setRunHead_res0 (s : State) (id : TimerId) : (s.setRunHead id).res0 = s.res0 := rfl
@[simp] theorem State.setRunHead_res1 (s : State) (id : TimerId) : (s.setRunHead id).res1 = s.res1 := rfl
@[simp] theorem State.setRunHead_res2 (s : State) (id : TimerId) : (s.setRunHead id).res2 = s.res2 := rfl
@[simp] theorem State.setRunHead_slots (s : State) (id : TimerId) : (s.setRunHead id).slots = s.slots := rfl
@[simp] theorem State.setRunHead_runHead (s : State) (id : TimerId) : (s.setRunHead id).runHead = id := rfl
@[simp] theorem State.setRunHead_expHead (s : State) (id : TimerId) : (s.setRunHead id).expHead = s.expHead := rfl
@[simp] theorem State.setRunHead_expTail (s : State) (id : TimerId) : (s.setRunHead id).expTail = s.expTail := rfl
@[simp] theorem State.setRunHead_runCount (s : State) (id : TimerId) : (s.setRunHead id).runCount = s.runCount := rfl
@[simp] theorem State.setRunHead_expiredFlag (s : State) (id : TimerId) : (s.setRunHead id).expiredFlag = s.expiredFlag := rfl
@[simp] theorem State.setRunHead_ocrAuth (s : State) (id : TimerId) : (s.setRunHead id).ocrAuth = s.ocrAuth := rfl
@[simp] theorem State.setRunHead_sysHigh (s : State) (id : TimerId) : (s.setRunHead id).sysHigh = s.sysHigh := rfl
@[simp] theorem State.setRunHead_cnt (s : State) (id : TimerId) : (s.setRunHead id).cnt = s.cnt := rfl
@[simp] theorem State.setRunHead_ocr (s : State) (id : TimerId) : (s.setRunHead id).ocr = s.ocr := rfl
@[simp] theorem State.setRunHead_cmpIe (s : State) (id : TimerId) : (s.setRunHead id).cmpIe = s.cmpIe := rfl
@[simp] theorem State.setRunHead_cmpIf (s : State) (id : TimerId) : (s.setRunHead id).cmpIf = s.cmpIf := rfl
@[simp] theorem State.setRunHead_ovfIe (s : State) (id : TimerId) : (s.setRunHead id).ovfIe = s.ovfIe := rfl
@[simp] theorem State.setRunHead_ovfIf (s : State) (id : TimerId) : (s.setRunHead id).ovfIf = s.ovfIf := rfl
@[simp] theorem State.setRunHead_hpCb (s : State) (id : TimerId) : (s.setRunHead id).hpCb = s.hpCb := rfl
@[simp] theorem State.setRunHead_hpArg (s : State) (id : TimerId) : (s.setRunHead id).hpArg = s.hpArg := rfl
@[simp] theorem State.setRunHead_hpExpiry (s : State) (id : TimerId) : (s.setRunHead id).hpExpiry = s.hpExpiry := rfl
@[simp] theorem State.setRunHead_ocrHp (s : State) (id : TimerId) : (s.setRunHead id).ocrHp = s.ocrHp := rfl
@[simp] theorem State.setRunHead_hpIe (s : State) (id : TimerId) : (s.setRunHead id).hpIe = s.hpIe := rfl
@[simp] theorem State.setRunHead_hpIf (s : State) (id : TimerId) : (s.setRunHead id).hpIf = s.hpIf := rfl
@[simp] theorem State.setRunHead_gie (s : State) (id : TimerId) : (s.setRunHead id).gie = s.gie := rfl
@[simp] theorem State.setRunHead_ctx (s : State) (id : TimerId) : (s.setRunHead id).ctx = s.ctx := rfl
@[simp] theorem State.setRunHead_fault (s : State) (id : TimerId) : (s.setRunHead id).fault = s.fault := rfl
@[simp] theorem State.setRunHead_sched (s : State) (id : TimerId) : (s.setRunHead id).sched = s.sched := rfl
@[simp] theorem State.setRunHead_host (s : State) (id : TimerId) : (s.setRunHead id).host = s.host := rfl
@[simp] theorem State.setRunHead_draws (s : State) (id : TimerId) : (s.setRunHead id).draws = s.draws := rfl
@[simp] theorem State.setRunHead_callbacks (s : State) (id : TimerId) : (s.setRunHead id).callbacks = s.callbacks := rfl
@[simp] theorem State.setRunHead_hostRead (s : State) (id : TimerId) : (s.setRunHead id).hostRead = s.hostRead := rfl
@[simp] theorem State.slot?_setRunHead (s : State) (id : TimerId) (j : TimerId) : (s.setRunHead id).slot? j = s.slot? j := rfl

/-! ### `setExpHead` -/

@[simp] theorem State.setExpHead_cfg (s : State) (id : TimerId) : (s.setExpHead id).cfg = s.cfg := rfl
@[simp] theorem State.setExpHead_cmd (s : State) (id : TimerId) : (s.setExpHead id).cmd = s.cmd := rfl
@[simp] theorem State.setExpHead_opTimeout (s : State) (id : TimerId) : (s.setExpHead id).opTimeout = s.opTimeout := rfl
@[simp] theorem State.setExpHead_opCb (s : State) (id : TimerId) : (s.setExpHead id).opCb = s.opCb := rfl
@[simp] theorem State.setExpHead_opArg (s : State) (id : TimerId) : (s.setExpHead id).opArg = s.opArg := rfl
@[simp] theorem State.setExpHead_status (s : State) (id : TimerId) : (s.setExpHead id).status = s.status := rfl
@[simp] theorem State.setExpHead_res0 (s : State) (id : TimerId) : (s.setExpHead id).res0 = s.res0 := rfl
@[simp] theorem State.setExpHead_res1 (s : State) (id : TimerId) : (s.setExpHead id).res1 = s.res1 := rfl
@[simp] theorem State.setExpHead_res2 (s : State) (id : TimerId) : (s.setExpHead id).res2 = s.res2 := rfl
@[simp] theorem State.setExpHead_slots (s : State) (id : TimerId) : (s.setExpHead id).slots = s.slots := rfl
@[simp] theorem State.setExpHead_runHead (s : State) (id : TimerId) : (s.setExpHead id).runHead = s.runHead := rfl
@[simp] theorem State.setExpHead_expHead (s : State) (id : TimerId) : (s.setExpHead id).expHead = id := rfl
@[simp] theorem State.setExpHead_expTail (s : State) (id : TimerId) : (s.setExpHead id).expTail = s.expTail := rfl
@[simp] theorem State.setExpHead_runCount (s : State) (id : TimerId) : (s.setExpHead id).runCount = s.runCount := rfl
@[simp] theorem State.setExpHead_expiredFlag (s : State) (id : TimerId) : (s.setExpHead id).expiredFlag = s.expiredFlag := rfl
@[simp] theorem State.setExpHead_ocrAuth (s : State) (id : TimerId) : (s.setExpHead id).ocrAuth = s.ocrAuth := rfl
@[simp] theorem State.setExpHead_sysHigh (s : State) (id : TimerId) : (s.setExpHead id).sysHigh = s.sysHigh := rfl
@[simp] theorem State.setExpHead_cnt (s : State) (id : TimerId) : (s.setExpHead id).cnt = s.cnt := rfl
@[simp] theorem State.setExpHead_ocr (s : State) (id : TimerId) : (s.setExpHead id).ocr = s.ocr := rfl
@[simp] theorem State.setExpHead_cmpIe (s : State) (id : TimerId) : (s.setExpHead id).cmpIe = s.cmpIe := rfl
@[simp] theorem State.setExpHead_cmpIf (s : State) (id : TimerId) : (s.setExpHead id).cmpIf = s.cmpIf := rfl
@[simp] theorem State.setExpHead_ovfIe (s : State) (id : TimerId) : (s.setExpHead id).ovfIe = s.ovfIe := rfl
@[simp] theorem State.setExpHead_ovfIf (s : State) (id : TimerId) : (s.setExpHead id).ovfIf = s.ovfIf := rfl
@[simp] theorem State.setExpHead_hpCb (s : State) (id : TimerId) : (s.setExpHead id).hpCb = s.hpCb := rfl
@[simp] theorem State.setExpHead_hpArg (s : State) (id : TimerId) : (s.setExpHead id).hpArg = s.hpArg := rfl
@[simp] theorem State.setExpHead_hpExpiry (s : State) (id : TimerId) : (s.setExpHead id).hpExpiry = s.hpExpiry := rfl
@[simp] theorem State.setExpHead_ocrHp (s : State) (id : TimerId) : (s.setExpHead id).ocrHp = s.ocrHp := rfl
@[simp] theorem State.setExpHead_hpIe (s : State) (id : TimerId) : (s.setExpHead id).hpIe = s.hpIe := rfl
@[simp] theorem State.setExpHead_hpIf (s : State) (id : TimerId) : (s.setExpHead id).hpIf = s.hpIf := rfl
@[simp] theorem State.setExpHead_gie (s : State) (id : TimerId) : (s.setExpHead id).gie = s.gie := rfl
@[simp] theorem State.setExpHead_ctx (s : State) (id : TimerId) : (s.setExpHead id).ctx = s.ctx := rfl
@[simp] theorem State.setExpHead_fault (s : State) (id : TimerId) : (s.setExpHead id).fault = s.fault := rfl
@[simp] theorem State.setExpHead_sched (s : State) (id : TimerId) : (s.setExpHead id).sched = s.sched := rfl
@[simp] theorem State.setExpHead_host (s : State) (id : TimerId) : (s.setExpHead id).host = s.host := rfl
@[simp] theorem State.setExpHead_draws (s : State) (id : TimerId) : (s.setExpHead id).draws = s.draws := rfl
@[simp] theorem State.setExpHead_callbacks (s : State) (id : TimerId) : (s.setExpHead id).callbacks = s.callbacks := rfl
@[simp] theorem State.setExpHead_hostRead (s : State) (id : TimerId) : (s.setExpHead id).hostRead = s.hostRead := rfl
@[simp] theorem State.slot?_setExpHead (s : State) (id : TimerId) (j : TimerId) : (s.setExpHead id).slot? j = s.slot? j := rfl

/-! ### `setExpTail` -/

@[simp] theorem State.setExpTail_cfg (s : State) (id : TimerId) : (s.setExpTail id).cfg = s.cfg := rfl
@[simp] theorem State.setExpTail_cmd (s : State) (id : TimerId) : (s.setExpTail id).cmd = s.cmd := rfl
@[simp] theorem State.setExpTail_opTimeout (s : State) (id : TimerId) : (s.setExpTail id).opTimeout = s.opTimeout := rfl
@[simp] theorem State.setExpTail_opCb (s : State) (id : TimerId) : (s.setExpTail id).opCb = s.opCb := rfl
@[simp] theorem State.setExpTail_opArg (s : State) (id : TimerId) : (s.setExpTail id).opArg = s.opArg := rfl
@[simp] theorem State.setExpTail_status (s : State) (id : TimerId) : (s.setExpTail id).status = s.status := rfl
@[simp] theorem State.setExpTail_res0 (s : State) (id : TimerId) : (s.setExpTail id).res0 = s.res0 := rfl
@[simp] theorem State.setExpTail_res1 (s : State) (id : TimerId) : (s.setExpTail id).res1 = s.res1 := rfl
@[simp] theorem State.setExpTail_res2 (s : State) (id : TimerId) : (s.setExpTail id).res2 = s.res2 := rfl
@[simp] theorem State.setExpTail_slots (s : State) (id : TimerId) : (s.setExpTail id).slots = s.slots := rfl
@[simp] theorem State.setExpTail_runHead (s : State) (id : TimerId) : (s.setExpTail id).runHead = s.runHead := rfl
@[simp] theorem State.setExpTail_expHead (s : State) (id : TimerId) : (s.setExpTail id).expHead = s.expHead := rfl
@[simp] theorem State.setExpTail_expTail (s : State) (id : TimerId) : (s.setExpTail id).expTail = id := rfl
@[simp] theorem State.setExpTail_runCount (s : State) (id : TimerId) : (s.setExpTail id).runCount = s.runCount := rfl
@[simp] theorem State.setExpTail_expiredFlag (s : State) (id : TimerId) : (s.setExpTail id).expiredFlag = s.expiredFlag := rfl
@[simp] theorem State.setExpTail_ocrAuth (s : State) (id : TimerId) : (s.setExpTail id).ocrAuth = s.ocrAuth := rfl
@[simp] theorem State.setExpTail_sysHigh (s : State) (id : TimerId) : (s.setExpTail id).sysHigh = s.sysHigh := rfl
@[simp] theorem State.setExpTail_cnt (s : State) (id : TimerId) : (s.setExpTail id).cnt = s.cnt := rfl
@[simp] theorem State.setExpTail_ocr (s : State) (id : TimerId) : (s.setExpTail id).ocr = s.ocr := rfl
@[simp] theorem State.setExpTail_cmpIe (s : State) (id : TimerId) : (s.setExpTail id).cmpIe = s.cmpIe := rfl
@[simp] theorem State.setExpTail_cmpIf (s : State) (id : TimerId) : (s.setExpTail id).cmpIf = s.cmpIf := rfl
@[simp] theorem State.setExpTail_ovfIe (s : State) (id : TimerId) : (s.setExpTail id).ovfIe = s.ovfIe := rfl
@[simp] theorem State.setExpTail_ovfIf (s : State) (id : TimerId) : (s.setExpTail id).ovfIf = s.ovfIf := rfl
@[simp] theorem State.setExpTail_hpCb (s : State) (id : TimerId) : (s.setExpTail id).hpCb = s.hpCb := rfl
@[simp] theorem State.setExpTail_hpArg (s : State) (id : TimerId) : (s.setExpTail id).hpArg = s.hpArg := rfl
@[simp] theorem State.setExpTail_hpExpiry (s : State) (id : TimerId) : (s.setExpTail id).hpExpiry = s.hpExpiry := rfl
@[simp] theorem State.setExpTail_ocrHp (s : State) (id : TimerId) : (s.setExpTail id).ocrHp = s.ocrHp := rfl
@[simp] theorem State.setExpTail_hpIe (s : State) (id : TimerId) : (s.setExpTail id).hpIe = s.hpIe := rfl
@[simp] theorem State.setExpTail_hpIf (s : State) (id : TimerId) : (s.setExpTail id).hpIf = s.hpIf := rfl
@[simp] theorem State.setExpTail_gie (s : State) (id : TimerId) : (s.setExpTail id).gie = s.gie := rfl
@[simp] theorem State.setExpTail_ctx (s : State) (id : TimerId) : (s.setExpTail id).ctx = s.ctx := rfl
@[simp] theorem State.setExpTail_fault (s : State) (id : TimerId) : (s.setExpTail id).fault = s.fault := rfl
@[simp] theorem State.setExpTail_sched (s : State) (id : TimerId) : (s.setExpTail id).sched = s.sched := rfl
@[simp] theorem State.setExpTail_host (s : State) (id : TimerId) : (s.setExpTail id).host = s.host := rfl
@[simp] theorem State.setExpTail_draws (s : State) (id : TimerId) : (s.setExpTail id).draws = s.draws := rfl
@[simp] theorem State.setExpTail_callbacks (s : State) (id : TimerId) : (s.setExpTail id).callbacks = s.callbacks := rfl
@[simp] theorem State.setExpTail_hostRead (s : State) (id : TimerId) : (s.setExpTail id).hostRead = s.hostRead := rfl
@[simp] theorem State.slot?_setExpTail (s : State) (id : TimerId) (j : TimerId) : (s.setExpTail id).slot? j = s.slot? j := rfl

/-! ### `incRunCount` -/

@[simp] theorem State.incRunCount_cfg (s : State) : (s.incRunCount).cfg = s.cfg := rfl
@[simp] theorem State.incRunCount_cmd (s : State) : (s.incRunCount).cmd = s.cmd := rfl
@[simp] theorem State.incRunCount_opTimeout (s : State) : (s.incRunCount).opTimeout = s.opTimeout := rfl
@[simp] theorem State.incRunCount_opCb (s : State) : (s.incRunCount).opCb = s.opCb := rfl
@[simp] theorem State.incRunCount_opArg (s : State) : (s.incRunCount).opArg = s.opArg := rfl
@[simp] theorem State.incRunCount_status (s : State) : (s.incRunCount).status = s.status := rfl
@[simp] theorem State.incRunCount_res0 (s : State) : (s.incRunCount).res0 = s.res0 := rfl
@[simp] theorem State.incRunCount_res1 (s : State) : (s.incRunCount).res1 = s.res1 := rfl
@[simp] theorem State.incRunCount_res2 (s : State) : (s.incRunCount).res2 = s.res2 := rfl
@[simp] theorem State.incRunCount_slots (s : State) : (s.incRunCount).slots = s.slots := rfl
@[simp] theorem State.incRunCount_runHead (s : State) : (s.incRunCount).runHead = s.runHead := rfl
@[simp] theorem State.incRunCount_expHead (s : State) : (s.incRunCount).expHead = s.expHead := rfl
@[simp] theorem State.incRunCount_expTail (s : State) : (s.incRunCount).expTail = s.expTail := rfl
@[simp] theorem State.incRunCount_runCount (s : State) : (s.incRunCount).runCount = s.runCount + 1 := rfl
@[simp] theorem State.incRunCount_expiredFlag (s : State) : (s.incRunCount).expiredFlag = s.expiredFlag := rfl
@[simp] theorem State.incRunCount_ocrAuth (s : State) : (s.incRunCount).ocrAuth = s.ocrAuth := rfl
@[simp] theorem State.incRunCount_sysHigh (s : State) : (s.incRunCount).sysHigh = s.sysHigh := rfl
@[simp] theorem State.incRunCount_cnt (s : State) : (s.incRunCount).cnt = s.cnt := rfl
@[simp] theorem State.incRunCount_ocr (s : State) : (s.incRunCount).ocr = s.ocr := rfl
@[simp] theorem State.incRunCount_cmpIe (s : State) : (s.incRunCount).cmpIe = s.cmpIe := rfl
@[simp] theorem State.incRunCount_cmpIf (s : State) : (s.incRunCount).cmpIf = s.cmpIf := rfl
@[simp] theorem State.incRunCount_ovfIe (s : State) : (s.incRunCount).ovfIe = s.ovfIe := rfl
@[simp] theorem State.incRunCount_ovfIf (s : State) : (s.incRunCount).ovfIf = s.ovfIf := rfl
@[simp] theorem State.incRunCount_hpCb (s : State) : (s.incRunCount).hpCb = s.hpCb := rfl
@[simp] theorem State.incRunCount_hpArg (s : State) : (s.incRunCount).hpArg = s.hpArg := rfl
@[simp] theorem State.incRunCount_hpExpiry (s : State) : (s.incRunCount).hpExpiry = s.hpExpiry := rfl
@[simp] theorem State.incRunCount_ocrHp (s : State) : (s.incRunCount).ocrHp = s.ocrHp := rfl
@[simp] theorem State.incRunCount_hpIe (s : State) : (s.incRunCount).hpIe = s.hpIe := rfl
@[simp] theorem State.incRunCount_hpIf (s : State) : (s.incRunCount).hpIf = s.hpIf := rfl
@[simp] theorem State.incRunCount_gie (s : State) : (s.incRunCount).gie = s.gie := rfl
@[simp] theorem State.incRunCount_ctx (s : State) : (s.incRunCount).ctx = s.ctx := rfl
@[simp] theorem State.incRunCount_fault (s : State) : (s.incRunCount).fault = s.fault := rfl
@[simp] theorem State.incRunCount_sched (s : State) : (s.incRunCount).sched = s.sched := rfl
@[simp] theorem State.incRunCount_host (s : State) : (s.incRunCount).host = s.host := rfl
@[simp] theorem State.incRunCount_draws (s : State) : (s.incRunCount).draws = s.draws := rfl
@[simp] theorem State.incRunCount_callbacks (s : State) : (s.incRunCount).callbacks = s.callbacks := rfl
@[simp] theorem State.incRunCount_hostRead (s : State) : (s.incRunCount).hostRead = s.hostRead := rfl
@[simp] theorem State.slot?_incRunCount (s : State) (j : TimerId) : (s.incRunCount).slot? j = s.slot? j := rfl

/-! ### `decRunCount` -/

@[simp] theorem State.decRunCount_cfg (s : State) : (s.decRunCount).cfg = s.cfg := rfl
@[simp] theorem State.decRunCount_cmd (s : State) : (s.decRunCount).cmd = s.cmd := rfl
@[simp] theorem State.decRunCount_opTimeout (s : State) : (s.decRunCount).opTimeout = s.opTimeout := rfl
@[simp] theorem State.decRunCount_opCb (s : State) : (s.decRunCount).opCb = s.opCb := rfl
@[simp] theorem State.decRunCount_opArg (s : State) : (s.decRunCount).opArg = s.opArg := rfl
@[simp] theorem State.decRunCount_status (s : State) : (s.decRunCount).status = s.status := rfl
@[simp] theorem State.decRunCount_res0 (s : State) : (s.decRunCount).res0 = s.res0 := rfl
@[simp] theorem State.decRunCount_res1 (s : State) : (s.decRunCount).res1 = s.res1 := rfl
@[simp] theorem State.decRunCount_res2 (s : State) : (s.decRunCount).res2 = s.res2 := rfl
@[simp] theorem State.decRunCount_slots (s : State) : (s.decRunCount).slots = s.slots := rfl
@[simp] theorem State.decRunCount_runHead (s : State) : (s.decRunCount).runHead = s.runHead := rfl
@[simp] theorem State.decRunCount_expHead (s : State) : (s.decRunCount).expHead = s.expHead := rfl
@[simp] theorem State.decRunCount_expTail (s : State) : (s.decRunCount).expTail = s.expTail := rfl
@[simp] theorem State.decRunCount_runCount (s : State) : (s.decRunCount).runCount = s.runCount - 1 := rfl
@[simp] theorem State.decRunCount_expiredFlag (s : State) : (s.decRunCount).expiredFlag = s.expiredFlag := rfl
@[simp] theorem State.decRunCount_ocrAuth (s : State) : (s.decRunCount).ocrAuth = s.ocrAuth := rfl
@[simp] theorem State.decRunCount_sysHigh (s : State) : (s.decRunCount).sysHigh = s.sysHigh := rfl
@[simp] theorem State.decRunCount_cnt (s : State) : (s.decRunCount).cnt = s.cnt := rfl
@[simp] theorem State.decRunCount_ocr (s : State) : (s.decRunCount).ocr = s.ocr := rfl
@[simp] theorem State.decRunCount_cmpIe (s : State) : (s.decRunCount).cmpIe = s.cmpIe := rfl
@[simp] theorem State.decRunCount_cmpIf (s : State) : (s.decRunCount).cmpIf = s.cmpIf := rfl
@[simp] theorem State.decRunCount_ovfIe (s : State) : (s.decRunCount).ovfIe = s.ovfIe := rfl
@[simp] theorem State.decRunCount_ovfIf (s : State) : (s.decRunCount).ovfIf = s.ovfIf := rfl
@[simp] theorem State.decRunCount_hpCb (s : State) : (s.decRunCount).hpCb = s.hpCb := rfl
@[simp] theorem State.decRunCount_hpArg (s : State) : (s.decRunCount).hpArg = s.hpArg := rfl
@[simp] theorem State.decRunCount_hpExpiry (s : State) : (s.decRunCount).hpExpiry = s.hpExpiry := rfl
@[simp] theorem State.decRunCount_ocrHp (s : State) : (s.decRunCount).ocrHp = s.ocrHp := rfl
@[simp] theorem State.decRunCount_hpIe (s : State) : (s.decRunCount).hpIe = s.hpIe := rfl
@[simp] theorem State.decRunCount_hpIf (s : State) : (s.decRunCount).hpIf = s.hpIf := rfl
@[simp] theorem State.decRunCount_gie (s : State) : (s.decRunCount).gie = s.gie := rfl
@[simp] theorem State.decRunCount_ctx (s : State) : (s.decRunCount).ctx = s.ctx := rfl
@[simp] theorem State.decRunCount_fault (s : State) : (s.decRunCount).fault = s.fault := rfl
@[simp] theorem State.decRunCount_sched (s : State) : (s.decRunCount).sched = s.sched := rfl
@[simp] theorem State.decRunCount_host (s : State) : (s.decRunCount).host = s.host := rfl
@[simp] theorem State.decRunCount_draws (s : State) : (s.decRunCount).draws = s.draws := rfl
@[simp] theorem State.decRunCount_callbacks (s : State) : (s.decRunCount).callbacks = s.callbacks := rfl
@[simp] theorem State.decRunCount_hostRead (s : State) : (s.decRunCount).hostRead = s.hostRead := rfl
@[simp] theorem State.slot?_decRunCount (s : State) (j : TimerId) : (s.decRunCount).slot? j = s.slot? j := rfl

/-! ### `setExpired` -/

@[simp] theorem State.setExpired_cfg (s : State) (b : Bool) : (s.setExpired b).cfg = s.cfg := rfl
@[simp] theorem State.setExpired_cmd (s : State) (b : Bool) : (s.setExpired b).cmd = s.cmd := rfl
@[simp] theorem State.setExpired_opTimeout (s : State) (b : Bool) : (s.setExpired b).opTimeout = s.opTimeout := rfl
@[simp] theorem State.setExpired_opCb (s : State) (b : Bool) : (s.setExpired b).opCb = s.opCb := rfl
@[simp] theorem State.setExpired_opArg (s : State) (b : Bool) : (s.setExpired b).opArg = s.opArg := rfl
@[simp] theorem State.setExpired_status (s : State) (b : Bool) : (s.setExpired b).status = s.status := rfl
@[simp] theorem State.setExpired_res0 (s : State) (b : Bool) : (s.setExpired b).res0 = s.res0 := rfl
@[simp] theorem State.setExpired_res1 (s : State) (b : Bool) : (s.setExpired b).res1 = s.res1 := rfl
@[simp] theorem State.setExpired_res2 (s : State) (b : Bool) : (s.setExpired b).res2 = s.res2 := rfl
@[simp] theorem State.setExpired_slots (s : State) (b : Bool) : (s.setExpired b).slots = s.slots := rfl
@[simp] theorem State.setExpired_runHead (s : State) (b : Bool) : (s.setExpired b).runHead = s.runHead := rfl
@[simp] theorem State.setExpired_expHead (s : State) (b : Bool) : (s.setExpired b).expHead = s.expHead := rfl
@[simp] theorem State.setExpired_expTail (s : State) (b : Bool) : (s.setExpired b).expTail = s.expTail := rfl
@[simp] theorem State.setExpired_runCount (s : State) (b : Bool) : (s.setExpired b).runCount = s.runCount := rfl
@[simp] theorem State.setExpired_expiredFlag (s : State) (b : Bool) : (s.setExpired b).expiredFlag = b := rfl
@[simp] theorem State.setExpired_ocrAuth (s : State) (b : Bool) : (s.setExpired b).ocrAuth = s.ocrAuth := rfl
@[simp] theorem State.setExpired_sysHigh (s : State) (b : Bool) : (s.setExpired b).sysHigh = s.sysHigh := rfl
@[simp] theorem State.setExpired_cnt (s : State) (b : Bool) : (s.setExpired b).cnt = s.cnt := rfl
@[simp] theorem State.setExpired_ocr (s : State) (b : Bool) : (s.setExpired b).ocr = s.ocr := rfl
@[simp] theorem State.setExpired_cmpIe (s : State) (b : Bool) : (s.setExpired b).cmpIe = s.cmpIe := rfl
@[simp] theorem State.setExpired_cmpIf (s : State) (b : Bool) : (s.setExpired b).cmpIf = s.cmpIf := rfl
@[simp] theorem State.setExpired_ovfIe (s : State) (b : Bool) : (s.setExpired b).ovfIe = s.ovfIe := rfl
@[simp] theorem State.setExpired_ovfIf (s : State) (b : Bool) : (s.setExpired b).ovfIf = s.ovfIf := rfl
@[simp] theorem State.setExpired_hpCb (s : State) (b : Bool) : (s.setExpired b).hpCb = s.hpCb := rfl
@[simp] theorem State.setExpired_hpArg (s : State) (b : Bool) : (s.setExpired b).hpArg = s.hpArg := rfl
@[simp] theorem State.setExpired_hpExpiry (s : State) (b : Bool) : (s.setExpired b).hpExpiry = s.hpExpiry := rfl
@[simp] theorem State.setExpired_ocrHp (s : State) (b : Bool) : (s.setExpired b).ocrHp = s.ocrHp := rfl
@[simp] theorem State.setExpired_hpIe (s : State) (b : Bool) : (s.setExpired b).hpIe = s.hpIe := rfl
@[simp] theorem State.setExpired_hpIf (s : State) (b : Bool) : (s.setExpired b).hpIf = s.hpIf := rfl
@[simp] theorem State.setExpired_gie (s : State) (b : Bool) : (s.setExpired b).gie = s.gie := rfl
@[simp] theorem State.setExpired_ctx (s : State) (b : Bool) : (s.setExpired b).ctx = s.ctx := rfl
@[simp] theorem State.setExpired_fault (s : State) (b : Bool) : (s.setExpired b).fault = s.fault := rfl
@[simp] theorem State.setExpired_sched (s : State) (b : Bool) : (s.setExpired b).sched = s.sched := rfl
@[simp] theorem State.setExpired_host (s : State) (b : Bool) : (s.setExpired b).host = s.host := rfl
@[simp] theorem State.setExpired_draws (s : State) (b : Bool) : (s.setExpired b).draws = s.draws := rfl
@[simp] theorem State.setExpired_callbacks (s : State) (b : Bool) : (s.setExpired b).callbacks = s.callbacks := rfl
@[simp] theorem State.setExpired_hostRead (s : State) (b : Bool) : (s.setExpired b).hostRead = s.hostRead := rfl
@[simp] theorem State.slot?_setExpired (s : State) (b : Bool) (j : TimerId) : (s.setExpired b).slot? j = s.slot? j := rfl

/-! ### `setAuth` -/

@[simp] theorem State.setAuth_cfg (s : State) (b : Bool) : (s.setAuth b).cfg = s.cfg := rfl
@[simp] theorem State.setAuth_cmd (s : State) (b : Bool) : (s.setAuth b).cmd = s.cmd := rfl
@[simp] theorem State.setAuth_opTimeout (s : State) (b : Bool) : (s.setAuth b).opTimeout = s.opTimeout := rfl
@[simp] theorem State.setAuth_opCb (s : State) (b : Bool) : (s.setAuth b).opCb = s.opCb := rfl
@[simp] theorem State.setAuth_opArg (s : State) (b : Bool) : (s.setAuth b).opArg = s.opArg := rfl
@[simp] theorem State.setAuth_status (s : State) (b : Bool) : (s.setAuth b).status = s.status := rfl
@[simp] theorem State.setAuth_res0 (s : State) (b : Bool) : (s.setAuth b).res0 = s.res0 := rfl
@[simp] theorem State.setAuth_res1 (s : State) (b : Bool) : (s.setAuth b).res1 = s.res1 := rfl
@[simp] theorem State.setAuth_res2 (s : State) (b : Bool) : (s.setAuth b).res2 = s.res2 := rfl
@[simp] theorem State.setAuth_slots (s : State) (b : Bool) : (s.setAuth b).slots = s.slots := rfl
@[simp] theorem State.setAuth_runHead (s : State) (b : Bool) : (s.setAuth b).runHead = s.runHead := rfl
@[simp] theorem State.setAuth_expHead (s : State) (b : Bool) : (s.setAuth b).expHead = s.expHead := rfl
@[simp] theorem State.setAuth_expTail (s : State) (b : Bool) : (s.setAuth b).expTail = s.expTail := rfl
@[simp] theorem State.setAuth_runCount (s : State) (b : Bool) : (s.setAuth b).runCount = s.runCount := rfl
@[simp] theorem State.setAuth_expiredFlag (s : State) (b : Bool) : (s.setAuth b).expiredFlag = s.expiredFlag := rfl
@[simp] theorem State.setAuth_ocrAuth (s : State) (b : Bool) : (s.setAuth b).ocrAuth = b := rfl
@[simp] theorem State.setAuth_sysHigh (s : State) (b : Bool) : (s.setAuth b).sysHigh = s.sysHigh := rfl
@[simp] theorem State.setAuth_cnt (s : State) (b : Bool) : (s.setAuth b).cnt = s.cnt := rfl
@[simp] theorem State.setAuth_ocr (s : State) (b : Bool) : (s.setAuth b).ocr = s.ocr := rfl
@[simp] theorem State.setAuth_cmpIe (s : State) (b : Bool) : (s.setAuth b).cmpIe = s.cmpIe := rfl
@[simp] theorem State.setAuth_cmpIf (s : State) (b : Bool) : (s.setAuth b).cmpIf = s.cmpIf := rfl
@[simp] theorem State.setAuth_ovfIe (s : State) (b : Bool) : (s.setAuth b).ovfIe = s.ovfIe := rfl
@[simp] theorem State.setAuth_ovfIf (s : State) (b : Bool) : (s.setAuth b).ovfIf = s.ovfIf := rfl
@[simp] theorem State.setAuth_hpCb (s : State) (b : Bool) : (s.setAuth b).hpCb = s.hpCb := rfl
@[simp] theorem State.setAuth_hpArg (s : State) (b : Bool) : (s.setAuth b).hpArg = s.hpArg := rfl
@[simp] theorem State.setAuth_hpExpiry (s : State) (b : Bool) : (s.setAuth b).hpExpiry = s.hpExpiry := rfl
@[simp] theorem State.setAuth_ocrHp (s : State) (b : Bool) : (s.setAuth b).ocrHp = s.ocrHp := rfl
@[simp] theorem State.setAuth_hpIe (s : State) (b : Bool) : (s.setAuth b).hpIe = s.hpIe := rfl
@[simp] theorem State.setAuth_hpIf (s : State) (b : Bool) : (s.setAuth b).hpIf = s.hpIf := rfl
@[simp] theorem State.setAuth_gie (s : State) (b : Bool) : (s.setAuth b).gie = s.gie := rfl
@[simp] theorem State.setAuth_ctx (s : State) (b : Bool) : (s.setAuth b).ctx = s.ctx := rfl
@[simp] theorem State.setAuth_fault (s : State) (b : Bool) : (s.setAuth b).fault = s.fault := rfl
@[simp] theorem State.setAuth_sched (s : State) (b : Bool) : (s.setAuth b).sched = s.sched := rfl
@[simp] theorem State.setAuth_host (s : State) (b : Bool) : (s.setAuth b).host = s.host := rfl
@[simp] theorem State.setAuth_draws (s : State) (b : Bool) : (s.setAuth b).draws = s.draws := rfl
@[simp] theorem State.setAuth_callbacks (s : State) (b : Bool) : (s.setAuth b).callbacks = s.callbacks := rfl
@[simp] theorem State.setAuth_hostRead (s : State) (b : Bool) : (s.setAuth b).hostRead = s.hostRead := rfl
@[simp] theorem State.slot?_setAuth (s : State) (b : Bool) (j : TimerId) : (s.setAuth b).slot? j = s.slot? j := rfl

/-! ### `setGie` -/

@[simp] theorem State.setGie_cfg (s : State) (b : Bool) : (s.setGie b).cfg = s.cfg := rfl
@[simp] theorem State.setGie_cmd (s : State) (b : Bool) : (s.setGie b).cmd = s.cmd := rfl
@[simp] theorem State.setGie_opTimeout (s : State) (b : Bool) : (s.setGie b).opTimeout = s.opTimeout := rfl
@[simp] theorem State.setGie_opCb (s : State) (b : Bool) : (s.setGie b).opCb = s.opCb := rfl
@[simp] theorem State.setGie_opArg (s : State) (b : Bool) : (s.setGie b).opArg = s.opArg := rfl
@[simp] theorem State.setGie_status (s : State) (b : Bool) : (s.setGie b).status = s.status := rfl
@[simp] theorem State.setGie_res0 (s : State) (b : Bool) : (s.setGie b).res0 = s.res0 := rfl
@[simp] theorem State.setGie_res1 (s : State) (b : Bool) : (s.setGie b).res1 = s.res1 := rfl
@[simp] theorem State.setGie_res2 (s : State) (b : Bool) : (s.setGie b).res2 = s.res2 := rfl
@[simp] theorem State.setGie_slots (s : State) (b : Bool) : (s.setGie b).slots = s.slots := rfl
@[simp] theorem State.setGie_runHead (s : State) (b : Bool) : (s.setGie b).runHead = s.runHead := rfl
@[simp] theorem State.setGie_expHead (s : State) (b : Bool) : (s.setGie b).expHead = s.expHead := rfl
@[simp] theorem State.setGie_expTail (s : State) (b : Bool) : (s.setGie b).expTail = s.expTail := rfl
@[simp] theorem State.setGie_runCount (s : State) (b : Bool) : (s.setGie b).runCount = s.runCount := rfl
@[simp] theorem State.setGie_expiredFlag (s : State) (b : Bool) : (s.setGie b).expiredFlag = s.expiredFlag := rfl
@[simp] theorem State.setGie_ocrAuth (s : State) (b : Bool) : (s.setGie b).ocrAuth = s.ocrAuth := rfl
@[simp] theorem State.setGie_sysHigh (s : State) (b : Bool) : (s.setGie b).sysHigh = s.sysHigh := rfl
@[simp] theorem State.setGie_cnt (s : State) (b : Bool) : (s.setGie b).cnt = s.cnt := rfl
@[simp] theorem State.setGie_ocr (s : State) (b : Bool) : (s.setGie b).ocr = s.ocr := rfl
@[simp] theorem State.setGie_cmpIe (s : State) (b : Bool) : (s.setGie b).cmpIe = s.cmpIe := rfl
@[simp] theorem State.setGie_cmpIf (s : State) (b : Bool) : (s.setGie b).cmpIf = s.cmpIf := rfl
@[simp] theorem State.setGie_ovfIe (s : State) (b : Bool) : (s.setGie b).ovfIe = s.ovfIe := rfl
@[simp] theorem State.setGie_ovfIf (s : State) (b : Bool) : (s.setGie b).ovfIf = s.ovfIf := rfl
@[simp] theorem State.setGie_hpCb (s : State) (b : Bool) : (s.setGie b).hpCb = s.hpCb := rfl
@[simp] theorem State.setGie_hpArg (s : State) (b : Bool) : (s.setGie b).hpArg = s.hpArg := rfl
@[simp] theorem State.setGie_hpExpiry (s : State) (b : Bool) : (s.setGie b).hpExpiry = s.hpExpiry := rfl
@[simp] theorem State.setGie_ocrHp (s : State) (b : Bool) : (s.setGie b).ocrHp = s.ocrHp := rfl
@[simp] theorem State.setGie_hpIe (s : State) (b : Bool) : (s.setGie b).hpIe = s.hpIe := rfl
@[simp] theorem State.setGie_hpIf (s : State) (b : Bool) : (s.setGie b).hpIf = s.hpIf := rfl
@[simp] theorem State.setGie_gie (s : State) (b : Bool) : (s.setGie b).gie = b := rfl
@[simp] theorem State.setGie_ctx (s : State) (b : Bool) : (s.setGie b).ctx = s.ctx := rfl
@[simp] theorem State.setGie_fault (s : State) (b : Bool) : (s.setGie b).fault = s.fault := rfl
@[simp] theorem State.setGie_sched (s : State) (b : Bool) : (s.setGie b).sched = s.sched := rfl
@[simp] theorem State.setGie_host (s : State) (b : Bool) : (s.setGie b).host = s.host := rfl
@[simp] theorem State.setGie_draws (s : State) (b : Bool) : (s.setGie b).draws = s.draws := rfl
@[simp] theorem State.setGie_callbacks (s : State) (b : Bool) : (s.setGie b).callbacks = s.callbacks := rfl
@[simp] theorem State.setGie_hostRead (s : State) (b : Bool) : (s.setGie b).hostRead = s.hostRead := rfl
@[simp] theorem State.slot?_setGie (s : State) (b : Bool) (j : TimerId) : (s.setGie b).slot? j = s.slot? j := rfl

/-! ### `useDraw` -/

@[simp] theorem State.useDraw_cfg (s : State) : (s.useDraw).cfg = s.cfg := rfl
@[simp] theorem State.useDraw_cmd (s : State) : (s.useDraw).cmd = s.cmd := rfl
@[simp] theorem State.useDraw_opTimeout (s : State) : (s.useDraw).opTimeout = s.opTimeout := rfl
@[simp] theorem State.useDraw_opCb (s : State) : (s.useDraw).opCb = s.opCb := rfl
@[simp] theorem State.useDraw_opArg (s : State) : (s.useDraw).opArg = s.opArg := rfl
@[simp] theorem State.useDraw_status (s : State) : (s.useDraw).status = s.status := rfl
@[simp] theorem State.useDraw_res0 (s : State) : (s.useDraw).res0 = s.res0 := rfl
@[simp] theorem State.useDraw_res1 (s : State) : (s.useDraw).res1 = s.res1 := rfl
@[simp] theorem State.useDraw_res2 (s : State) : (s.useDraw).res2 = s.res2 := rfl
@[simp] theorem State.useDraw_slots (s : State) : (s.useDraw).slots = s.slots := rfl
@[simp] theorem State.useDraw_runHead (s : State) : (s.useDraw).runHead = s.runHead := rfl
@[simp] theorem State.useDraw_expHead (s : State) : (s.useDraw).expHead = s.expHead := rfl
@[simp] theorem State.useDraw_expTail (s : State) : (s.useDraw).expTail = s.expTail := rfl
@[simp] theorem State.useDraw_runCount (s : State) : (s.useDraw).runCount = s.runCount := rfl
@[simp] theorem State.useDraw_expiredFlag (s : State) : (s.useDraw).expiredFlag = s.expiredFlag := rfl
@[simp] theorem State.useDraw_ocrAuth (s : State) : (s.useDraw).ocrAuth = s.ocrAuth := rfl
@[simp] theorem State.useDraw_sysHigh (s : State) : (s.useDraw).sysHigh = s.sysHigh := rfl
@[simp] theorem State.useDraw_cnt (s : State) : (s.useDraw).cnt = s.cnt := rfl
@[simp] theorem State.useDraw_ocr (s : State) : (s.useDraw).ocr = s.ocr := rfl
@[simp] theorem State.useDraw_cmpIe (s : State) : (s.useDraw).cmpIe = s.cmpIe := rfl
@[simp] theorem State.useDraw_cmpIf (s : State) : (s.useDraw).cmpIf = s.cmpIf := rfl
@[simp] theorem State.useDraw_ovfIe (s : State) : (s.useDraw).ovfIe = s.ovfIe := rfl
@[simp] theorem State.useDraw_ovfIf (s : State) : (s.useDraw).ovfIf = s.ovfIf := rfl
@[simp] theorem State.useDraw_hpCb (s : State) : (s.useDraw).hpCb = s.hpCb := rfl
@[simp] theorem State.useDraw_hpArg (s : State) : (s.useDraw).hpArg = s.hpArg := rfl
@[simp] theorem State.useDraw_hpExpiry (s : State) : (s.useDraw).hpExpiry = s.hpExpiry := rfl
@[simp] theorem State.useDraw_ocrHp (s : State) : (s.useDraw).ocrHp = s.ocrHp := rfl
@[simp] theorem State.useDraw_hpIe (s : State) : (s.useDraw).hpIe = s.hpIe := rfl
@[simp] theorem State.useDraw_hpIf (s : State) : (s.useDraw).hpIf = s.hpIf := rfl
@[simp] theorem State.useDraw_gie (s : State) : (s.useDraw).gie = s.gie := rfl
@[simp] theorem State.useDraw_ctx (s : State) : (s.useDraw).ctx = s.ctx := rfl
@[simp] theorem State.useDraw_fault (s : State) : (s.useDraw).fault = s.fault := rfl
@[simp] theorem State.useDraw_sched (s : State) : (s.useDraw).sched = s.sched := rfl
@[simp] theorem State.useDraw_host (s : State) : (s.useDraw).host = s.host := rfl
@[simp] theorem State.useDraw_draws (s : State) : (s.useDraw).draws = s.draws.tail := rfl
@[simp] theorem State.useDraw_callbacks (s : State) : (s.useDraw).callbacks = s.callbacks := rfl
@[simp] theorem State.useDraw_hostRead (s : State) : (s.useDraw).hostRead = s.hostRead := rfl
@[simp] theorem State.slot?_useDraw (s : State) (j : TimerId) : (s.useDraw).slot? j = s.slot? j := rfl

/-! ### `hpClear` -/

@[simp] theorem State.hpClear_cfg (s : State) : (s.hpClear).cfg = s.cfg := rfl
@[simp] theorem State.hpClear_cmd (s : State) : (s.hpClear).cmd = s.cmd := rfl
@[simp] theorem State.hpClear_opTimeout (s : State) : (s.hpClear).opTimeout = s.opTimeout := rfl
@[simp] theorem State.hpClear_opCb (s : State) : (s.hpClear).opCb = s.opCb := rfl
@[simp] theorem State.hpClear_opArg (s : State) : (s.hpClear).opArg = s.opArg := rfl
@[simp] theorem State.hpClear_status (s : State) : (s.hpClear).status = s.status := rfl
@[simp] theorem State.hpClear_res0 (s : State) : (s.hpClear).res0 = s.res0 := rfl
@[simp] theorem State.hpClear_res1 (s : State) : (s.hpClear).res1 = s.res1 := rfl
@[simp] theorem State.hpClear_res2 (s : State) : (s.hpClear).res2 = s.res2 := rfl
@[simp] theorem State.hpClear_slots (s : State) : (s.hpClear).slots = s.slots := rfl
@[simp] theorem State.hpClear_runHead (s : State) : (s.hpClear).runHead = s.runHead := rfl
@[simp] theorem State.hpClear_expHead (s : State) : (s.hpClear).expHead = s.expHead := rfl
@[simp] theorem State.hpClear_expTail (s : State) : (s.hpClear).expTail = s.expTail := rfl
@[simp] theorem State.hpClear_runCount (s : State) : (s.hpClear).runCount = s.runCount := rfl
@[simp] theorem State.hpClear_expiredFlag (s : State) : (s.hpClear).expiredFlag = s.expiredFlag := rfl
@[simp] theorem State.hpClear_ocrAuth (s : State) : (s.hpClear).ocrAuth = s.ocrAuth := rfl
@[simp] theorem State.hpClear_sysHigh (s : State) : (s.hpClear).sysHigh = s.sysHigh := rfl
@[simp] theorem State.hpClear_cnt (s : State) : (s.hpClear).cnt = s.cnt := rfl
@[simp] theorem State.hpClear_ocr (s : State) : (s.hpClear).ocr = s.ocr := rfl
@[simp] theorem State.hpClear_cmpIe (s : State) : (s.hpClear).cmpIe = s.cmpIe := rfl
@[simp] theorem State.hpClear_cmpIf (s : State) : (s.hpClear).cmpIf = s.cmpIf := rfl
@[simp] theorem State.hpClear_ovfIe (s : State) : (s.hpClear).ovfIe = s.ovfIe := rfl
@[simp] theorem State.hpClear_ovfIf (s : State) : (s.hpClear).ovfIf = s.ovfIf := rfl
@[simp] theorem State.hpClear_hpCb (s : State) : (s.hpClear).hpCb = null := rfl
@[simp] theorem State.hpClear_hpArg (s : State) : (s.hpClear).hpArg = s.hpArg := rfl
@[simp] theorem State.hpClear_hpExpiry (s : State) : (s.hpClear).hpExpiry = s.hpExpiry := rfl
@[simp] theorem State.hpClear_ocrHp (s : State) : (s.hpClear).ocrHp = s.ocrHp := rfl
@[simp] theorem State.hpClear_hpIe (s : State) : (s.hpClear).hpIe = false := rfl
@[simp] theorem State.hpClear_hpIf (s : State) : (s.hpClear).hpIf = false := rfl
@[simp] theorem State.hpClear_gie (s : State) : (s.hpClear).gie = s.gie := rfl
@[simp] theorem State.hpClear_ctx (s : State) : (s.hpClear).ctx = s.ctx := rfl
@[simp] theorem State.hpClear_fault (s : State) : (s.hpClear).fault = s.fault := rfl
@[simp] theorem State.hpClear_sched (s : State) : (s.hpClear).sched = s.sched := rfl
@[simp] theorem State.hpClear_host (s : State) : (s.hpClear).host = s.host := rfl
@[simp] theorem State.hpClear_draws (s : State) : (s.hpClear).draws = s.draws := rfl
@[simp] theorem State.hpClear_callbacks (s : State) : (s.hpClear).callbacks = s.callbacks := rfl
@[simp] theorem State.hpClear_hostRead (s : State) : (s.hpClear).hostRead = s.hostRead := rfl
@[simp] theorem State.slot?_hpClear (s : State) (j : TimerId) : (s.hpClear).slot? j = s.slot? j := rfl

/-! ### `takeOverflow` -/

@[simp] theorem State.takeOverflow_cfg (s : State) : (s.takeOverflow).cfg = s.cfg := rfl
@[simp] theorem State.takeOverflow_cmd (s : State) : (s.takeOverflow).cmd = s.cmd := rfl
@[simp] theorem State.takeOverflow_opTimeout (s : State) : (s.takeOverflow).opTimeout = s.opTimeout := rfl
@[simp] theorem State.takeOverflow_opCb (s : State) : (s.takeOverflow).opCb = s.opCb := rfl
@[simp] theorem State.takeOverflow_opArg (s : State) : (s.takeOverflow).opArg = s.opArg := rfl
@[simp] theorem State.takeOverflow_status (s : State) : (s.takeOverflow).status = s.status := rfl
@[simp] theorem State.takeOverflow_res0 (s : State) : (s.takeOverflow).res0 = s.res0 := rfl
@[simp] theorem State.takeOverflow_res1 (s : State) : (s.takeOverflow).res1 = s.res1 := rfl
@[simp] theorem State.takeOverflow_res2 (s : State) : (s.takeOverflow).res2 = s.res2 := rfl
@[simp] theorem State.takeOverflow_slots (s : State) : (s.takeOverflow).slots = s.slots := rfl
@[simp] theorem State.takeOverflow_runHead (s : State) : (s.takeOverflow).runHead = s.runHead := rfl
@[simp] theorem State.takeOverflow_expHead (s : State) : (s.takeOverflow).expHead = s.expHead := rfl
@[simp] theorem State.takeOverflow_expTail (s : State) : (s.takeOverflow).expTail = s.expTail := rfl
@[simp] theorem State.takeOverflow_runCount (s : State) : (s.takeOverflow).runCount = s.runCount := rfl
@[simp] theorem State.takeOverflow_expiredFlag (s : State) : (s.takeOverflow).expiredFlag = s.expiredFlag := rfl
@[simp] theorem State.takeOverflow_ocrAuth (s : State) : (s.takeOverflow).ocrAuth = s.ocrAuth := rfl
@[simp] theorem State.takeOverflow_sysHigh (s : State) : (s.takeOverflow).sysHigh = s.sysHighNext := rfl
@[simp] theorem State.takeOverflow_cnt (s : State) : (s.takeOverflow).cnt = s.cnt := rfl
@[simp] theorem State.takeOverflow_ocr (s : State) : (s.takeOverflow).ocr = s.ocr := rfl
@[simp] theorem State.takeOverflow_cmpIe (s : State) : (s.takeOverflow).cmpIe = s.cmpIe := rfl
@[simp] theorem State.takeOverflow_cmpIf (s : State) : (s.takeOverflow).cmpIf = s.cmpIf := rfl
@[simp] theorem State.takeOverflow_ovfIe (s : State) : (s.takeOverflow).ovfIe = s.ovfIe := rfl
@[simp] theorem State.takeOverflow_ovfIf (s : State) : (s.takeOverflow).ovfIf = false := rfl
@[simp] theorem State.takeOverflow_hpCb (s : State) : (s.takeOverflow).hpCb = s.hpCb := rfl
@[simp] theorem State.takeOverflow_hpArg (s : State) : (s.takeOverflow).hpArg = s.hpArg := rfl
@[simp] theorem State.takeOverflow_hpExpiry (s : State) : (s.takeOverflow).hpExpiry = s.hpExpiry := rfl
@[simp] theorem State.takeOverflow_ocrHp (s : State) : (s.takeOverflow).ocrHp = s.ocrHp := rfl
@[simp] theorem State.takeOverflow_hpIe (s : State) : (s.takeOverflow).hpIe = s.hpIe := rfl
@[simp] theorem State.takeOverflow_hpIf (s : State) : (s.takeOverflow).hpIf = s.hpIf := rfl
@[simp] theorem State.takeOverflow_gie (s : State) : (s.takeOverflow).gie = s.gie := rfl
@[simp] theorem State.takeOverflow_ctx (s : State) : (s.takeOverflow).ctx = s.ctx := rfl
@[simp] theorem State.takeOverflow_fault (s : State) : (s.takeOverflow).fault = s.fault := rfl
@[simp] theorem State.takeOverflow_sched (s : State) : (s.takeOverflow).sched = s.sched := rfl
@[simp] theorem State.takeOverflow_host (s : State) : (s.takeOverflow).host = s.host := rfl
@[simp] theorem State.takeOverflow_draws (s : State) : (s.takeOverflow).draws = s.draws := rfl
@[simp] theorem State.takeOverflow_callbacks (s : State) : (s.takeOverflow).callbacks = s.callbacks := rfl
@[simp] theorem State.takeOverflow_hostRead (s : State) : (s.takeOverflow).hostRead = s.hostRead := rfl
@[simp] theorem State.slot?_takeOverflow (s : State) (j : TimerId) : (s.takeOverflow).slot? j = s.slot? j := rfl

/-! ### `takeMatch` -/

@[simp] theorem State.takeMatch_cfg (s : State) : (s.takeMatch).cfg = s.cfg := rfl
@[simp] theorem State.takeMatch_cmd (s : State) : (s.takeMatch).cmd = s.cmd := rfl
@[simp] theorem State.takeMatch_opTimeout (s : State) : (s.takeMatch).opTimeout = s.opTimeout := rfl
@[simp] theorem State.takeMatch_opCb (s : State) : (s.takeMatch).opCb = s.opCb := rfl
@[simp] theorem State.takeMatch_opArg (s : State) : (s.takeMatch).opArg = s.opArg := rfl
@[simp] theorem State.takeMatch_status (s : State) : (s.takeMatch).status = s.status := rfl
@[simp] theorem State.takeMatch_res0 (s : State) : (s.takeMatch).res0 = s.res0 := rfl
@[simp] theorem State.takeMatch_res1 (s : State) : (s.takeMatch).res1 = s.res1 := rfl
@[simp] theorem State.takeMatch_res2 (s : State) : (s.takeMatch).res2 = s.res2 := rfl
@[simp] theorem State.takeMatch_slots (s : State) : (s.takeMatch).slots = s.slots := rfl
@[simp] theorem State.takeMatch_runHead (s : State) : (s.takeMatch).runHead = s.runHead := rfl
@[simp] theorem State.takeMatch_expHead (s : State) : (s.takeMatch).expHead = s.expHead := rfl
@[simp] theorem State.takeMatch_expTail (s : State) : (s.takeMatch).expTail = s.expTail := rfl
@[simp] theorem State.takeMatch_runCount (s : State) : (s.takeMatch).runCount = s.runCount := rfl
@[simp] theorem State.takeMatch_expiredFlag (s : State) : (s.takeMatch).expiredFlag = (s.expiredFlag || s.ocrAuth) := rfl
@[simp] theorem State.takeMatch_ocrAuth (s : State) : (s.takeMatch).ocrAuth = s.ocrAuth := rfl
@[simp] theorem State.takeMatch_sysHigh (s : State) : (s.takeMatch).sysHigh = s.sysHigh := rfl
@[simp] theorem State.takeMatch_cnt (s : State) : (s.takeMatch).cnt = s.cnt := rfl
@[simp] theorem State.takeMatch_ocr (s : State) : (s.takeMatch).ocr = s.ocr := rfl
@[simp] theorem State.takeMatch_cmpIe (s : State) : (s.takeMatch).cmpIe = s.cmpIe := rfl
@[simp] theorem State.takeMatch_cmpIf (s : State) : (s.takeMatch).cmpIf = false := rfl
@[simp] theorem State.takeMatch_ovfIe (s : State) : (s.takeMatch).ovfIe = s.ovfIe := rfl
@[simp] theorem State.takeMatch_ovfIf (s : State) : (s.takeMatch).ovfIf = s.ovfIf := rfl
@[simp] theorem State.takeMatch_hpCb (s : State) : (s.takeMatch).hpCb = s.hpCb := rfl
@[simp] theorem State.takeMatch_hpArg (s : State) : (s.takeMatch).hpArg = s.hpArg := rfl
@[simp] theorem State.takeMatch_hpExpiry (s : State) : (s.takeMatch).hpExpiry = s.hpExpiry := rfl
@[simp] theorem State.takeMatch_ocrHp (s : State) : (s.takeMatch).ocrHp = s.ocrHp := rfl
@[simp] theorem State.takeMatch_hpIe (s : State) : (s.takeMatch).hpIe = s.hpIe := rfl
@[simp] theorem State.takeMatch_hpIf (s : State) : (s.takeMatch).hpIf = s.hpIf := rfl
@[simp] theorem State.takeMatch_gie (s : State) : (s.takeMatch).gie = s.gie := rfl
@[simp] theorem State.takeMatch_ctx (s : State) : (s.takeMatch).ctx = s.ctx := rfl
@[simp] theorem State.takeMatch_fault (s : State) : (s.takeMatch).fault = s.fault := rfl
@[simp] theorem State.takeMatch_sched (s : State) : (s.takeMatch).sched = s.sched := rfl
@[simp] theorem State.takeMatch_host (s : State) : (s.takeMatch).host = s.host := rfl
@[simp] theorem State.takeMatch_draws (s : State) : (s.takeMatch).draws = s.draws := rfl
@[simp] theorem State.takeMatch_callbacks (s : State) : (s.takeMatch).callbacks = s.callbacks := rfl
@[simp] theorem State.takeMatch_hostRead (s : State) : (s.takeMatch).hostRead = s.hostRead := rfl
@[simp] theorem State.slot?_takeMatch (s : State) (j : TimerId) : (s.takeMatch).slot? j = s.slot? j := rfl

/-! ### `takeHpMatch` -/

@[simp] theorem State.takeHpMatch_cfg (s : State) : (s.takeHpMatch).cfg = s.cfg := rfl
@[simp] theorem State.takeHpMatch_cmd (s : State) : (s.takeHpMatch).cmd = s.cmd := rfl
@[simp] theorem State.takeHpMatch_opTimeout (s : State) : (s.takeHpMatch).opTimeout = s.opTimeout := rfl
@[simp] theorem State.takeHpMatch_opCb (s : State) : (s.takeHpMatch).opCb = s.opCb := rfl
@[simp] theorem State.takeHpMatch_opArg (s : State) : (s.takeHpMatch).opArg = s.opArg := rfl
@[simp] theorem State.takeHpMatch_status (s : State) : (s.takeHpMatch).status = s.status := rfl
@[simp] theorem State.takeHpMatch_res0 (s : State) : (s.takeHpMatch).res0 = s.res0 := rfl
@[simp] theorem State.takeHpMatch_res1 (s : State) : (s.takeHpMatch).res1 = s.res1 := rfl
@[simp] theorem State.takeHpMatch_res2 (s : State) : (s.takeHpMatch).res2 = s.res2 := rfl
@[simp] theorem State.takeHpMatch_slots (s : State) : (s.takeHpMatch).slots = s.slots := rfl
@[simp] theorem State.takeHpMatch_runHead (s : State) : (s.takeHpMatch).runHead = s.runHead := rfl
@[simp] theorem State.takeHpMatch_expHead (s : State) : (s.takeHpMatch).expHead = s.expHead := rfl
@[simp] theorem State.takeHpMatch_expTail (s : State) : (s.takeHpMatch).expTail = s.expTail := rfl
@[simp] theorem State.takeHpMatch_runCount (s : State) : (s.takeHpMatch).runCount = s.runCount := rfl
@[simp] theorem State.takeHpMatch_expiredFlag (s : State) : (s.takeHpMatch).expiredFlag = s.expiredFlag := rfl
@[simp] theorem State.takeHpMatch_ocrAuth (s : State) : (s.takeHpMatch).ocrAuth = s.ocrAuth := rfl
@[simp] theorem State.takeHpMatch_sysHigh (s : State) : (s.takeHpMatch).sysHigh = s.sysHigh := rfl
@[simp] theorem State.takeHpMatch_cnt (s : State) : (s.takeHpMatch).cnt = s.cnt := rfl
@[simp] theorem State.takeHpMatch_ocr (s : State) : (s.takeHpMatch).ocr = s.ocr := rfl
@[simp] theorem State.takeHpMatch_cmpIe (s : State) : (s.takeHpMatch).cmpIe = s.cmpIe := rfl
@[simp] theorem State.takeHpMatch_cmpIf (s : State) : (s.takeHpMatch).cmpIf = s.cmpIf := rfl
@[simp] theorem State.takeHpMatch_ovfIe (s : State) : (s.takeHpMatch).ovfIe = s.ovfIe := rfl
@[simp] theorem State.takeHpMatch_ovfIf (s : State) : (s.takeHpMatch).ovfIf = s.ovfIf := rfl
@[simp] theorem State.takeHpMatch_hpCb (s : State) : (s.takeHpMatch).hpCb = s.hpCb := rfl
@[simp] theorem State.takeHpMatch_hpArg (s : State) : (s.takeHpMatch).hpArg = s.hpArg := rfl
@[simp] theorem State.takeHpMatch_hpExpiry (s : State) : (s.takeHpMatch).hpExpiry = s.hpExpiry := rfl
@[simp] theorem State.takeHpMatch_ocrHp (s : State) : (s.takeHpMatch).ocrHp = s.ocrHp := rfl
@[simp] theorem State.takeHpMatch_hpIe (s : State) : (s.takeHpMatch).hpIe = s.hpIe := rfl
@[simp] theorem State.takeHpMatch_hpIf (s : State) : (s.takeHpMatch).hpIf = false := rfl
@[simp] theorem State.takeHpMatch_gie (s : State) : (s.takeHpMatch).gie = s.gie := rfl
@[simp] theorem State.takeHpMatch_ctx (s : State) : (s.takeHpMatch).ctx = s.ctx := rfl
@[simp] theorem State.takeHpMatch_fault (s : State) : (s.takeHpMatch).fault = s.fault := rfl
@[simp] theorem State.takeHpMatch_sched (s : State) : (s.takeHpMatch).sched = s.sched := rfl
@[simp] theorem State.takeHpMatch_host (s : State) : (s.takeHpMatch).host = s.host := rfl
@[simp] theorem State.takeHpMatch_draws (s : State) : (s.takeHpMatch).draws = s.draws := rfl
@[simp] theorem State.takeHpMatch_callbacks (s : State) : (s.takeHpMatch).callbacks = s.callbacks := rfl
@[simp] theorem State.takeHpMatch_hostRead (s : State) : (s.takeHpMatch).hostRead = s.hostRead := rfl
@[simp] theorem State.slot?_takeHpMatch (s : State) (j : TimerId) : (s.takeHpMatch).slot? j = s.slot? j := rfl

/-! ### `takeMove` -/

@[simp] theorem State.takeMove_cfg (s : State) (rest : List HostMove) : (s.takeMove rest).cfg = s.cfg := rfl
@[simp] theorem State.takeMove_cmd (s : State) (rest : List HostMove) : (s.takeMove rest).cmd = s.cmd := rfl
@[simp] theorem State.takeMove_opTimeout (s : State) (rest : List HostMove) : (s.takeMove rest).opTimeout = s.opTimeout := rfl
@[simp] theorem State.takeMove_opCb (s : State) (rest : List HostMove) : (s.takeMove rest).opCb = s.opCb := rfl
@[simp] theorem State.takeMove_opArg (s : State) (rest : List HostMove) : (s.takeMove rest).opArg = s.opArg := rfl
@[simp] theorem State.takeMove_status (s : State) (rest : List HostMove) : (s.takeMove rest).status = s.status := rfl
@[simp] theorem State.takeMove_res0 (s : State) (rest : List HostMove) : (s.takeMove rest).res0 = s.res0 := rfl
@[simp] theorem State.takeMove_res1 (s : State) (rest : List HostMove) : (s.takeMove rest).res1 = s.res1 := rfl
@[simp] theorem State.takeMove_res2 (s : State) (rest : List HostMove) : (s.takeMove rest).res2 = s.res2 := rfl
@[simp] theorem State.takeMove_slots (s : State) (rest : List HostMove) : (s.takeMove rest).slots = s.slots := rfl
@[simp] theorem State.takeMove_runHead (s : State) (rest : List HostMove) : (s.takeMove rest).runHead = s.runHead := rfl
@[simp] theorem State.takeMove_expHead (s : State) (rest : List HostMove) : (s.takeMove rest).expHead = s.expHead := rfl
@[simp] theorem State.takeMove_expTail (s : State) (rest : List HostMove) : (s.takeMove rest).expTail = s.expTail := rfl
@[simp] theorem State.takeMove_runCount (s : State) (rest : List HostMove) : (s.takeMove rest).runCount = s.runCount := rfl
@[simp] theorem State.takeMove_expiredFlag (s : State) (rest : List HostMove) : (s.takeMove rest).expiredFlag = s.expiredFlag := rfl
@[simp] theorem State.takeMove_ocrAuth (s : State) (rest : List HostMove) : (s.takeMove rest).ocrAuth = s.ocrAuth := rfl
@[simp] theorem State.takeMove_sysHigh (s : State) (rest : List HostMove) : (s.takeMove rest).sysHigh = s.sysHigh := rfl
@[simp] theorem State.takeMove_cnt (s : State) (rest : List HostMove) : (s.takeMove rest).cnt = s.cnt := rfl
@[simp] theorem State.takeMove_ocr (s : State) (rest : List HostMove) : (s.takeMove rest).ocr = s.ocr := rfl
@[simp] theorem State.takeMove_cmpIe (s : State) (rest : List HostMove) : (s.takeMove rest).cmpIe = s.cmpIe := rfl
@[simp] theorem State.takeMove_cmpIf (s : State) (rest : List HostMove) : (s.takeMove rest).cmpIf = s.cmpIf := rfl
@[simp] theorem State.takeMove_ovfIe (s : State) (rest : List HostMove) : (s.takeMove rest).ovfIe = s.ovfIe := rfl
@[simp] theorem State.takeMove_ovfIf (s : State) (rest : List HostMove) : (s.takeMove rest).ovfIf = s.ovfIf := rfl
@[simp] theorem State.takeMove_hpCb (s : State) (rest : List HostMove) : (s.takeMove rest).hpCb = s.hpCb := rfl
@[simp] theorem State.takeMove_hpArg (s : State) (rest : List HostMove) : (s.takeMove rest).hpArg = s.hpArg := rfl
@[simp] theorem State.takeMove_hpExpiry (s : State) (rest : List HostMove) : (s.takeMove rest).hpExpiry = s.hpExpiry := rfl
@[simp] theorem State.takeMove_ocrHp (s : State) (rest : List HostMove) : (s.takeMove rest).ocrHp = s.ocrHp := rfl
@[simp] theorem State.takeMove_hpIe (s : State) (rest : List HostMove) : (s.takeMove rest).hpIe = s.hpIe := rfl
@[simp] theorem State.takeMove_hpIf (s : State) (rest : List HostMove) : (s.takeMove rest).hpIf = s.hpIf := rfl
@[simp] theorem State.takeMove_gie (s : State) (rest : List HostMove) : (s.takeMove rest).gie = s.gie := rfl
@[simp] theorem State.takeMove_ctx (s : State) (rest : List HostMove) : (s.takeMove rest).ctx = s.ctx := rfl
@[simp] theorem State.takeMove_fault (s : State) (rest : List HostMove) : (s.takeMove rest).fault = s.fault := rfl
@[simp] theorem State.takeMove_sched (s : State) (rest : List HostMove) : (s.takeMove rest).sched = s.sched.tail := rfl
@[simp] theorem State.takeMove_host (s : State) (rest : List HostMove) : (s.takeMove rest).host = rest := rfl
@[simp] theorem State.takeMove_draws (s : State) (rest : List HostMove) : (s.takeMove rest).draws = s.draws := rfl
@[simp] theorem State.takeMove_callbacks (s : State) (rest : List HostMove) : (s.takeMove rest).callbacks = s.callbacks := rfl
@[simp] theorem State.takeMove_hostRead (s : State) (rest : List HostMove) : (s.takeMove rest).hostRead = s.hostRead := rfl
@[simp] theorem State.slot?_takeMove (s : State) (rest : List HostMove) (j : TimerId) : (s.takeMove rest).slot? j = s.slot? j := rfl

/-! ### `hpArm` -/

@[simp] theorem State.hpArm_cfg (s : State) (target : Word) : (s.hpArm target).cfg = s.cfg := rfl
@[simp] theorem State.hpArm_cmd (s : State) (target : Word) : (s.hpArm target).cmd = s.cmd := rfl
@[simp] theorem State.hpArm_opTimeout (s : State) (target : Word) : (s.hpArm target).opTimeout = s.opTimeout := rfl
@[simp] theorem State.hpArm_opCb (s : State) (target : Word) : (s.hpArm target).opCb = s.opCb := rfl
@[simp] theorem State.hpArm_opArg (s : State) (target : Word) : (s.hpArm target).opArg = s.opArg := rfl
@[simp] theorem State.hpArm_status (s : State) (target : Word) : (s.hpArm target).status = s.status := rfl
@[simp] theorem State.hpArm_res0 (s : State) (target : Word) : (s.hpArm target).res0 = s.res0 := rfl
@[simp] theorem State.hpArm_res1 (s : State) (target : Word) : (s.hpArm target).res1 = s.res1 := rfl
@[simp] theorem State.hpArm_res2 (s : State) (target : Word) : (s.hpArm target).res2 = s.res2 := rfl
@[simp] theorem State.hpArm_slots (s : State) (target : Word) : (s.hpArm target).slots = s.slots := rfl
@[simp] theorem State.hpArm_runHead (s : State) (target : Word) : (s.hpArm target).runHead = s.runHead := rfl
@[simp] theorem State.hpArm_expHead (s : State) (target : Word) : (s.hpArm target).expHead = s.expHead := rfl
@[simp] theorem State.hpArm_expTail (s : State) (target : Word) : (s.hpArm target).expTail = s.expTail := rfl
@[simp] theorem State.hpArm_runCount (s : State) (target : Word) : (s.hpArm target).runCount = s.runCount := rfl
@[simp] theorem State.hpArm_expiredFlag (s : State) (target : Word) : (s.hpArm target).expiredFlag = s.expiredFlag := rfl
@[simp] theorem State.hpArm_ocrAuth (s : State) (target : Word) : (s.hpArm target).ocrAuth = s.ocrAuth := rfl
@[simp] theorem State.hpArm_sysHigh (s : State) (target : Word) : (s.hpArm target).sysHigh = s.sysHigh := rfl
@[simp] theorem State.hpArm_cnt (s : State) (target : Word) : (s.hpArm target).cnt = s.cnt := rfl
@[simp] theorem State.hpArm_ocr (s : State) (target : Word) : (s.hpArm target).ocr = s.ocr := rfl
@[simp] theorem State.hpArm_cmpIe (s : State) (target : Word) : (s.hpArm target).cmpIe = s.cmpIe := rfl
@[simp] theorem State.hpArm_cmpIf (s : State) (target : Word) : (s.hpArm target).cmpIf = s.cmpIf := rfl
@[simp] theorem State.hpArm_ovfIe (s : State) (target : Word) : (s.hpArm target).ovfIe = s.ovfIe := rfl
@[simp] theorem State.hpArm_ovfIf (s : State) (target : Word) : (s.hpArm target).ovfIf = s.ovfIf := rfl
@[simp] theorem State.hpArm_hpCb (s : State) (target : Word) : (s.hpArm target).hpCb = s.opCb := rfl
@[simp] theorem State.hpArm_hpArg (s : State) (target : Word) : (s.hpArm target).hpArg = s.opArg := rfl
@[simp] theorem State.hpArm_hpExpiry (s : State) (target : Word) : (s.hpArm target).hpExpiry = target := rfl
@[simp] theorem State.hpArm_ocrHp (s : State) (target : Word) : (s.hpArm target).ocrHp = timeLo s.cfg target := rfl
@[simp] theorem State.hpArm_hpIe (s : State) (target : Word) : (s.hpArm target).hpIe = true := rfl
@[simp] theorem State.hpArm_hpIf (s : State) (target : Word) : (s.hpArm target).hpIf = false := rfl
@[simp] theorem State.hpArm_gie (s : State) (target : Word) : (s.hpArm target).gie = s.gie := rfl
@[simp] theorem State.hpArm_ctx (s : State) (target : Word) : (s.hpArm target).ctx = s.ctx := rfl
@[simp] theorem State.hpArm_fault (s : State) (target : Word) : (s.hpArm target).fault = s.fault := rfl
@[simp] theorem State.hpArm_sched (s : State) (target : Word) : (s.hpArm target).sched = s.sched := rfl
@[simp] theorem State.hpArm_host (s : State) (target : Word) : (s.hpArm target).host = s.host := rfl
@[simp] theorem State.hpArm_draws (s : State) (target : Word) : (s.hpArm target).draws = s.draws := rfl
@[simp] theorem State.hpArm_callbacks (s : State) (target : Word) : (s.hpArm target).callbacks = s.callbacks := rfl
@[simp] theorem State.hpArm_hostRead (s : State) (target : Word) : (s.hpArm target).hostRead = s.hostRead := rfl
@[simp] theorem State.slot?_hpArm (s : State) (target : Word) (j : TimerId) : (s.hpArm target).slot? j = s.slot? j := rfl

/-! ### `useTurn` -/

@[simp] theorem State.useTurn_cfg (s : State) : (s.useTurn).cfg = s.cfg := rfl
@[simp] theorem State.useTurn_cmd (s : State) : (s.useTurn).cmd = s.cmd := rfl
@[simp] theorem State.useTurn_opTimeout (s : State) : (s.useTurn).opTimeout = s.opTimeout := rfl
@[simp] theorem State.useTurn_opCb (s : State) : (s.useTurn).opCb = s.opCb := rfl
@[simp] theorem State.useTurn_opArg (s : State) : (s.useTurn).opArg = s.opArg := rfl
@[simp] theorem State.useTurn_status (s : State) : (s.useTurn).status = s.status := rfl
@[simp] theorem State.useTurn_res0 (s : State) : (s.useTurn).res0 = s.res0 := rfl
@[simp] theorem State.useTurn_res1 (s : State) : (s.useTurn).res1 = s.res1 := rfl
@[simp] theorem State.useTurn_res2 (s : State) : (s.useTurn).res2 = s.res2 := rfl
@[simp] theorem State.useTurn_slots (s : State) : (s.useTurn).slots = s.slots := rfl
@[simp] theorem State.useTurn_runHead (s : State) : (s.useTurn).runHead = s.runHead := rfl
@[simp] theorem State.useTurn_expHead (s : State) : (s.useTurn).expHead = s.expHead := rfl
@[simp] theorem State.useTurn_expTail (s : State) : (s.useTurn).expTail = s.expTail := rfl
@[simp] theorem State.useTurn_runCount (s : State) : (s.useTurn).runCount = s.runCount := rfl
@[simp] theorem State.useTurn_expiredFlag (s : State) : (s.useTurn).expiredFlag = s.expiredFlag := rfl
@[simp] theorem State.useTurn_ocrAuth (s : State) : (s.useTurn).ocrAuth = s.ocrAuth := rfl
@[simp] theorem State.useTurn_sysHigh (s : State) : (s.useTurn).sysHigh = s.sysHigh := rfl
@[simp] theorem State.useTurn_cnt (s : State) : (s.useTurn).cnt = s.cnt := rfl
@[simp] theorem State.useTurn_ocr (s : State) : (s.useTurn).ocr = s.ocr := rfl
@[simp] theorem State.useTurn_cmpIe (s : State) : (s.useTurn).cmpIe = s.cmpIe := rfl
@[simp] theorem State.useTurn_cmpIf (s : State) : (s.useTurn).cmpIf = s.cmpIf := rfl
@[simp] theorem State.useTurn_ovfIe (s : State) : (s.useTurn).ovfIe = s.ovfIe := rfl
@[simp] theorem State.useTurn_ovfIf (s : State) : (s.useTurn).ovfIf = s.ovfIf := rfl
@[simp] theorem State.useTurn_hpCb (s : State) : (s.useTurn).hpCb = s.hpCb := rfl
@[simp] theorem State.useTurn_hpArg (s : State) : (s.useTurn).hpArg = s.hpArg := rfl
@[simp] theorem State.useTurn_hpExpiry (s : State) : (s.useTurn).hpExpiry = s.hpExpiry := rfl
@[simp] theorem State.useTurn_ocrHp (s : State) : (s.useTurn).ocrHp = s.ocrHp := rfl
@[simp] theorem State.useTurn_hpIe (s : State) : (s.useTurn).hpIe = s.hpIe := rfl
@[simp] theorem State.useTurn_hpIf (s : State) : (s.useTurn).hpIf = s.hpIf := rfl
@[simp] theorem State.useTurn_gie (s : State) : (s.useTurn).gie = s.gie := rfl
@[simp] theorem State.useTurn_ctx (s : State) : (s.useTurn).ctx = s.ctx := rfl
@[simp] theorem State.useTurn_fault (s : State) : (s.useTurn).fault = s.fault := rfl
@[simp] theorem State.useTurn_sched (s : State) : (s.useTurn).sched = s.sched.tail := rfl
@[simp] theorem State.useTurn_host (s : State) : (s.useTurn).host = s.host := rfl
@[simp] theorem State.useTurn_draws (s : State) : (s.useTurn).draws = s.draws := rfl
@[simp] theorem State.useTurn_callbacks (s : State) : (s.useTurn).callbacks = s.callbacks := rfl
@[simp] theorem State.useTurn_hostRead (s : State) : (s.useTurn).hostRead = s.hostRead := rfl
@[simp] theorem State.slot?_useTurn (s : State) (j : TimerId) : (s.useTurn).slot? j = s.slot? j := rfl

/-! ### Ticks and yields -/

/-- Ticks write the counter and the three latches, nothing else. -/
theorem State.ticks_frame (n : Nat) (s : State) :
    State.ticks n s = { s with
      cnt := (State.ticks n s).cnt
      ovfIf := (State.ticks n s).ovfIf
      cmpIf := (State.ticks n s).cmpIf
      hpIf := (State.ticks n s).hpIf } := by
  induction n generalizing s with
  | zero => rfl
  | succ n ih => rw [State.ticks, ih s.tick]; rfl

@[simp] theorem State.ticks_zero (s : State) : State.ticks 0 s = s := rfl

/-- Ticks leave the slot table alone. -/
@[simp] theorem State.slot?_ticks (n : Nat) (s : State) (j : TimerId) : (State.ticks n s).slot? j = s.slot? j := by
  rw [State.ticks_frame n s]; rfl

theorem State.ticks_succ (n : Nat) (s : State) : State.ticks (n + 1) s = State.ticks n s.tick := rfl

@[simp] theorem State.ticks_cfg (n : Nat) (s : State) : (State.ticks n s).cfg = s.cfg := by
  rw [State.ticks_frame n s]
@[simp] theorem State.ticks_cmd (n : Nat) (s : State) : (State.ticks n s).cmd = s.cmd := by
  rw [State.ticks_frame n s]
@[simp] theorem State.ticks_opTimeout (n : Nat) (s : State) : (State.ticks n s).opTimeout = s.opTimeout := by
  rw [State.ticks_frame n s]
@[simp] theorem State.ticks_opCb (n : Nat) (s : State) : (State.ticks n s).opCb = s.opCb := by
  rw [State.ticks_frame n s]
@[simp] theorem State.ticks_opArg (n : Nat) (s : State) : (State.ticks n s).opArg = s.opArg := by
  rw [State.ticks_frame n s]
@[simp] theorem State.ticks_status (n : Nat) (s : State) : (State.ticks n s).status = s.status := by
  rw [State.ticks_frame n s]
@[simp] theorem State.ticks_res0 (n : Nat) (s : State) : (State.ticks n s).res0 = s.res0 := by
  rw [State.ticks_frame n s]
@[simp] theorem State.ticks_res1 (n : Nat) (s : State) : (State.ticks n s).res1 = s.res1 := by
  rw [State.ticks_frame n s]
@[simp] theorem State.ticks_res2 (n : Nat) (s : State) : (State.ticks n s).res2 = s.res2 := by
  rw [State.ticks_frame n s]
@[simp] theorem State.ticks_slots (n : Nat) (s : State) : (State.ticks n s).slots = s.slots := by
  rw [State.ticks_frame n s]
@[simp] theorem State.ticks_runHead (n : Nat) (s : State) : (State.ticks n s).runHead = s.runHead := by
  rw [State.ticks_frame n s]
@[simp] theorem State.ticks_expHead (n : Nat) (s : State) : (State.ticks n s).expHead = s.expHead := by
  rw [State.ticks_frame n s]
@[simp] theorem State.ticks_expTail (n : Nat) (s : State) : (State.ticks n s).expTail = s.expTail := by
  rw [State.ticks_frame n s]
@[simp] theorem State.ticks_runCount (n : Nat) (s : State) : (State.ticks n s).runCount = s.runCount := by
  rw [State.ticks_frame n s]
@[simp] theorem State.ticks_expiredFlag (n : Nat) (s : State) : (State.ticks n s).expiredFlag = s.expiredFlag := by
  rw [State.ticks_frame n s]
@[simp] theorem State.ticks_ocrAuth (n : Nat) (s : State) : (State.ticks n s).ocrAuth = s.ocrAuth := by
  rw [State.ticks_frame n s]
@[simp] theorem State.ticks_sysHigh (n : Nat) (s : State) : (State.ticks n s).sysHigh = s.sysHigh := by
  rw [State.ticks_frame n s]
@[simp] theorem State.ticks_ocr (n : Nat) (s : State) : (State.ticks n s).ocr = s.ocr := by
  rw [State.ticks_frame n s]
@[simp] theorem State.ticks_cmpIe (n : Nat) (s : State) : (State.ticks n s).cmpIe = s.cmpIe := by
  rw [State.ticks_frame n s]
@[simp] theorem State.ticks_ovfIe (n : Nat) (s : State) : (State.ticks n s).ovfIe = s.ovfIe := by
  rw [State.ticks_frame n s]
@[simp] theorem State.ticks_hpCb (n : Nat) (s : State) : (State.ticks n s).hpCb = s.hpCb := by
  rw [State.ticks_frame n s]
@[simp] theorem State.ticks_hpArg (n : Nat) (s : State) : (State.ticks n s).hpArg = s.hpArg := by
  rw [State.ticks_frame n s]
@[simp] theorem State.ticks_hpExpiry (n : Nat) (s : State) : (State.ticks n s).hpExpiry = s.hpExpiry := by
  rw [State.ticks_frame n s]
@[simp] theorem State.ticks_ocrHp (n : Nat) (s : State) : (State.ticks n s).ocrHp = s.ocrHp := by
  rw [State.ticks_frame n s]
@[simp] theorem State.ticks_hpIe (n : Nat) (s : State) : (State.ticks n s).hpIe = s.hpIe := by
  rw [State.ticks_frame n s]
@[simp] theorem State.ticks_gie (n : Nat) (s : State) : (State.ticks n s).gie = s.gie := by
  rw [State.ticks_frame n s]
@[simp] theorem State.ticks_ctx (n : Nat) (s : State) : (State.ticks n s).ctx = s.ctx := by
  rw [State.ticks_frame n s]
@[simp] theorem State.ticks_fault (n : Nat) (s : State) : (State.ticks n s).fault = s.fault := by
  rw [State.ticks_frame n s]
@[simp] theorem State.ticks_sched (n : Nat) (s : State) : (State.ticks n s).sched = s.sched := by
  rw [State.ticks_frame n s]
@[simp] theorem State.ticks_host (n : Nat) (s : State) : (State.ticks n s).host = s.host := by
  rw [State.ticks_frame n s]
@[simp] theorem State.ticks_draws (n : Nat) (s : State) : (State.ticks n s).draws = s.draws := by
  rw [State.ticks_frame n s]
@[simp] theorem State.ticks_callbacks (n : Nat) (s : State) : (State.ticks n s).callbacks = s.callbacks := by
  rw [State.ticks_frame n s]
@[simp] theorem State.ticks_hostRead (n : Nat) (s : State) : (State.ticks n s).hostRead = s.hostRead := by
  rw [State.ticks_frame n s]

/-- A `yield` writes the counter, the three latches and the draws, nothing else. -/
theorem State.yield_frame (s : State) :
    s.yield = { s with
      cnt := s.yield.cnt
      ovfIf := s.yield.ovfIf
      cmpIf := s.yield.cmpIf
      hpIf := s.yield.hpIf
      draws := s.draws.tail } :=
  State.ticks_frame _ _

@[simp] theorem State.yield_cfg (s : State) : s.yield.cfg = s.cfg := by
  rw [State.yield_frame s]
@[simp] theorem State.yield_cmd (s : State) : s.yield.cmd = s.cmd := by
  rw [State.yield_frame s]
@[simp] theorem State.yield_opTimeout (s : State) : s.yield.opTimeout = s.opTimeout := by
  rw [State.yield_frame s]
@[simp] theorem State.yield_opCb (s : State) : s.yield.opCb = s.opCb := by
  rw [State.yield_frame s]
@[simp] theorem State.yield_opArg (s : State) : s.yield.opArg = s.opArg := by
  rw [State.yield_frame s]
@[simp] theorem State.yield_status (s : State) : s.yield.status = s.status := by
  rw [State.yield_frame s]
@[simp] theorem State.yield_res0 (s : State) : s.yield.res0 = s.res0 := by
  rw [State.yield_frame s]
@[simp] theorem State.yield_res1 (s : State) : s.yield.res1 = s.res1 := by
  rw [State.yield_frame s]
@[simp] theorem State.yield_res2 (s : State) : s.yield.res2 = s.res2 := by
  rw [State.yield_frame s]
@[simp] theorem State.yield_slots (s : State) : s.yield.slots = s.slots := by
  rw [State.yield_frame s]
@[simp] theorem State.yield_runHead (s : State) : s.yield.runHead = s.runHead := by
  rw [State.yield_frame s]
@[simp] theorem State.yield_expHead (s : State) : s.yield.expHead = s.expHead := by
  rw [State.yield_frame s]
@[simp] theorem State.yield_expTail (s : State) : s.yield.expTail = s.expTail := by
  rw [State.yield_frame s]
@[simp] theorem State.yield_runCount (s : State) : s.yield.runCount = s.runCount := by
  rw [State.yield_frame s]
@[simp] theorem State.yield_expiredFlag (s : State) : s.yield.expiredFlag = s.expiredFlag := by
  rw [State.yield_frame s]
@[simp] theorem State.yield_ocrAuth (s : State) : s.yield.ocrAuth = s.ocrAuth := by
  rw [State.yield_frame s]
@[simp] theorem State.yield_sysHigh (s : State) : s.yield.sysHigh = s.sysHigh := by
  rw [State.yield_frame s]
@[simp] theorem State.yield_ocr (s : State) : s.yield.ocr = s.ocr := by
  rw [State.yield_frame s]
@[simp] theorem State.yield_cmpIe (s : State) : s.yield.cmpIe = s.cmpIe := by
  rw [State.yield_frame s]
@[simp] theorem State.yield_ovfIe (s : State) : s.yield.ovfIe = s.ovfIe := by
  rw [State.yield_frame s]
@[simp] theorem State.yield_hpCb (s : State) : s.yield.hpCb = s.hpCb := by
  rw [State.yield_frame s]
@[simp] theorem State.yield_hpArg (s : State) : s.yield.hpArg = s.hpArg := by
  rw [State.yield_frame s]
@[simp] theorem State.yield_hpExpiry (s : State) : s.yield.hpExpiry = s.hpExpiry := by
  rw [State.yield_frame s]
@[simp] theorem State.yield_ocrHp (s : State) : s.yield.ocrHp = s.ocrHp := by
  rw [State.yield_frame s]
@[simp] theorem State.yield_hpIe (s : State) : s.yield.hpIe = s.hpIe := by
  rw [State.yield_frame s]
@[simp] theorem State.yield_gie (s : State) : s.yield.gie = s.gie := by
  rw [State.yield_frame s]
@[simp] theorem State.yield_ctx (s : State) : s.yield.ctx = s.ctx := by
  rw [State.yield_frame s]
@[simp] theorem State.yield_fault (s : State) : s.yield.fault = s.fault := by
  rw [State.yield_frame s]
@[simp] theorem State.yield_sched (s : State) : s.yield.sched = s.sched := by
  rw [State.yield_frame s]
@[simp] theorem State.yield_host (s : State) : s.yield.host = s.host := by
  rw [State.yield_frame s]
@[simp] theorem State.yield_draws (s : State) : s.yield.draws = s.draws.tail := by
  rw [State.yield_frame s]
@[simp] theorem State.yield_callbacks (s : State) : s.yield.callbacks = s.callbacks := by
  rw [State.yield_frame s]
@[simp] theorem State.yield_hostRead (s : State) : s.yield.hostRead = s.hostRead := by
  rw [State.yield_frame s]

/-- A `yield` leaves the slot table alone. -/
@[simp] theorem State.slot?_yield (s : State) (j : TimerId) : s.yield.slot? j = s.slot? j :=
  State.slot?_ticks _ _ _

/-- A `yield` with no draw left, or with a draw of zero, lets no tick happen. -/
theorem State.yield_of_zero (s : State) (h : s.draws.headD 0 = 0) :
    s.yield = s.useDraw := by
  rw [State.yield, h, State.ticks_zero]

end Sys2Proof.Machine
end

