-- ==== Sys2Proof/Laws/Bits.lean ====
section
/-! SUPPORT. What the bit-field and clock operations compute, as facts about natural numbers. -/

namespace Sys2Proof.Machine

/-- The low bits of a word, as a number. -/
theorem lowBits_toNat (n : Nat) (x : Word) : (lowBits n x).toNat = x.toNat % 2 ^ n := by
  have h : x.toNat % 2 ^ n ≤ x.toNat := Nat.mod_le _ _
  have := x.isLt
  rw [lowBits, BitVec.toNat_ofNat, Nat.mod_eq_of_lt (by omega)]

/-- The low bits stay below their width. -/
theorem lowBits_lt (n : Nat) (x : Word) : (lowBits n x).toNat < 2 ^ n := by
  rw [lowBits_toNat]
  exact Nat.mod_lt _ (Nat.two_pow_pos n)

/-- A value within the width is its own low bits. -/
theorem lowBits_of_lt {n : Nat} {x : Word} (h : x.toNat < 2 ^ n) : lowBits n x = x := by
  apply BitVec.eq_of_toNat_eq
  rw [lowBits_toNat, Nat.mod_eq_of_lt h]

/-- A width of at most 32 divides the word's modulus. -/
theorem two_pow_dvd {n : Nat} (h : n ≤ 32) : 2 ^ n ∣ 2 ^ 32 := Nat.pow_dvd_pow 2 h

/-- `(t + d) mod 2^W` as a number (40_comparator_clock.md R114). -/
theorem timeAdd_toNat {p : Params} (h : p.w ≤ 32) (t d : Word) :
    (timeAdd p t d).toNat = (t.toNat + d.toNat) % 2 ^ p.w := by
  rw [timeAdd, lowBits_toNat, BitVec.toNat_add, Nat.mod_mod_of_dvd _ (two_pow_dvd h)]

/-- `(t2 - t1) mod 2^W` as a number: what has to be added to `t1` to reach `t2` (R114). -/
theorem timeSub_spec {p : Params} (h : p.w ≤ 32) (t2 t1 : Word) :
    (t1.toNat + (timeSub p t2 t1).toNat) % 2 ^ p.w = t2.toNat % 2 ^ p.w := by
  rw [timeSub, lowBits_toNat, Nat.add_mod_mod]
  have h2 : (t1 + (t2 - t1)).toNat = t2.toNat := by rw [BitVec.add_comm, BitVec.sub_add_cancel]
  rw [BitVec.toNat_add] at h2
  rw [← h2, Nat.mod_mod_of_dvd _ (two_pow_dvd h)]

/-- A difference of times stays below `2^W`. -/
theorem timeSub_lt (p : Params) (t2 t1 : Word) : (timeSub p t2 t1).toNat < 2 ^ p.w := lowBits_lt _ _

/-- A sum of times stays below `2^W`. -/
theorem timeAdd_lt (p : Params) (t d : Word) : (timeAdd p t d).toNat < 2 ^ p.w := lowBits_lt _ _

/-- `hi(t)` as a number (R112). -/
theorem timeHi_toNat (p : Params) (t : Word) : (timeHi p t).toNat = t.toNat % 2 ^ p.w / 2 ^ p.hw := by
  have h1 : t.toNat % 2 ^ p.w ≤ t.toNat := Nat.mod_le _ _
  have h2 : t.toNat % 2 ^ p.w / 2 ^ p.hw ≤ t.toNat % 2 ^ p.w := Nat.div_le_self _ _
  have := t.isLt
  rw [timeHi, BitVec.toNat_ofNat, Nat.mod_eq_of_lt (by omega)]

/-- `lo(t)` as a number (R112). -/
theorem timeLo_toNat (p : Params) (t : Word) : (timeLo p t).toNat = t.toNat % 2 ^ p.hw := lowBits_toNat _ _

/-- `lo(t)` has `HW` bits. -/
theorem timeLo_lt (p : Params) (t : Word) : (timeLo p t).toNat < 2 ^ p.hw := lowBits_lt _ _

/-- The next count has `HW` bits. -/
theorem State.cntNext_lt (s : State) : s.cntNext.toNat < 2 ^ s.cfg.hw := lowBits_lt _ _

/-- The next epoch has `SHW` bits. -/
theorem State.sysHighNext_lt (s : State) : s.sysHighNext.toNat < 2 ^ s.cfg.shw := lowBits_lt _ _

/-- The sample of the time is a `W`-bit value. -/
theorem State.nowTime_lt (s : State) : s.nowTime.toNat < 2 ^ s.cfg.w := lowBits_lt _ _

/-- What a well-formed parameter set says, as inequalities (00_scope.md R6). -/
theorem Params.wellFormed_bounds {p : Params} (h : p.wellFormed = true) :
    28 ≤ p.w ∧ p.w ≤ 32 ∧ 1 ≤ p.hw ∧ p.hw ≤ p.w ∧ p.nTimers ≤ 255 ∧
      p.minTimeout.toNat ≤ p.maxTimeout.toNat ∧ p.maxTimeout.toNat ≤ 2 ^ (p.w - 1) - 1 := by
  simp only [Params.wellFormed, Params.widthOk, Params.counterOk, Params.timersOk, Params.boundsOk,
    Bool.and_eq_true, decide_eq_true_eq] at h
  omega

/-- What it says of the high-priority timer's bound (00_scope.md R6). -/
theorem Params.wellFormed_hpBounds {p : Params} (h : p.wellFormed = true) :
    p.minTimeout.toNat ≤ p.hpMaxTimeout.toNat ∧ p.hpMaxTimeout.toNat ≤ p.maxTimeout.toNat ∧
      p.hpMaxTimeout.toNat ≤ 2 ^ p.hw - 1 := by
  simp only [Params.wellFormed, Params.hpBoundOk, Bool.and_eq_true, decide_eq_true_eq] at h
  omega

/-- The sentinel never names a slot: `NO_TIMER` is outside every admitted range (00_scope.md R6). -/
theorem Params.noTimer_not_slot {p : Params} (h : p.nTimers ≤ 255) (id : TimerId)
    (hid : id.toNat < p.nTimers) : id ≠ noTimer := by
  rintro rfl
  have : (noTimer : TimerId).toNat = 255 := rfl
  omega

end Sys2Proof.Machine
end

