-- ==== Sys2Proof/Laws/Memory.lean ====
section
/-! SUPPORT. The slot table: read after write, a write leaves every other slot alone, and every write
keeps the canonical form. -/

namespace Sys2Proof.Machine

/-- A slot that is there has a TimerId below `N_TIMERS`. -/
theorem State.slot?_lt {s : State} {id : TimerId} {sl : Slot} (h : s.slot? id = some sl) :
    id.toNat < s.cfg.nTimers := by
  unfold State.slot? at h
  split at h
  · assumption
  · cases h

/-- Reading a slot depends only on the parameters and the slot table. -/
theorem State.slot?_congr {s t : State} (hc : t.cfg = s.cfg) (hs : t.slots = s.slots) (id : TimerId) :
    t.slot? id = s.slot? id := by
  simp only [State.slot?, hc, hs]

/-- Reading a slot after a write of that slot gives the written value. -/
theorem State.slot?_modifySlot_same (s : State) (id : TimerId) (f : Slot → Slot) :
    (s.modifySlot id f).slot? id = (s.slot? id).map f := by
  simp only [State.slot?, State.modifySlot_cfg, State.modifySlot_slots, List.getElem?_modify_eq]
  split <;> rfl

/-- Reading a slot after a write of another slot gives what it held. -/
theorem State.slot?_modifySlot_other (s : State) {id j : TimerId} (h : j ≠ id) (f : Slot → Slot) :
    (s.modifySlot id f).slot? j = s.slot? j := by
  have hn : id.toNat ≠ j.toNat := fun e => h (BitVec.eq_of_toNat_eq e).symm
  simp only [State.slot?, State.modifySlot_cfg, State.modifySlot_slots, List.getElem?_modify_ne _ _ hn]

/-- `slot[id].next <- n`, read back anywhere. -/
theorem State.slot?_setNext (s : State) (id n j : TimerId) :
    (s.setNext id n).slot? j =
      if j = id then (s.slot? j).map (fun sl => { sl with next := n }) else s.slot? j := by
  unfold State.setNext
  split
  · subst_vars; exact s.slot?_modifySlot_same _ _
  · exact s.slot?_modifySlot_other ‹_› _

/-- `slot[id].callback <- NULL`, read back anywhere. -/
theorem State.slot?_clearCallback (s : State) (id j : TimerId) :
    (s.clearCallback id).slot? j =
      if j = id then (s.slot? j).map (fun sl => { sl with callback := null }) else s.slot? j := by
  unfold State.clearCallback
  split
  · subst_vars; exact s.slot?_modifySlot_same _ _
  · exact s.slot?_modifySlot_other ‹_› _

/-- Step 4 of the insertion, read back anywhere. -/
theorem State.slot?_fillSlot (s : State) (id j : TimerId) (target cb arg : Word) :
    (s.fillSlot id target cb arg).slot? j =
      if j = id then
        (s.slot? j).map (fun sl => { sl with absExpiry := target, callback := cb, callbackArg := arg })
      else s.slot? j := by
  unfold State.fillSlot
  split
  · subst_vars; exact s.slot?_modifySlot_same _ _
  · exact s.slot?_modifySlot_other ‹_› _

/-- Every slot of a canonical table holds a `W`-bit time. -/
theorem Memory.wf_iff (p : Params) (m : Memory) :
    Memory.wf p m = true ↔ m.length = p.nTimers ∧ ∀ sl ∈ m, sl.absExpiry.toNat < 2 ^ p.w := by
  simp [Memory.wf]

/-- A write that keeps the written slot's time within `W` bits keeps the canonical form. -/
theorem Memory.wf_modify {p : Params} {m : Memory} (h : Memory.wf p m = true) (k : Nat) (f : Slot → Slot)
    (hf : ∀ sl, sl.absExpiry.toNat < 2 ^ p.w → (f sl).absExpiry.toNat < 2 ^ p.w) :
    Memory.wf p (m.modify k f) = true := by
  rw [Memory.wf_iff] at h ⊢
  refine ⟨by simpa using h.1, fun sl hsl => ?_⟩
  obtain ⟨n, hn, rfl⟩ := List.getElem_of_mem hsl
  have hn' : n < m.length := by simpa using hn
  rw [List.getElem_modify]
  split
  · exact hf _ (h.2 _ (List.getElem_mem hn'))
  · exact h.2 _ (List.getElem_mem hn')

/-- `slot[id].next <- n` keeps the canonical form. -/
theorem State.setNext_keeps_wf {s : State} (h : Memory.wf s.cfg s.slots = true) (id n : TimerId) :
    Memory.wf (s.setNext id n).cfg (s.setNext id n).slots = true :=
  Memory.wf_modify h _ _ fun _ hsl => hsl

/-- `slot[id].callback <- NULL` keeps the canonical form. -/
theorem State.clearCallback_keeps_wf {s : State} (h : Memory.wf s.cfg s.slots = true) (id : TimerId) :
    Memory.wf (s.clearCallback id).cfg (s.clearCallback id).slots = true :=
  Memory.wf_modify h _ _ fun _ hsl => hsl

/-- Step 4 of the insertion keeps the canonical form when the target is a `W`-bit time. -/
theorem State.fillSlot_keeps_wf {s : State} (h : Memory.wf s.cfg s.slots = true) (id : TimerId)
    (target cb arg : Word) (ht : target.toNat < 2 ^ s.cfg.w) :
    Memory.wf (s.fillSlot id target cb arg).cfg (s.fillSlot id target cb arg).slots = true :=
  Memory.wf_modify h _ _ fun _ _ => ht

/-- The slot table right after reset is in its canonical form, for every parameter set. -/
theorem Memory.reset_wf (p : Params) : Memory.wf p (State.resetFor p).slots = true := by
  rw [Memory.wf_iff]
  refine ⟨List.length_replicate, fun sl hsl => ?_⟩
  rw [List.eq_of_mem_replicate hsl]
  exact Nat.two_pow_pos p.w

end Sys2Proof.Machine
end

