-- ==== Sys2Proof/Laws/PerInstr.lean ====
section
/-! SUPPORT. Per instruction: its `CMD` word selects the opcode map's row of that instruction
(30_encoding.md R84), whatever its fields are. -/

namespace Sys2Proof.Laws.RowMatch

/-- The operation of an instruction. -/
def opcodeOf : Instr → Opcode
  | .start _ _ => .start
  | .stop _ => .stop
  | .isRunning _ => .isRunning
  | .reconcile => .reconcile
  | .popExpired => .popExpired
  | .now => .now
  | .hpStart _ => .hpStart
  | .hpStop => .hpStop
  | .hpIsRunning => .hpIsRunning

/-- The word of an instruction selects exactly one row of the opcode map, the instruction's own. -/
def Statement (i : Instr) : Prop :=
  ∀ r ∈ opcodeMap, r.selects true (encode i) = true ↔ r.op = opcodeOf i

/-- `START`: every mode and every TimerId. -/
theorem start (mode : BitVec 4) (id : TimerId) : Statement (.start mode id) := by
  have h : ∀ (m : BitVec 4) (i : BitVec 8), ∀ r ∈ opcodeMap,
      (r.selects true (encode (.start m i)) = true ↔ r.op = .start) := by decide +kernel
  exact h mode id

/-- `STOP`: every TimerId. -/
theorem stop (id : TimerId) : Statement (.stop id) := by
  have h : ∀ i : BitVec 8, ∀ r ∈ opcodeMap,
      (r.selects true (encode (.stop i)) = true ↔ r.op = .stop) := by decide +kernel
  exact h id

/-- `IS_RUNNING`: every TimerId. -/
theorem isRunning (id : TimerId) : Statement (.isRunning id) := by
  have h : ∀ i : BitVec 8, ∀ r ∈ opcodeMap,
      (r.selects true (encode (.isRunning i)) = true ↔ r.op = .isRunning) := by decide +kernel
  exact h id

/-- `RECONCILE`. -/
theorem reconcile : Statement .reconcile := by unfold Statement; decide

/-- `POP_EXPIRED`. -/
theorem popExpired : Statement .popExpired := by unfold Statement; decide

/-- `NOW`. -/
theorem now : Statement .now := by unfold Statement; decide

/-- `HP_START`: every mode. -/
theorem hpStart (mode : BitVec 4) : Statement (.hpStart mode) := by
  have h : ∀ m : BitVec 4, ∀ r ∈ opcodeMap,
      (r.selects true (encode (.hpStart m)) = true ↔ r.op = .hpStart) := by decide +kernel
  exact h mode

/-- `HP_STOP`. -/
theorem hpStop : Statement .hpStop := by unfold Statement; decide

/-- `HP_IS_RUNNING`. -/
theorem hpIsRunning : Statement .hpIsRunning := by unfold Statement; decide

end Sys2Proof.Laws.RowMatch
end

