-- ==== Sys2Proof/Laws/Procs.lean ====
section
/-! SUPPORT. One inversion lemma per internal procedure: if it is done, this is everything it can have
written; if it has raised, this is why. Later proofs cite these and do not unfold the procedures. -/

namespace Sys2Proof.Machine

/-! ### Sequencing -/

@[simp] theorem Proc.andThen_done {α β : Type} (a : α) (s : State) (f : α → State → Proc β) :
    (Proc.done a s).andThen f = f a s := rfl

@[simp] theorem Proc.andThen_raised {α β : Type} (s : State) (f : α → State → Proc β) :
    (Proc.raised s : Proc α).andThen f = .raised s := rfl

/-- A sequence is done exactly when both parts are. -/
theorem Proc.andThen_eq_done {α β : Type} {r : Proc α} {f : α → State → Proc β} {b : β} {t : State} :
    r.andThen f = .done b t ↔ ∃ a u, r = .done a u ∧ f a u = .done b t := by
  cases r with
  | done a u => exact ⟨fun h => ⟨a, u, rfl, h⟩, fun ⟨_, _, h, h'⟩ => by cases h; exact h'⟩
  | raised u => exact ⟨(nomatch ·), fun ⟨_, _, h, _⟩ => nomatch h⟩

/-- A sequence has raised when its first part has, or its second part has after it. -/
theorem Proc.andThen_eq_raised {α β : Type} {r : Proc α} {f : α → State → Proc β} {t : State} :
    r.andThen f = .raised t ↔ r = .raised t ∨ ∃ a u, r = .done a u ∧ f a u = .raised t := by
  cases r with
  | done a u =>
    exact ⟨fun h => .inr ⟨a, u, rfl, h⟩, fun h => by
      rcases h with h | ⟨_, _, h, h'⟩
      · exact nomatch h
      · cases h; exact h'⟩
  | raised u =>
    exact ⟨fun h => .inl (by cases h; rfl), fun h => by
      rcases h with h | ⟨_, _, h, _⟩
      · cases h; rfl
      · exact nomatch h⟩

/-- Using a slot is done exactly when the slot is there and its use is done. -/
theorem State.withSlot_eq_done {α : Type} {s : State} {id : TimerId} {f : Slot → Proc α} {a : α} {t : State} :
    s.withSlot id f = .done a t ↔ ∃ sl, s.slot? id = some sl ∧ f sl = .done a t := by
  unfold State.withSlot
  cases s.slot? id <;> simp

/-- Using a slot has raised when there is no such slot, or its use has raised. -/
theorem State.withSlot_eq_raised {α : Type} {s : State} {id : TimerId} {f : Slot → Proc α} {t : State} :
    s.withSlot id f = .raised t ↔
      (s.slot? id = none ∧ t = s.invariantViolated) ∨ ∃ sl, s.slot? id = some sl ∧ f sl = .raised t := by
  unfold State.withSlot
  cases s.slot? id <;> simp [eq_comm]

/-- A walk from a head is done exactly when it stops somewhere and its use is done. -/
theorem State.walkFrom_eq_done {α : Type} {s : State} {go : TimerId → Slot → Bool} {head : TimerId}
    {f : TimerId → TimerId → Proc α} {a : α} {t : State} :
    s.walkFrom go head f = .done a t ↔
      ∃ prev cur, s.walk go s.cfg.nTimers noTimer head = some (prev, cur) ∧ f prev cur = .done a t := by
  unfold State.walkFrom
  cases s.walk go s.cfg.nTimers noTimer head with
  | none => simp
  | some q => exact ⟨fun h => ⟨q.1, q.2, rfl, h⟩, fun ⟨_, _, h, h'⟩ => by cases h; exact h'⟩

/-- A command that keeps its critical region balanced answers a next state whatever its body does. -/
theorem criticalRegion_next (body : State → Proc Reply) (s : State) : ∃ t, criticalRegion body s = .next t := by
  unfold criticalRegion
  split <;> exact ⟨_, rfl⟩

/-- What a command's next state is: the reply of a body that is done, or the state in which it raised. -/
theorem criticalRegion_cases {body : State → Proc Reply} {s t : State} (h : criticalRegion body s = .next t) :
    (∃ r u, body (s.setGie false) = .done r u ∧ t = (u.setGie s.gie).writeReply r) ∨
      body (s.setGie false) = .raised t := by
  unfold criticalRegion at h
  split at h <;> cases h
  · exact .inl ⟨_, _, ‹_›, rfl⟩
  · exact .inr ‹_›

/-! ### The walk -/

/-- Where a walk stops: at `NO_TIMER`, or at a slot that the loop's condition does not pass. -/
theorem State.walk_stops {s : State} {go : TimerId → Slot → Bool} {fuel : Nat} {prev cur p c : TimerId}
    (h : s.walk go fuel prev cur = some (p, c)) :
    c = noTimer ∨ ∃ sl, s.slot? c = some sl ∧ go c sl = false := by
  induction fuel generalizing prev cur with
  | zero =>
    unfold State.walk at h
    split at h
    · exact .inl (by cases h; assumption)
    · split at h
      · cases h
      · split at h
        · cases h
        · cases h; exact .inr ⟨_, ‹_›, Bool.eq_false_of_not_eq_true ‹_›⟩
  | succ n ih =>
    unfold State.walk at h
    split at h
    · exact .inl (by cases h; assumption)
    · split at h
      · cases h
      · split at h
        · exact ih h
        · cases h; exact .inr ⟨_, ‹_›, Bool.eq_false_of_not_eq_true ‹_›⟩

/-- What a walk that stops has answered: where it began, or a slot and that slot's link. -/
theorem State.walk_prev {s : State} {go : TimerId → Slot → Bool} {fuel : Nat} {prev cur p c : TimerId}
    (h : s.walk go fuel prev cur = some (p, c)) :
    (p = prev ∧ c = cur) ∨ ∃ sl, s.slot? p = some sl ∧ sl.next = c := by
  induction fuel generalizing prev cur with
  | zero =>
    unfold State.walk at h
    split at h
    · exact .inl (by cases h; exact ⟨rfl, rfl⟩)
    · split at h
      · cases h
      · split at h
        · cases h
        · exact .inl (by cases h; exact ⟨rfl, rfl⟩)
  | succ n ih =>
    unfold State.walk at h
    split at h
    · exact .inl (by cases h; exact ⟨rfl, rfl⟩)
    · split at h
      · cases h
      · split at h
        · rcases ih h with ⟨rfl, rfl⟩ | hp
          · exact .inr ⟨_, ‹_›, rfl⟩
          · exact .inr hp
        · exact .inl (by cases h; exact ⟨rfl, rfl⟩)

/-! ### The compare programmer -/

/-- With a head that is a slot, `prog_compare` arms or disarms, yields, and makes the safety check. -/
theorem progCompare_head {s : State} {sl : Slot} (hn : s.runHead ≠ noTimer) (h : s.slot? s.runHead = some sl) :
    progCompare s = .done () ((s.armCompare sl.absExpiry).yield.safetyCheck sl.absExpiry) := by
  rw [progCompare, if_neg hn, State.withSlot, h]

/-- With an empty running queue `prog_compare` only disarms (44_compare_programmer.md R176). -/
theorem progCompare_empty {s : State} (h : s.runHead = noTimer) :
    progCompare s = .done () (s.disableCompareIrq.setAuth false) := by
  rw [progCompare, if_pos h]

/-- Everything that `prog_compare` can write; `expired_flag` is set only, never cleared (R175). -/
theorem progCompare_done {s t : State} {a : Unit} (h : progCompare s = .done a t) :
    t = { s with
      expiredFlag := t.expiredFlag
      ocrAuth := t.ocrAuth
      cnt := t.cnt
      ocr := t.ocr
      cmpIe := t.cmpIe
      cmpIf := t.cmpIf
      ovfIf := t.ovfIf
      hpIf := t.hpIf
      draws := t.draws } ∧ (s.expiredFlag = true → t.expiredFlag = true) := by
  by_cases hn : s.runHead = noTimer
  · rw [progCompare_empty hn] at h
    cases h
    exact ⟨rfl, id⟩
  · rw [progCompare, if_neg hn] at h
    obtain ⟨sl, -, h⟩ := State.withSlot_eq_done.1 h
    cases h
    constructor
    · rw [State.safetyCheck, State.yield_frame]
      unfold State.armCompare
      split <;> rfl
    · intro hf
      have : (s.armCompare sl.absExpiry).expiredFlag = true := by
        unfold State.armCompare
        split <;> exact hf
      simp [this]

/-- `prog_compare` raises only for a head that is neither `NO_TIMER` nor a slot (60_exceptions.md R229). -/
theorem progCompare_raised {s t : State} (h : progCompare s = .raised t) :
    s.runHead ≠ noTimer ∧ s.slot? s.runHead = none ∧ t = s.invariantViolated := by
  by_cases hn : s.runHead = noTimer
  · rw [progCompare_empty hn] at h; exact nomatch h
  · rw [progCompare, if_neg hn] at h
    rcases State.withSlot_eq_raised.1 h with ⟨h1, h2⟩ | ⟨_, _, h1⟩
    · exact ⟨hn, h1, h2⟩
    · exact nomatch h1

/-! ### The expired queue -/

/-- What `append_expired` writes: the tail's link and the tail, or both ends of an empty queue (R165). -/
theorem appendExpired_done {h : TimerId} {s t : State} {a : Unit} (hd : appendExpired h s = .done a t) :
    (s.expHead = noTimer ∧ t = (s.setExpHead h).setExpTail h) ∨
      (s.expHead ≠ noTimer ∧ (∃ sl, s.slot? s.expTail = some sl) ∧
        t = (s.setNext s.expTail h).setExpTail h) := by
  unfold appendExpired at hd
  split at hd
  · cases hd; exact .inl ⟨‹_›, rfl⟩
  · obtain ⟨sl, h1, h2⟩ := State.withSlot_eq_done.1 hd
    cases h2
    exact .inr ⟨‹_›, ⟨sl, h1⟩, rfl⟩

/-- What the move of the running queue's head can write (45_reconcile_dispatch.md R190). -/
theorem moveHead_done {s t : State} {a : Unit} (h : moveHead s = .done a t) :
    t = { s with
      slots := t.slots
      runHead := t.runHead
      expHead := t.expHead
      expTail := t.expTail
      runCount := t.runCount } := by
  unfold moveHead at h
  split at h
  · cases h; rfl
  · obtain ⟨sl, -, h2⟩ := State.withSlot_eq_done.1 h
    obtain ⟨_, u, h3, h4⟩ := Proc.andThen_eq_done.1 h2
    cases h4
    rcases appendExpired_done h3 with ⟨-, rfl⟩ | ⟨-, -, rfl⟩ <;> rfl

/-- With `expired_flag` clear, reconciliation is a no-op (45_reconcile_dispatch.md R190). -/
theorem reconcile_clear {s : State} (h : s.expiredFlag = false) : reconcile s = .done () s := by
  rw [reconcile, h]; rfl

/-- Everything that reconciliation can write (45_reconcile_dispatch.md R190). -/
theorem reconcile_done {s t : State} {a : Unit} (h : reconcile s = .done a t) :
    t = { s with
      slots := t.slots
      runHead := t.runHead
      expHead := t.expHead
      expTail := t.expTail
      runCount := t.runCount
      expiredFlag := t.expiredFlag
      ocrAuth := t.ocrAuth
      cnt := t.cnt
      ocr := t.ocr
      cmpIe := t.cmpIe
      cmpIf := t.cmpIf
      ovfIf := t.ovfIf
      hpIf := t.hpIf
      draws := t.draws } := by
  unfold reconcile at h
  split at h
  · obtain ⟨_, u, h1, h2⟩ := Proc.andThen_eq_done.1 h
    have e1 := moveHead_done h1
    have e2 := (progCompare_done h2).1
    rw [e2, e1]; rfl
  · cases h; rfl

/-! ### Insertion and removal -/

/-- Everything that an insertion, after its reconciliation, can write (42_running_queue.md R150). -/
theorem placeRunning_done {id : TimerId} {target cb arg : Word} {s t : State} {a : Unit}
    (h : placeRunning id target cb arg s = .done a t) :
    t = { s with
      slots := t.slots
      runHead := t.runHead
      runCount := s.runCount + 1
      expiredFlag := t.expiredFlag
      ocrAuth := t.ocrAuth
      cnt := t.cnt
      ocr := t.ocr
      cmpIe := t.cmpIe
      cmpIf := t.cmpIf
      ovfIf := t.ovfIf
      hpIf := t.hpIf
      draws := t.draws } := by
  unfold placeRunning at h
  obtain ⟨prev, cur, -, h1⟩ := State.walkFrom_eq_done.1 h
  by_cases hp : prev = noTimer
  · rw [if_pos hp, State.linkRunning, if_pos hp] at h1
    have e := (progCompare_done h1).1
    rw [e]; rfl
  · rw [if_neg hp, State.linkRunning, if_neg hp] at h1
    cases h1
    rfl

/-- What a removal from the running queue writes (42_running_queue.md R152). -/
theorem removeRunning_done {id : TimerId} {s t : State} {r : Removal} (h : removeRunning id s = .done r t) :
    (r = .notFound ∧ t = s) ∨
      (r ≠ .notFound ∧ t = { s with
        slots := t.slots
        runHead := t.runHead
        runCount := s.runCount - 1 }) := by
  unfold removeRunning at h
  obtain ⟨prev, cur, -, h1⟩ := State.walkFrom_eq_done.1 h
  split at h1
  · cases h1; exact .inl ⟨rfl, rfl⟩
  · obtain ⟨sl, -, h2⟩ := State.withSlot_eq_done.1 h1
    cases h2
    refine .inr ⟨by split <;> simp, ?_⟩
    unfold State.unlinkRunning
    split <;> rfl

/-- What a removal from the expired queue writes; `run_count` is not changed (43_expired_queue.md R167). -/
theorem removeExpired_done {id : TimerId} {s t : State} {r : Removal} (h : removeExpired id s = .done r t) :
    (r = .notFound ∧ t = s) ∨
      (r = .removed ∧ t = { s with slots := t.slots, expHead := t.expHead, expTail := t.expTail }) := by
  unfold removeExpired at h
  obtain ⟨prev, cur, -, h1⟩ := State.walkFrom_eq_done.1 h
  split at h1
  · cases h1; exact .inl ⟨rfl, rfl⟩
  · obtain ⟨sl, -, h2⟩ := State.withSlot_eq_done.1 h1
    cases h2
    refine .inr ⟨rfl, ?_⟩
    unfold State.unlinkExpired
    split <;> split <;> rfl

end Sys2Proof.Machine
end

