-- ==== Sys2Proof/Laws/Queues.lean ====
section
/-! SUPPORT. The two queues as lists: what following the links means, where a walk stops on a list, and what
each queue operation does to the lists when it starts from well-formed queues (10_state.md R41). -/

namespace Sys2Proof.Machine

/-! ### Following links -/

/-- From `c` the links lead through exactly the slots of the list, and then to `d`. -/
def Links (f : TimerId → Option Slot) : TimerId → List TimerId → TimerId → Prop
  | c, [], d => c = d
  | c, j :: l, d => c = j ∧ j ≠ noTimer ∧ ∃ sl, f j = some sl ∧ Links f sl.next l d

/-- A list in two parts is followed in two parts. -/
theorem links_append {f : TimerId → Option Slot} {l m : List TimerId} {c e : TimerId} :
    Links f c (l ++ m) e ↔ ∃ d, Links f c l d ∧ Links f d m e := by
  induction l generalizing c with
  | nil => exact ⟨fun h => ⟨c, rfl, h⟩, fun ⟨_, h, h'⟩ => by cases h; exact h'⟩
  | cons j l ih =>
    constructor
    · rintro ⟨rfl, hj, sl, hs, h⟩
      obtain ⟨d, h1, h2⟩ := ih.1 h
      exact ⟨d, ⟨rfl, hj, sl, hs, h1⟩, h2⟩
    · rintro ⟨d, ⟨rfl, hj, sl, hs, h1⟩, h2⟩
      exact ⟨rfl, hj, sl, hs, ih.2 ⟨d, h1, h2⟩⟩

/-- Only the links of the listed slots matter. -/
theorem links_congr {f g : TimerId → Option Slot} {l : List TimerId} {c d : TimerId}
    (h : ∀ j ∈ l, (g j).map (·.next) = (f j).map (·.next)) (hl : Links f c l d) : Links g c l d := by
  induction l generalizing c with
  | nil => exact hl
  | cons j l ih =>
    obtain ⟨rfl, hj, sl, hs, ht⟩ := hl
    have h1 := h c List.mem_cons_self
    rw [hs, Option.map_some, Option.map_eq_some_iff] at h1
    obtain ⟨sl', h2, h3⟩ := h1
    exact ⟨rfl, hj, sl', h2, h3 ▸ ih (fun k hk => h k (List.mem_cons_of_mem _ hk)) ht⟩

/-- Every listed TimerId is a slot and not the sentinel. -/
theorem links_mem {f : TimerId → Option Slot} {l : List TimerId} {c d j : TimerId} (h : Links f c l d)
    (hj : j ∈ l) : j ≠ noTimer ∧ ∃ sl, f j = some sl := by
  induction l generalizing c with
  | nil => exact nomatch hj
  | cons k l ih =>
    obtain ⟨rfl, hk, sl, hs, ht⟩ := h
    rcases List.mem_cons.1 hj with rfl | hj
    · exact ⟨hk, sl, hs⟩
    · exact ih ht hj

/-- The list's head is where the links start. -/
theorem links_start {f : TimerId → Option Slot} {l : List TimerId} {c d : TimerId} (h : Links f c l d) :
    c = l.head?.getD d := by
  cases l with
  | nil => exact h
  | cons j l => exact h.1

/-- Following links to the sentinel is what `chain` computes. -/
theorem chain_eq_some {s : State} {fuel : Nat} {c : TimerId} {l : List TimerId} :
    s.chain fuel c = some l ↔ Links s.slot? c l noTimer ∧ l.length ≤ fuel := by
  induction fuel generalizing c l with
  | zero =>
    rw [State.chain]
    by_cases hc : c = noTimer
    · rw [if_pos hc]
      constructor
      · intro h; cases h; exact ⟨hc, Nat.le_refl 0⟩
      · rintro ⟨-, hl⟩
        rw [List.length_eq_zero_iff.1 (Nat.le_zero.1 hl)]
    · rw [if_neg hc]
      constructor
      · intro h; split at h <;> cases h
      · rintro ⟨h, hl⟩
        rw [List.length_eq_zero_iff.1 (Nat.le_zero.1 hl)] at h
        exact absurd h hc
  | succ n ih =>
    rw [State.chain]
    by_cases hc : c = noTimer
    · rw [if_pos hc]
      constructor
      · intro h; cases h; exact ⟨hc, Nat.zero_le _⟩
      · rintro ⟨h, -⟩
        cases l with
        | nil => rfl
        | cons j l => exact absurd (h.1 ▸ hc) h.2.1
    · rw [if_neg hc]
      cases hs : s.slot? c with
      | none =>
        constructor
        · exact (nomatch ·)
        · rintro ⟨h, -⟩
          cases l with
          | nil => exact absurd h hc
          | cons j l =>
            obtain ⟨rfl, -, sl, h1, -⟩ := h
            rw [hs] at h1; cases h1
      | some sl =>
        simp only [Option.map_eq_some_iff]
        constructor
        · rintro ⟨m, hm, rfl⟩
          obtain ⟨h1, h2⟩ := ih.1 hm
          exact ⟨⟨rfl, hc, sl, hs, h1⟩, Nat.succ_le_succ h2⟩
        · rintro ⟨h, hl⟩
          cases l with
          | nil => exact absurd h hc
          | cons j l =>
            obtain ⟨rfl, -, sl', h1, h2⟩ := h
            rw [hs] at h1; cases h1
            exact ⟨l, ih.2 ⟨h2, Nat.le_of_succ_le_succ hl⟩, rfl⟩

/-- Does the loop's condition pass this TimerId? -/
def State.passesAt (s : State) (go : TimerId → Slot → Bool) (j : TimerId) : Bool :=
  match s.slot? j with
  | some sl => go j sl
  | none => false

/-- Where a walk over a list stops: behind the part that its condition passes. -/
theorem State.walk_links {s : State} (go : TimerId → Slot → Bool) {fuel : Nat} {prev c : TimerId}
    {l : List TimerId} (h : Links s.slot? c l noTimer) (hl : l.length ≤ fuel) :
    s.walk go fuel prev c = some
      ((l.takeWhile (s.passesAt go)).getLast?.getD prev, (l.dropWhile (s.passesAt go)).head?.getD noTimer) := by
  induction l generalizing fuel prev c with
  | nil => cases h; rw [State.walk, if_pos rfl]; rfl
  | cons j l ih =>
    obtain ⟨rfl, hc, sl, hs, ht⟩ := h
    obtain ⟨n, rfl⟩ : ∃ n, fuel = n + 1 := ⟨fuel - 1, by simp only [List.length_cons] at hl; omega⟩
    rw [State.walk, if_neg hc]
    have hp : s.passesAt go c = go c sl := by rw [State.passesAt, hs]
    simp only [hs]
    by_cases hg : go c sl = true
    · rw [if_pos hg, ih ht (Nat.le_of_succ_le_succ hl), List.takeWhile_cons_of_pos (hp.trans hg),
        List.dropWhile_cons_of_pos (hp.trans hg), List.getLast?_cons]
      rfl
    · have hn : ¬ s.passesAt go c = true := by rw [hp]; exact hg
      rw [if_neg hg, List.takeWhile_cons_of_neg hn, List.dropWhile_cons_of_neg hn]
      rfl

/-- The links of a list end where its last slot's link now leads. -/
theorem links_retarget {f g : TimerId → Option Slot} {l : List TimerId} {c d e p : TimerId}
    (hl : Links f c (l ++ [p]) d) (hn : (l ++ [p]).Nodup)
    (hs : ∀ j ∈ l, (g j).map (·.next) = (f j).map (·.next)) (hp : (g p).map (·.next) = some e) :
    Links g c (l ++ [p]) e := by
  obtain ⟨m, h1, rfl, hm, sl, h2, -⟩ := links_append.1 hl
  obtain ⟨sl', h3, h4⟩ := Option.map_eq_some_iff.1 hp
  exact links_append.2 ⟨m, links_congr hs h1, rfl, hm, sl', h3, h4⟩

/-- A listed slot's link is the sentinel or a listed slot. -/
theorem links_next {f : TimerId → Option Slot} {l : List TimerId} {c j : TimerId} {sl : Slot}
    (h : Links f c l noTimer) (hj : j ∈ l) (hs : f j = some sl) : sl.next = noTimer ∨ sl.next ∈ l := by
  induction l generalizing c with
  | nil => exact nomatch hj
  | cons k l ih =>
    obtain ⟨rfl, hk, sl', hs', ht⟩ := h
    rcases List.mem_cons.1 hj with rfl | hj
    · rw [hs] at hs'; cases hs'
      have h1 := links_start ht
      cases l with
      | nil => exact .inl h1
      | cons m l => exact .inr (by rw [h1]; simp)
    · rcases ih ht hj with h1 | h1
      · exact .inl h1
      · exact .inr (List.mem_cons_of_mem _ h1)

/-! ### Well-formed queues -/

/-- A list of different TimerIds below `n` has at most `n` of them. -/
theorem length_le_of_nodup {l : List TimerId} {n : Nat} (hd : l.Nodup) (h : ∀ j ∈ l, j.toNat < n) :
    l.length ≤ n := by
  have h1 : (l.map BitVec.toNat).Nodup :=
    hd.map fun _ _ hab => BitVec.eq_of_toNat_eq hab
  have h2 : (l.map BitVec.toNat) ⊆ List.range n := fun k hk => by
    obtain ⟨j, hj, rfl⟩ := List.mem_map.1 hk
    exact List.mem_range.2 (h j hj)
  simpa using (h1.subperm h2).length_le

/-- `WF` from the links of the two lists; the bounds of clause 1 and 2 follow. -/
theorem queueWF_of_links {t : State} {run exp : List TimerId} (table : Memory.wf t.cfg t.slots = true)
    (hr : Links t.slot? t.runHead run noTimer) (he : Links t.slot? t.expHead exp noTimer)
    (hd : (run ++ exp).Nodup)
    (hc : ∀ id : TimerId, ∀ sl ∈ t.slot? id, (sl.callback ≠ null ↔ id ∈ run ++ exp))
    (ht : t.expTail = exp.getLast?.getD noTimer) (hn : t.runCount.toNat = run.length)
    (hi : ∀ id : TimerId, ∀ sl ∈ t.slot? id, id ∉ run ++ exp → sl.next = noTimer) :
    QueueWF t run exp := by
  have listed : ∀ {l c}, Links t.slot? c l noTimer → ∀ j ∈ l, j.toNat < t.cfg.nTimers := fun h j hj =>
    let ⟨_, _, hs⟩ := links_mem h hj
    State.slot?_lt hs
  have start : ∀ {l c}, Links t.slot? c l noTimer → t.linkOk c := fun {l c} h => by
    have h1 := links_start h
    cases l with
    | nil => exact .inl h1
    | cons j l => exact .inr (listed h c (by rw [h.1]; exact List.mem_cons_self))
  obtain ⟨dr, de, -⟩ := List.nodup_append.1 hd
  exact {
    table, disjoint := hd, callbacks := hc, tail := ht, count := hn, idle := hi
    runHeadOk := start hr
    expHeadOk := start he
    expTailOk := by
      rw [ht]
      cases h : exp.getLast? with
      | none => exact .inl rfl
      | some j => exact .inr (listed he j (List.mem_of_getLast? h))
    nextOk := fun id sl hs => by
      by_cases hm : id ∈ run ++ exp
      · rcases List.mem_append.1 hm with hm | hm
        · exact (links_next hr hm hs).imp_right (listed hr _)
        · exact (links_next he hm hs).imp_right (listed he _)
      · exact .inl (hi id sl hs hm)
    runChain := chain_eq_some.2 ⟨hr, length_le_of_nodup dr (listed hr)⟩
    expChain := chain_eq_some.2 ⟨he, length_le_of_nodup de (listed he)⟩ }

/-- The running queue's links. -/
theorem QueueWF.runLinks {s : State} {run exp : List TimerId} (h : QueueWF s run exp) :
    Links s.slot? s.runHead run noTimer ∧ run.length ≤ s.cfg.nTimers := chain_eq_some.1 h.runChain

/-- The expired queue's links. -/
theorem QueueWF.expLinks {s : State} {run exp : List TimerId} (h : QueueWF s run exp) :
    Links s.slot? s.expHead exp noTimer ∧ exp.length ≤ s.cfg.nTimers := chain_eq_some.1 h.expChain

/-- Every TimerId below `N_TIMERS` is a slot of a canonical table. -/
theorem State.slot?_of_lt {s : State} (h : Memory.wf s.cfg s.slots = true) {id : TimerId}
    (hid : id.toNat < s.cfg.nTimers) : ∃ sl, s.slot? id = some sl := by
  rw [State.slot?, if_pos hid]
  have hl := ((Memory.wf_iff _ _).1 h).1
  exact ⟨_, List.getElem?_eq_getElem (hl ▸ hid)⟩

/-- `WF` reads only the parameters, the slots and the queue registers. -/
theorem QueueWF.congr {s t : State} {run exp : List TimerId} (h : QueueWF s run exp) (hc : t.cfg = s.cfg)
    (hs : t.slots = s.slots) (hr : t.runHead = s.runHead) (he : t.expHead = s.expHead)
    (ht : t.expTail = s.expTail) (hn : t.runCount = s.runCount) : QueueWF t run exp := by
  have hq : ∀ j, t.slot? j = s.slot? j := State.slot?_congr hc hs
  have hf : t.slot? = s.slot? := funext hq
  refine queueWF_of_links (by rw [hc, hs]; exact h.table) (by rw [hf, hr]; exact h.runLinks.1)
    (by rw [hf, he]; exact h.expLinks.1) h.disjoint ?_ (ht.trans h.tail) (by rw [hn]; exact h.count) ?_
  · rw [hf]; exact h.callbacks
  · rw [hf]; exact h.idle

/-! ### Writing links -/

/-- One less, where there was one. -/
theorem count_pred {c : Byte} {n : Nat} (h : c.toNat = n + 1) : (c - 1).toNat = n := by
  have := c.isLt
  rw [BitVec.toNat_sub]
  show (2 ^ 8 - 1 + c.toNat) % 2 ^ 8 = n
  omega

/-- One more, within eight bits. -/
theorem count_succ {c : Byte} {n : Nat} (h : c.toNat = n) (hn : n < 255) : (c + 1).toNat = n + 1 := by
  rw [BitVec.toNat_add]
  show (c.toNat + 1) % 2 ^ 8 = n + 1
  omega

/-- Only links differ: every slot keeps its deadline, callback and argument. -/
def LinksOnly (s t : State) : Prop :=
  ∀ j sl, s.slot? j = some sl → ∃ n, t.slot? j = some { sl with next := n }

theorem LinksOnly.refl (s : State) : LinksOnly s s := fun _ sl h => ⟨sl.next, h⟩

theorem LinksOnly.trans {s t u : State} (h : LinksOnly s t) (h' : LinksOnly t u) : LinksOnly s u :=
  fun j sl hs =>
    let ⟨_, ht⟩ := h j sl hs
    let ⟨n, hu⟩ := h' j _ ht
    ⟨n, hu⟩

/-- A slot that is there afterwards was there before, with the same data. -/
theorem LinksOnly.back {s t : State} (h : LinksOnly s t) (hw : Memory.wf s.cfg s.slots = true)
    (hc : t.cfg = s.cfg) {j : TimerId} {sl : Slot} (ht : t.slot? j = some sl) :
    ∃ sl', s.slot? j = some sl' ∧ sl.callback = sl'.callback := by
  obtain ⟨sl', hs⟩ := State.slot?_of_lt hw (hc ▸ State.slot?_lt ht)
  obtain ⟨n, h1⟩ := h j sl' hs
  rw [ht] at h1
  exact ⟨sl', hs, by rw [Option.some.inj h1]⟩

/-- Writing one link. -/
theorem linksOnly_setNext (s : State) (id n : TimerId) : LinksOnly s (s.setNext id n) := fun j sl hs => by
  rw [State.slot?_setNext, hs]
  split
  · exact ⟨n, rfl⟩
  · exact ⟨sl.next, rfl⟩

/-- The written link, read back. -/
theorem setNext_same (s : State) (id n : TimerId) (sl : Slot) (h : s.slot? id = some sl) :
    (s.setNext id n).slot? id = some { sl with next := n } := by
  rw [State.slot?_setNext, if_pos rfl, h]; rfl

/-- Every other slot, read back. -/
theorem setNext_other (s : State) {id j : TimerId} (n : TimerId) (h : j ≠ id) :
    (s.setNext id n).slot? j = s.slot? j := by
  rw [State.slot?_setNext, if_neg h]

/-! ### Appending and moving (43_expired_queue.md R165, 45_reconcile_dispatch.md R190) -/

/-- Appending a detached slot lengthens the expired queue at its tail. -/
theorem appendExpired_lists {s : State} {exp : List TimerId} {h : TimerId} {sl : Slot}
    (hw : Memory.wf s.cfg s.slots = true) (he : Links s.slot? s.expHead exp noTimer)
    (ht : s.expTail = exp.getLast?.getD noTimer) (hh : s.slot? h = some sl) (hn : sl.next = noTimer)
    (hne : h ≠ noTimer) (hd : (exp ++ [h]).Nodup) :
    ∃ m, appendExpired h s = .done () m ∧
      m = { s with slots := m.slots, expHead := m.expHead, expTail := m.expTail } ∧
      Memory.wf m.cfg m.slots = true ∧ Links m.slot? m.expHead (exp ++ [h]) noTimer ∧ m.expTail = h ∧
      LinksOnly s m ∧ ∀ j, exp.getLast? ≠ some j → m.slot? j = s.slot? j := by
  have tip : ∀ m : State, m.slot? h = s.slot? h → Links m.slot? h [h] noTimer := fun m hm =>
    ⟨rfl, hne, sl, hm.trans hh, hn⟩
  rcases List.eq_nil_or_concat exp with rfl | ⟨l, e, rfl⟩
  · have hx : s.expHead = noTimer := he
    refine ⟨(s.setExpHead h).setExpTail h, by rw [appendExpired, if_pos hx], rfl, hw, tip _ rfl, rfl,
      LinksOnly.refl s, fun _ _ => rfl⟩
  · rw [List.concat_eq_append] at *
    have hte : s.expTail = e := by rw [ht, List.getLast?_concat]; rfl
    obtain ⟨hene, se, hse⟩ := links_mem he (List.mem_append_right l (List.mem_singleton_self e))
    have hx : s.expHead ≠ noTimer := by
      rw [links_start he]
      cases l with
      | nil => exact hene
      | cons a l => exact (links_mem he List.mem_cons_self).1
    obtain ⟨hle, -, hdis⟩ := List.nodup_append.1 hd
    have hhe : h ≠ e := fun e' => hdis e (List.mem_append_right _ (List.mem_singleton_self e)) h
      (List.mem_singleton_self h) e'.symm
    have hle' : e ∉ l := fun hm => (List.nodup_append.1 hle).2.2 e hm e (List.mem_singleton_self e) rfl
    refine ⟨(s.setNext e h).setExpTail h, ?_, rfl, State.setNext_keeps_wf hw e h, ?_, rfl,
      linksOnly_setNext s e h, fun j hj => setNext_other s h fun e' => hj ?_⟩
    · rw [appendExpired, if_neg hx, hte, State.withSlot, hse]
    · exact links_append.2 ⟨h, links_retarget he hle
        (fun j hj => congrArg _ (setNext_other s h fun e' => hle' (e' ▸ hj)))
        (congrArg _ (setNext_same s e h se hse)), tip _ (setNext_other s h hhe)⟩
    · rw [e', List.getLast?_concat]

/-- From well-formed queues the head moves, and the queues are well formed again. -/
theorem moveHead_lists {s : State} {run exp : List TimerId} (h : QueueWF s run exp) :
    ∃ m, moveHead s = .done () m ∧ HeadMoved s m run exp := by
  cases run with
  | nil =>
    have h0 : s.runHead = noTimer := h.runLinks.1
    refine ⟨s, by rw [moveHead, if_pos h0], rfl, ?_, LinksOnly.refl s, fun _ _ => rfl⟩
    rw [List.tail_nil, List.head?_nil, Option.toList_none, List.append_nil]
    exact h
  | cons hd r =>
    obtain ⟨hrh, hne, sl, hs, hr⟩ := h.runLinks.1
    have hdis := h.disjoint
    rw [List.cons_append, List.nodup_cons, List.mem_append, not_or] at hdis
    obtain ⟨⟨hr0, he0⟩, hre⟩ := hdis
    obtain ⟨hrn, hen, hdj⟩ := List.nodup_append.1 hre
    have hperm : ∀ id : TimerId, id ∈ r ++ (exp ++ [hd]) ↔ id ∈ hd :: r ++ exp := fun id => by
      simp only [List.mem_append, List.mem_cons, List.not_mem_nil, or_false]; tauto
    have hxd : (exp ++ [hd]).Nodup := List.nodup_append.2 ⟨hen, List.nodup_singleton _, fun a ha b hb e =>
      he0 (List.mem_singleton.1 hb ▸ e ▸ ha)⟩
    have hnd : (r ++ (exp ++ [hd])).Nodup := List.nodup_append.2 ⟨hrn, hxd, fun a ha b hb e => by
      rcases List.mem_append.1 hb with hb | hb
      · exact hdj a ha b hb e
      · exact hr0 (List.mem_singleton.1 hb ▸ e ▸ ha)⟩
    let s1 := (s.setRunHead sl.next).setNext hd noTimer
    have hw1 : Memory.wf s1.cfg s1.slots = true :=
      State.setNext_keeps_wf (s := s.setRunHead sl.next) h.table hd noTimer
    have ho1 : ∀ j, j ≠ hd → s1.slot? j = s.slot? j := fun j hj =>
      setNext_other (s.setRunHead sl.next) noTimer hj
    have hl1 : LinksOnly s s1 := linksOnly_setNext (s.setRunHead sl.next) hd noTimer
    obtain ⟨m, hm, hfr, hwm, hem, htm, hlm, hom⟩ := appendExpired_lists (s := s1) (exp := exp) (h := hd)
      hw1 (links_congr (fun j hj => congrArg _ (ho1 j fun e => he0 (e ▸ hj))) h.expLinks.1) h.tail
      (setNext_same (s.setRunHead sl.next) hd noTimer sl hs) rfl hne hxd
    have hmc : m.cfg = s.cfg := by rw [hfr]; rfl
    have hmr : m.runHead = sl.next := by rw [hfr]; rfl
    have hmn : m.runCount = s.runCount := by rw [hfr]; rfl
    have hlin : LinksOnly s m := hl1.trans hlm
    have hoth : ∀ j, j ∉ moveWrites (hd :: r) exp → m.slot? j = s.slot? j := fun j hj => by
      simp only [moveWrites, List.mem_cons, Option.mem_toList, not_or] at hj
      rw [hom j hj.2, ho1 j hj.1]
    refine ⟨m.decRunCount, ?_, ?_, ?_, hlin, hoth⟩
    · rw [moveHead, if_neg (hrh ▸ hne), hrh, State.withSlot, hs]
      show (appendExpired hd s1).andThen _ = _
      rw [hm]; rfl
    · show m.decRunCount = _
      rw [hfr]; rfl
    · rw [List.tail_cons, List.head?_cons, Option.toList_some]
      refine queueWF_of_links (t := m.decRunCount) hwm ?_ hem hnd ?_ ?_ ?_ ?_
      · rw [show m.decRunCount.runHead = sl.next from hmr]
        refine links_congr (fun j hj => congrArg _ ?_) hr
        refine (hom j fun e => ?_).trans (ho1 j fun e => hr0 (e ▸ hj))
        exact hdj j hj j (List.mem_of_getLast? e) rfl
      · intro id sl' hs'
        obtain ⟨sl0, h0, hcb⟩ := hlin.back h.table hmc (t := m) hs'
        rw [hcb, hperm]
        exact h.callbacks id sl0 h0
      · rw [List.getLast?_concat]; exact htm
      · show (m.runCount - 1).toNat = r.length
        rw [hmn]; exact count_pred h.count
      · intro id sl' hs' hid
        rw [hperm] at hid
        refine h.idle id sl' ?_ hid
        have hj : id ∉ moveWrites (hd :: r) exp := fun hm => by
          simp only [moveWrites, List.mem_cons, Option.mem_toList] at hm
          rcases hm with rfl | hm
          · exact hid List.mem_cons_self
          · exact hid (List.mem_append_right _ (List.mem_of_getLast? hm))
        exact (hoth id hj).symm.trans hs'

/-! ### Inserting (42_running_queue.md R150, R151) -/

/-- A list is taken apart by what its own members satisfy. -/
theorem splitWhile_congr {p q : TimerId → Bool} {l : List TimerId} (h : ∀ j ∈ l, p j = q j) :
    l.takeWhile p = l.takeWhile q ∧ l.dropWhile p = l.dropWhile q := by
  induction l with
  | nil => exact ⟨rfl, rfl⟩
  | cons j l ih =>
    have hj := h j List.mem_cons_self
    obtain ⟨h1, h2⟩ := ih fun k hk => h k (List.mem_cons_of_mem _ hk)
    simp only [List.takeWhile_cons, List.dropWhile_cons, hj, h1, h2, and_self]

/-- The filled slot, read back. -/
theorem fillSlot_same (s : State) (id : TimerId) (target cb arg : Word) (sl : Slot)
    (h : s.slot? id = some sl) :
    (s.fillSlot id target cb arg).slot? id = some ⟨target, cb, arg, sl.next⟩ := by
  rw [State.slot?_fillSlot, if_pos rfl, h]; rfl

/-- Every other slot, read back. -/
theorem fillSlot_other (s : State) {id j : TimerId} (target cb arg : Word) (h : j ≠ id) :
    (s.fillSlot id target cb arg).slot? j = s.slot? j := by
  rw [State.slot?_fillSlot, if_neg h]

/-- From well-formed queues an idle slot is inserted at its place, and the compare programmer runs exactly
when it is the new head. -/
theorem placeRunning_lists {s : State} {run exp : List TimerId} {id : TimerId} {target cb arg : Word}
    (h : QueueWF s run exp) (hN : s.cfg.nTimers ≤ 255) (hid : id.toNat < s.cfg.nTimers)
    (hidle : id ∉ run ++ exp) (hcb : cb ≠ null) (ht : target.toNat < 2 ^ s.cfg.w) :
    ∃ m, InsertedInto s m run exp id target cb arg ∧
      placeRunning id target cb arg s = if m.runHead = id then progCompare m else .done () m := by
  obtain ⟨hrl, hrn⟩ := h.runLinks
  rw [List.mem_append, not_or] at hidle
  obtain ⟨hir, hie⟩ := hidle
  obtain ⟨sid, hsid⟩ := State.slot?_of_lt h.table hid
  have hidn : id ≠ noTimer := Params.noTimer_not_slot hN id hid
  let q : TimerId → Bool := fun j => isBefore s.cfg (s.deadline j) target
  have hq : ∀ j ∈ run, s.passesAt (fun _ sl => passes s.cfg target sl) j = q j := fun j hj => by
    obtain ⟨-, sl, hs⟩ := links_mem hrl hj
    simp only [State.passesAt, hs, passes, q, State.deadline]
  obtain ⟨htw, hdw⟩ := splitWhile_congr hq
  have hwalk := State.walk_links (s := s) (fun _ sl => passes s.cfg target sl) (prev := noTimer) hrl hrn
  rw [htw, hdw] at hwalk
  have hsplit : run = run.takeWhile q ++ run.dropWhile q := List.takeWhile_append_dropWhile.symm
  have hins : s.insertedRun run id target = run.takeWhile q ++ id :: run.dropWhile q := rfl
  generalize hl1 : run.takeWhile q = l1 at hsplit hwalk hins
  generalize hl2 : run.dropWhile q = l2 at hsplit hwalk hins
  obtain ⟨hrd, hed, hdj⟩ := List.nodup_append.1 h.disjoint
  have hperm : ∀ j : TimerId, j ∈ (l1 ++ id :: l2) ++ exp ↔ j = id ∨ j ∈ run ++ exp := fun j => by
    rw [hsplit]; simp only [List.mem_append, List.mem_cons]; tauto
  have hrd' : (l1 ++ id :: l2).Nodup := List.perm_middle.nodup_iff.2
    (List.nodup_cons.2 ⟨hsplit ▸ hir, hsplit ▸ hrd⟩)
  have hnd : ((l1 ++ id :: l2) ++ exp).Nodup := List.nodup_append.2 ⟨hrd', hed, fun a ha b hb e => by
    rcases List.mem_append.1 ha with ha | ha
    · exact hdj a (hsplit ▸ List.mem_append_left _ ha) b hb e
    · rcases List.mem_cons.1 ha with rfl | ha
      · exact hie (e ▸ hb)
      · exact hdj a (hsplit ▸ List.mem_append_right _ ha) b hb e⟩
  have hlen : run.length < 255 := by
    have := length_le_of_nodup (n := s.cfg.nTimers) (List.nodup_cons.2 ⟨hir, hrd⟩) fun j hj => by
      rcases List.mem_cons.1 hj with rfl | hj
      · exact hid
      · obtain ⟨-, _, hs⟩ := links_mem hrl hj; exact State.slot?_lt hs
    rw [List.length_cons] at this; omega
  rw [hsplit, links_append] at hrl
  obtain ⟨d, hL1, hL2⟩ := hrl
  have hd : d = l2.head?.getD noTimer := links_start hL2
  rw [← hd] at hwalk
  -- what is left, given the state before the slot is filled
  have finish : ∀ u : State, u = { s with slots := u.slots, runHead := u.runHead } →
      Memory.wf u.cfg u.slots = true → u.slot? id = some { sid with next := d } →
      (∀ j, j ≠ id → l1.getLast? ≠ some j → u.slot? j = s.slot? j) → LinksOnly s u →
      Links u.slot? u.runHead l1 id →
      InsertedInto s ((u.fillSlot id target cb arg).incRunCount) run exp id target cb arg := by
    intro u hfr hw hui hoth hlin hlnk
    have huc : u.cfg = s.cfg := by rw [hfr]
    have hmo : ∀ j, j ≠ id → ((u.fillSlot id target cb arg).incRunCount).slot? j = u.slot? j :=
      fun j hj => fillSlot_other u target cb arg hj
    have hmi : ((u.fillSlot id target cb arg).incRunCount).slot? id = some ⟨target, cb, arg, d⟩ :=
      fillSlot_same u id target cb arg _ hui
    have hni : ∀ j ∈ run, j ≠ id := fun j hj e => hir (e ▸ hj)
    refine ⟨?_, ?_, ⟨d, hmi⟩, fun j sl hj hs => ?_, fun j hj hg => ?_⟩
    · rw [hfr]; rfl
    · rw [hins]
      refine queueWF_of_links ?_ ?_ ?_ hnd ?_ ?_ ?_ ?_
      · exact State.fillSlot_keeps_wf hw id target cb arg (by rw [huc]; exact ht)
      · refine links_append.2 ⟨id, links_congr (fun j hj => congrArg _ (hmo j (hni j ?_))) hlnk, rfl, hidn, _,
          hmi, links_congr (fun j hj => congrArg _ ?_) hL2⟩
        · rw [hsplit]; exact List.mem_append_left _ hj
        · have hjr : j ∈ run := by rw [hsplit]; exact List.mem_append_right _ hj
          refine (hmo j (hni j hjr)).trans (hoth j (hni j hjr) fun e => ?_)
          rw [hsplit] at hrd
          exact (List.nodup_append.1 hrd).2.2 j (List.mem_of_getLast? e) j hj rfl
      · have he : ((u.fillSlot id target cb arg).incRunCount).expHead = s.expHead := by rw [hfr]; rfl
        rw [he]
        refine links_congr (fun j hj => congrArg _ ?_) h.expLinks.1
        have hji : j ≠ id := fun e => hie (e ▸ hj)
        refine (hmo j hji).trans (hoth j hji fun e => ?_)
        exact hdj j (hsplit ▸ List.mem_append_left _ (List.mem_of_getLast? e)) j hj rfl
      · intro j sl hs
        rw [hperm]
        by_cases hj : j = id
        · subst hj
          rw [Option.mem_def, hmi] at hs
          exact ⟨fun _ => .inl rfl, fun _ => by rw [← Option.some.inj hs]; exact hcb⟩
        · rw [Option.mem_def, hmo j hj] at hs
          obtain ⟨sl', h1, h2⟩ := hlin.back h.table huc hs
          rw [h2, h.callbacks j sl' h1]
          exact ⟨.inr, fun e => e.resolve_left hj⟩
      · have he : ((u.fillSlot id target cb arg).incRunCount).expTail = s.expTail := by rw [hfr]; rfl
        exact he.trans h.tail
      · have he : ((u.fillSlot id target cb arg).incRunCount).runCount = s.runCount + 1 := by rw [hfr]; rfl
        rw [he, count_succ h.count hlen]
        have := congrArg List.length hsplit
        simp only [List.length_append, List.length_cons] at this ⊢
        omega
      · intro j sl hs hj
        rw [hperm, not_or] at hj
        rw [Option.mem_def, hmo j hj.1, hoth j hj.1 fun e => hj.2 (List.mem_append_left _
          (hsplit ▸ List.mem_append_left _ (List.mem_of_getLast? e)))] at hs
        exact h.idle j sl hs hj.2
    · obtain ⟨n, hn⟩ := hlin j sl hs
      exact ⟨n, (hmo j hj).trans hn⟩
    · rw [show (fun k => isBefore s.cfg (s.deadline k) target) = q from rfl, hl1] at hg
      exact (hmo j hj).trans (hoth j hj hg)
  have hbase : Memory.wf (s.setNext id d).cfg (s.setNext id d).slots = true :=
    State.setNext_keeps_wf h.table id d
  have hni1 : ∀ j ∈ l1, j ≠ id := fun j hj e => hir (hsplit ▸ List.mem_append_left _ (e ▸ hj))
  rcases List.eq_nil_or_concat l1 with rfl | ⟨l0, p, rfl⟩
  · refine ⟨_, finish ((s.setNext id d).setRunHead id) rfl hbase (setNext_same s id d sid hsid)
      (fun j hj _ => setNext_other s d hj) (linksOnly_setNext s id d) rfl, ?_⟩
    rw [placeRunning, State.walkFrom, hwalk]
    show (if noTimer = noTimer then progCompare
      (((s.setNext id d).linkRunning noTimer id).fillSlot id target cb arg).incRunCount else _) = _
    rw [if_pos rfl, State.linkRunning, if_pos rfl]
    exact (if_pos rfl).symm
  · rw [List.concat_eq_append] at *
    have hpm : p ∈ l0 ++ [p] := List.mem_append_right _ (List.mem_singleton_self p)
    obtain ⟨hpn, sp, hsp⟩ := links_mem hL1 hpm
    have hpi : p ≠ id := hni1 p hpm
    have hsp1 : (s.setNext id d).slot? p = some sp := (setNext_other s d hpi).trans hsp
    have hl0 : (l0 ++ [p]).Nodup := by
      rw [hsplit] at hrd; exact (List.nodup_append.1 hrd).1
    have hpl0 : p ∉ l0 := fun hm => (List.nodup_append.1 hl0).2.2 p hm p (List.mem_singleton_self p) rfl
    have hrh : s.runHead ≠ id := by
      rw [links_start hL1]
      cases l0 with
      | nil => exact hpi
      | cons a l => exact hni1 a List.mem_cons_self
    refine ⟨_, finish ((s.setNext id d).setNext p id) rfl (State.setNext_keeps_wf hbase p id)
      ((setNext_other _ id hpi.symm).trans (setNext_same s id d sid hsid)) (fun j hj hg => ?_)
      ((linksOnly_setNext s id d).trans (linksOnly_setNext _ p id)) ?_, ?_⟩
    · rw [List.getLast?_concat] at hg
      exact (setNext_other _ id fun e : j = p => hg (e ▸ rfl)).trans (setNext_other s d hj)
    · refine links_retarget hL1 hl0 (fun j hj => congrArg _ ?_)
        (congrArg _ (setNext_same _ p id sp hsp1))
      exact (setNext_other _ id fun e : j = p => hpl0 (e ▸ hj)).trans
        (setNext_other s d (hni1 j (List.mem_append_left _ hj)))
    · rw [placeRunning, State.walkFrom, hwalk, List.getLast?_concat]
      show (if p = noTimer then _ else _) = _
      rw [if_neg hpn, State.linkRunning, Option.getD_some, if_neg hpn]
      exact (if_neg hrh).symm

/-! ### Removing (42_running_queue.md R152, 43_expired_queue.md R167) -/

/-- The cleared slot, read back anywhere. -/
theorem clearCallback_same (s : State) (id : TimerId) (sl : Slot) (h : s.slot? id = some sl) :
    (s.clearCallback id).slot? id = some { sl with callback := null } := by
  rw [State.slot?_clearCallback, if_pos rfl, h]; rfl

/-- Every other slot, read back. -/
theorem clearCallback_other (s : State) {id j : TimerId} (h : j ≠ id) :
    (s.clearCallback id).slot? j = s.slot? j := by
  rw [State.slot?_clearCallback, if_neg h]

/-- The walk by TimerId stops in front of it. -/
theorem splitAt_mem {l : List TimerId} {id : TimerId} (h : id ∈ l) (hd : l.Nodup) :
    ∃ l1 l2, l = l1 ++ id :: l2 ∧ l.takeWhile (· != id) = l1 ∧ l.dropWhile (· != id) = id :: l2 ∧
      l.erase id = l1 ++ l2 ∧ id ∉ l1 ∧ id ∉ l2 := by
  induction l with
  | nil => exact nomatch h
  | cons a l ih =>
    obtain ⟨ha, hd'⟩ := List.nodup_cons.1 hd
    by_cases he : a = id
    · subst he
      exact ⟨[], l, rfl, by simp, by simp, by simp, List.not_mem_nil, ha⟩
    · obtain ⟨l1, l2, h1, h2, h3, h4, h5, h6⟩ := ih ((List.mem_cons.1 h).resolve_left (Ne.symm he)) hd'
      refine ⟨a :: l1, l2, by rw [h1]; rfl, ?_, ?_, ?_, ?_, h6⟩
      · rw [List.takeWhile_cons_of_pos (by simpa using he), h2]
      · rw [List.dropWhile_cons_of_pos (by simpa using he), h3]
      · rw [List.erase_cons_tail (by simpa using he), h4]; rfl
      · rw [List.mem_cons, not_or]; exact ⟨Ne.symm he, h5⟩

/-- A walk by TimerId over a list that does not hold it goes to the end. -/
theorem splitAt_not_mem {l : List TimerId} {id : TimerId} (h : id ∉ l) : l.dropWhile (· != id) = [] := by
  rw [List.dropWhile_eq_nil_iff]
  exact fun j hj => by simpa using fun e : j = id => h (e ▸ hj)

/-- Where a walk by TimerId stops on a queue. -/
theorem walk_by_id {s : State} {c : TimerId} {l : List TimerId} (id : TimerId)
    (h : Links s.slot? c l noTimer) (hl : l.length ≤ s.cfg.nTimers) :
    s.walk (fun cur _ => cur != id) s.cfg.nTimers noTimer c = some
      ((l.takeWhile (· != id)).getLast?.getD noTimer, (l.dropWhile (· != id)).head?.getD noTimer) := by
  have hq : ∀ j ∈ l, s.passesAt (fun cur _ => cur != id) j = (j != id) := fun j hj => by
    obtain ⟨-, sl, hs⟩ := links_mem h hj
    simp only [State.passesAt, hs]
  obtain ⟨h1, h2⟩ := splitWhile_congr hq
  rw [State.walk_links _ h hl, h1, h2]

/-- A list without one of its slots: its head, or its predecessor's link, skips the slot. -/
theorem links_skip {f g : TimerId → Option Slot} {c c' id : TimerId} {l1 l2 : List TimerId} {sl : Slot}
    (h : Links f c (l1 ++ id :: l2) noTimer) (hd : (l1 ++ id :: l2).Nodup) (hs : f id = some sl)
    (ho : ∀ j ∈ l1 ++ l2, l1.getLast? ≠ some j → (g j).map (·.next) = (f j).map (·.next))
    (hp : ∀ p, l1.getLast? = some p → (g p).map (·.next) = some sl.next)
    (hc : c' = if l1 = [] then sl.next else c) : Links g c' (l1 ++ l2) noTimer := by
  obtain ⟨d, h1, rfl, -, sl', hs', h2⟩ := links_append.1 h
  rw [hs] at hs'; cases hs'
  have hd' : (l1 ++ l2).Nodup := (List.perm_middle.nodup_iff.1 hd).of_cons
  have h2' : Links g sl.next l2 noTimer := links_congr (fun j hj =>
    ho j (List.mem_append_right _ hj) fun e =>
      (List.nodup_append.1 hd').2.2 j (List.mem_of_getLast? e) j hj rfl) h2
  rcases List.eq_nil_or_concat l1 with rfl | ⟨l0, p, rfl⟩
  · rw [hc, if_pos rfl]; exact h2'
  · rw [List.concat_eq_append] at *
    have hn : (l0 ++ [p]).Nodup := (List.nodup_append.1 hd').1
    have hpl : p ∉ l0 := fun hm => (List.nodup_append.1 hn).2.2 p hm p (List.mem_singleton_self p) rfl
    rw [hc, if_neg (by simp)]
    refine links_append.2 ⟨_, links_retarget h1 hn (fun j hj => ho j ?_ ?_)
      (hp p List.getLast?_concat), h2'⟩
    · exact List.mem_append_left _ (List.mem_append_left _ hj)
    · rw [List.getLast?_concat]; exact fun e => hpl (Option.some.inj e ▸ hj)

/-- Membership in the two queues without one slot. -/
theorem mem_erase_queues {run exp : List TimerId} {id : TimerId} (hd : (run ++ exp).Nodup) (j : TimerId) :
    j ∈ run.erase id ++ exp.erase id ↔ j ≠ id ∧ j ∈ run ++ exp := by
  obtain ⟨hr, he, -⟩ := List.nodup_append.1 hd
  rw [List.mem_append, hr.mem_erase_iff, he.mem_erase_iff, List.mem_append]
  tauto

/-- A removal from its links: what is left to show is the links, the tail and the count. -/
theorem removedFrom_of_links {s u : State} {run exp : List TimerId} {id : TimerId} {sl : Slot}
    (h : QueueWF s run exp) (hs : s.slot? id = some sl) (hfr : QueueFieldsOnly s u)
    (hw : Memory.wf u.cfg u.slots = true) (hui : u.slot? id = some { sl with next := noTimer })
    (hoth : ∀ j, j ≠ id →
      ((if id ∈ run then run else exp).takeWhile fun k => k != id).getLast? ≠ some j →
      u.slot? j = s.slot? j)
    (hlin : LinksOnly s u) (hr : Links u.slot? u.runHead (run.erase id) noTimer)
    (he : Links u.slot? u.expHead (exp.erase id) noTimer)
    (ht : u.expTail = (exp.erase id).getLast?.getD noTimer)
    (hn : u.runCount.toNat = (run.erase id).length) : RemovedFrom s (u.clearCallback id) run exp id := by
  have hci := clearCallback_same u id _ hui
  have hco : ∀ j, j ≠ id → (u.clearCallback id).slot? j = u.slot? j := fun j => clearCallback_other u
  have hnx : ∀ j, ((u.clearCallback id).slot? j).map (·.next) = (u.slot? j).map (·.next) := fun j => by
    by_cases hj : j = id
    · rw [hj, hci, hui]; rfl
    · rw [hco j hj]
  have hcfg : u.cfg = s.cfg := by rw [hfr]
  have hpred : ∀ j, ((if id ∈ run then run else exp).takeWhile fun k => k != id).getLast? = some j →
      j ∈ run ++ exp := fun j hj => by
    have := (List.takeWhile_sublist _).subset (List.mem_of_getLast? hj)
    split at this
    · exact List.mem_append_left _ this
    · exact List.mem_append_right _ this
  obtain ⟨hrd, hed, hdj⟩ := List.nodup_append.1 h.disjoint
  refine ⟨?_, ?_, fun sl' hs' => ?_, fun j sl' hj hs' => ?_, fun j hj hg => (hco j hj).trans (hoth j hj hg)⟩
  · unfold QueueFieldsOnly; rw [hfr]; rfl
  · refine queueWF_of_links (State.clearCallback_keeps_wf hw id) (links_congr (fun j _ => hnx j) hr)
      (links_congr (fun j _ => hnx j) he) ?_ ?_ ht hn ?_
    · exact List.nodup_append.2 ⟨hrd.erase _, hed.erase _, fun a ha b hb =>
        hdj a (List.mem_of_mem_erase ha) b (List.mem_of_mem_erase hb)⟩
    · intro j sl' hs'
      rw [mem_erase_queues h.disjoint]
      by_cases hj : j = id
      · rw [Option.mem_def, hj, hci] at hs'
        rw [← Option.some.inj hs']
        exact ⟨fun e => absurd rfl e, fun e => absurd hj e.1⟩
      · rw [Option.mem_def, hco j hj] at hs'
        obtain ⟨sl0, h1, h2⟩ := hlin.back h.table hcfg hs'
        rw [h2, h.callbacks j sl0 h1]
        exact ⟨fun e => ⟨hj, e⟩, And.right⟩
    · intro j sl' hs' hj'
      rw [mem_erase_queues h.disjoint, not_and] at hj'
      by_cases hj : j = id
      · rw [Option.mem_def, hj, hci] at hs'
        rw [← Option.some.inj hs']
      · rw [Option.mem_def, hco j hj, hoth j hj fun e => hj' hj (hpred j e)] at hs'
        exact h.idle j sl' hs' (hj' hj)
  · rw [hs] at hs'; cases hs'; exact hci
  · obtain ⟨n, hn⟩ := hlin j sl' hs'
    exact ⟨n, (hco j hj).trans hn⟩

/-- A slot on neither queue is found by neither removal. -/
theorem removals_not_found {s : State} {run exp : List TimerId} {id : TimerId} (h : QueueWF s run exp) :
    (id ∉ run → removeRunning id s = .done .notFound s) ∧
    (id ∉ exp → removeExpired id s = .done .notFound s) := by
  constructor <;> intro hm
  · rw [removeRunning, State.walkFrom, walk_by_id id h.runLinks.1 h.runLinks.2, splitAt_not_mem hm]
    exact if_pos rfl
  · rw [removeExpired, State.walkFrom, walk_by_id id h.expLinks.1 h.expLinks.2, splitAt_not_mem hm]
    exact if_pos rfl

/-- The two writes of a removal, besides the head and the tail: the predecessor's link, if there is a
predecessor, and the slot's own. -/
theorem skip_slot {s : State} {l1 : List TimerId} {id : TimerId} {sl : Slot} (u : State)
    (hw : Memory.wf s.cfg s.slots = true) (hs : s.slot? id = some sl) (hn : id ∉ l1)
    (hu : u.cfg = s.cfg ∧ u.slots = (match l1.getLast? with
      | none => s.setNext id noTimer
      | some p => (s.setNext p sl.next).setNext id noTimer).slots)
    (hl : ∀ p ∈ l1, ∃ sp, s.slot? p = some sp) :
    Memory.wf u.cfg u.slots = true ∧ u.slot? id = some { sl with next := noTimer } ∧
      (∀ j, j ≠ id → l1.getLast? ≠ some j → u.slot? j = s.slot? j) ∧ LinksOnly s u ∧
      ∀ p, l1.getLast? = some p → (u.slot? p).map (·.next) = some sl.next := by
  obtain ⟨hc, hus⟩ := hu
  have hq : ∀ v : State, v.cfg = s.cfg → u.slots = v.slots → ∀ j, u.slot? j = v.slot? j := fun v hv hvs =>
    State.slot?_congr (hc.trans hv.symm) hvs
  cases hg : l1.getLast? with
  | none =>
    rw [hg] at hus
    have hq := hq (s.setNext id noTimer) rfl hus
    refine ⟨by rw [hus, hc]; exact State.setNext_keeps_wf hw id noTimer, (hq id).trans
      (setNext_same s id noTimer sl hs), fun j hj _ => (hq j).trans (setNext_other s noTimer hj),
      fun j sj hj => ?_, fun p hp => nomatch hp⟩
    rw [hq]; exact linksOnly_setNext s id noTimer j sj hj
  | some p =>
    rw [hg] at hus
    have hq := hq ((s.setNext p sl.next).setNext id noTimer) rfl hus
    have hpi : p ≠ id := fun e => hn (e ▸ List.mem_of_getLast? hg)
    obtain ⟨sp, hsp⟩ := hl p (List.mem_of_getLast? hg)
    refine ⟨by rw [hus, hc]; exact State.setNext_keeps_wf (State.setNext_keeps_wf hw p sl.next) id noTimer,
      (hq id).trans (setNext_same _ id noTimer sl ((setNext_other s _ hpi.symm).trans hs)), fun j hj hne => ?_,
      fun j sj hj => ?_, fun p' hp' => ?_⟩
    · exact (hq j).trans ((setNext_other _ noTimer hj).trans
        (setNext_other s _ fun e : j = p => hne (by rw [e])))
    · rw [hq]
      exact ((linksOnly_setNext s p sl.next).trans (linksOnly_setNext _ id noTimer)) j sj hj
    · cases hp'
      rw [hq, setNext_other _ noTimer hpi, setNext_same s p sl.next sp hsp]; rfl

/-- A running slot is taken off the running queue; the answer says whether it was the head. -/
theorem removeRunning_lists {s : State} {run exp : List TimerId} {id : TimerId} (h : QueueWF s run exp)
    (hm : id ∈ run) :
    ∃ u, removeRunning id s =
        .done (if run.head? = some id then .removedRunningHead else .removed) u ∧
      RemovedFrom s (u.clearCallback id) run exp id := by
  obtain ⟨hrd, hed, hdj⟩ := List.nodup_append.1 h.disjoint
  obtain ⟨hrl, hrn⟩ := h.runLinks
  obtain ⟨l1, l2, hl, htw, hdw, her, hn1, hn2⟩ := splitAt_mem hm hrd
  obtain ⟨hin, sl, hs⟩ := links_mem hrl hm
  have hie : id ∉ exp := fun e => hdj id hm id e rfl
  have hmem : ∀ p ∈ l1, p ≠ noTimer ∧ ∃ sp, s.slot? p = some sp := fun p hp =>
    links_mem hrl (hl ▸ List.mem_append_left _ hp)
  have hwalk := walk_by_id id hrl hrn
  rw [htw, hdw] at hwalk
  let u := ((s.unlinkRunning (l1.getLast?.getD noTimer) sl.next).setNext id noTimer).decRunCount
  have hu : u.cfg = s.cfg ∧ u.slots = (match l1.getLast? with
      | none => s.setNext id noTimer
      | some p => (s.setNext p sl.next).setNext id noTimer).slots := by
    cases hg : l1.getLast? with
    | none => simp only [u, hg, Option.getD_none, State.unlinkRunning, if_true]; exact ⟨rfl, rfl⟩
    | some p =>
      simp only [u, hg, Option.getD_some, State.unlinkRunning,
        if_neg (hmem p (List.mem_of_getLast? hg)).1]
      exact ⟨rfl, rfl⟩
  have hrun : u.runHead = (if l1 = [] then sl.next else s.runHead) ∧ QueueFieldsOnly s u ∧
      u.expHead = s.expHead ∧ u.expTail = s.expTail ∧ u.runCount = s.runCount - 1 := by
    cases hg : l1.getLast? with
    | none =>
      simp only [u, State.unlinkRunning, if_true, List.getLast?_eq_none_iff.1 hg]
      exact ⟨rfl, rfl, rfl, rfl, rfl⟩
    | some p =>
      have hne : l1 ≠ [] := fun e => by rw [e] at hg; cases hg
      simp only [u, hg, Option.getD_some, State.unlinkRunning, if_neg hne,
        if_neg (hmem p (List.mem_of_getLast? hg)).1]
      exact ⟨rfl, rfl, rfl, rfl, rfl⟩
  obtain ⟨hru, hfr, heh, het, hcn⟩ := hrun
  obtain ⟨hw, hui, hoth, hlin, hpn⟩ := skip_slot u h.table hs hn1 hu fun p hp => (hmem p hp).2
  have hdl : (l1 ++ id :: l2).Nodup := hl ▸ hrd
  refine ⟨u, ?_, removedFrom_of_links h hs hfr hw hui (fun j hj hg => hoth j hj ?_) hlin ?_ ?_ ?_ ?_⟩
  · rw [removeRunning, State.walkFrom, hwalk]
    show (if id = noTimer then _ else _) = _
    rw [if_neg hin, State.withSlot, hs]
    have hh : run.head? = some id ↔ l1.getLast?.getD noTimer = noTimer := by
      rw [hl]
      rcases List.eq_nil_or_concat l1 with rfl | ⟨l0, p, rfl⟩
      · exact ⟨fun _ => rfl, fun _ => rfl⟩
      · have hp := (hmem p (by simp)).1
        constructor
        · intro e
          exact absurd (by cases l0 <;> simpa using e) fun e' : (l0 ++ [p]).head? = some id =>
            hn1 (by rw [List.concat_eq_append]; exact List.mem_of_head? e')
        · intro e; rw [List.concat_eq_append, List.getLast?_concat] at e; exact absurd e hp
    simp only [hh]
    rfl
  · rw [if_pos hm, htw] at hg; exact hg
  · rw [her]
    refine links_skip (hl ▸ hrl) hdl hs (fun j hj hg => congrArg _ (hoth j ?_ hg)) hpn hru
    rintro rfl
    exact (List.mem_append.1 hj).elim hn1 hn2
  · rw [List.erase_of_not_mem hie, heh]
    refine links_congr (fun j hj => congrArg _ (hoth j (fun e => hie (e ▸ hj)) fun e => ?_)) h.expLinks.1
    exact hdj j (hl ▸ List.mem_append_left _ (List.mem_of_getLast? e)) j hj rfl
  · rw [List.erase_of_not_mem hie, het]; exact h.tail
  · rw [hcn, her]
    refine count_pred (h.count.trans ?_)
    rw [hl]; simp only [List.length_append, List.length_cons]; omega

/-- What taking a slot off the expired queue writes, field by field. -/
theorem unlinkExpired_fields (s : State) {l1 : List TimerId} (id next : TimerId)
    (hne : ∀ p ∈ l1, p ≠ noTimer) :
    let prev := l1.getLast?.getD noTimer
    let s1 := s.unlinkExpired prev next
    let u := (if s1.expTail = id then s1.setExpTail prev else s1).setNext id noTimer
    (u.cfg = s.cfg ∧ u.slots = (match l1.getLast? with
      | none => s.setNext id noTimer
      | some p => (s.setNext p next).setNext id noTimer).slots) ∧
    QueueFieldsOnly s u ∧ u.expHead = (if l1 = [] then next else s.expHead) ∧
    u.expTail = (if s.expTail = id then prev else s.expTail) ∧ u.runHead = s.runHead ∧
    u.runCount = s.runCount := by
  cases hg : l1.getLast? with
  | none =>
    simp only [Option.getD_none, State.unlinkExpired, if_true, List.getLast?_eq_none_iff.1 hg]
    by_cases ht : s.expTail = id
    · rw [if_pos (show (s.setExpHead next).expTail = id from ht), if_pos ht]
      exact ⟨⟨rfl, rfl⟩, rfl, rfl, rfl, rfl, rfl⟩
    · rw [if_neg (show ¬(s.setExpHead next).expTail = id from ht), if_neg ht]
      exact ⟨⟨rfl, rfl⟩, rfl, rfl, rfl, rfl, rfl⟩
  | some p =>
    have h0 : l1 ≠ [] := fun e => by rw [e] at hg; cases hg
    simp only [Option.getD_some, State.unlinkExpired, if_neg h0, if_neg (hne p (List.mem_of_getLast? hg))]
    by_cases ht : s.expTail = id
    · rw [if_pos (show (s.setNext p next).expTail = id from ht), if_pos ht]
      exact ⟨⟨rfl, rfl⟩, rfl, rfl, rfl, rfl, rfl⟩
    · rw [if_neg (show ¬(s.setNext p next).expTail = id from ht), if_neg ht]
      exact ⟨⟨rfl, rfl⟩, rfl, rfl, rfl, rfl, rfl⟩

/-- A slot on the expired queue is taken off it. -/
theorem removeExpired_lists {s : State} {run exp : List TimerId} {id : TimerId} (h : QueueWF s run exp)
    (hm : id ∈ exp) :
    ∃ u, removeExpired id s = .done .removed u ∧ RemovedFrom s (u.clearCallback id) run exp id := by
  obtain ⟨hrd, hed, hdj⟩ := List.nodup_append.1 h.disjoint
  obtain ⟨hel, hen⟩ := h.expLinks
  obtain ⟨l1, l2, hl, htw, hdw, her, hn1, hn2⟩ := splitAt_mem hm hed
  obtain ⟨hin, sl, hs⟩ := links_mem hel hm
  have hir : id ∉ run := fun e => hdj id e id hm rfl
  have hmem : ∀ p ∈ l1, p ≠ noTimer ∧ ∃ sp, s.slot? p = some sp := fun p hp =>
    links_mem hel (hl ▸ List.mem_append_left _ hp)
  have hwalk := walk_by_id id hel hen
  rw [htw, hdw] at hwalk
  obtain ⟨hu, hfr, hh, htl, hr, hc⟩ := unlinkExpired_fields s id sl.next fun p hp => (hmem p hp).1
  let s1 := s.unlinkExpired (l1.getLast?.getD noTimer) sl.next
  let u := (if s1.expTail = id then s1.setExpTail (l1.getLast?.getD noTimer) else s1).setNext id noTimer
  have hcut : exp.getLast?.getD noTimer = if l2 = [] then id else l2.getLast?.getD noTimer := by
    rw [hl, List.getLast?_append_cons]
    rcases List.eq_nil_or_concat l2 with rfl | ⟨m, e, rfl⟩
    · rfl
    · rw [List.concat_eq_append, if_neg (by simp), ← List.cons_append, List.getLast?_concat,
        List.getLast?_concat]
  have htail : u.expTail = (l1 ++ l2).getLast?.getD noTimer := by
    refine htl.trans ?_
    rw [h.tail, hcut, List.getLast?_append]
    cases hg : l2.getLast? with
    | none => rw [if_pos (List.getLast?_eq_none_iff.1 hg), if_pos rfl]; rfl
    | some e =>
      have hne : l2 ≠ [] := fun e' => by rw [e'] at hg; cases hg
      rw [if_neg hne, Option.getD_some, if_neg fun e' : e = id => hn2 (e' ▸ List.mem_of_getLast? hg)]
      rfl
  obtain ⟨hw, hui, hoth, hlin, hpn⟩ := skip_slot u h.table hs hn1 hu fun p hp => (hmem p hp).2
  refine ⟨u, ?_, removedFrom_of_links h hs hfr hw hui (fun j hj hg => hoth j hj ?_) hlin ?_ ?_ ?_ ?_⟩
  · rw [removeExpired, State.walkFrom, hwalk]
    show (if id = noTimer then _ else _) = _
    rw [if_neg hin, State.withSlot, hs]
  · rw [if_neg hir, htw] at hg; exact hg
  · rw [List.erase_of_not_mem hir, hr]
    refine links_congr (fun j hj => congrArg _ (hoth j (fun e => hir (e ▸ hj)) fun e => ?_)) h.runLinks.1
    exact hdj j hj j (hl ▸ List.mem_append_left _ (List.mem_of_getLast? e)) rfl
  · rw [her]
    refine links_skip (hl ▸ hel) (hl ▸ hed) hs (fun j hj hg => congrArg _ (hoth j ?_ hg)) hpn hh
    rintro rfl
    exact (List.mem_append.1 hj).elim hn1 hn2
  · rw [her]; exact htail
  · rw [List.erase_of_not_mem hir, hc]; exact h.count

/-- A removal from both queues, the running queue first: what `STOP` finds, and what it leaves. -/
theorem removeAny_lists {s : State} {run exp : List TimerId} {id : TimerId} (h : QueueWF s run exp) :
    (id ∉ run ++ exp → removeAny id s = .done .notFound s) ∧
    (id ∈ run ++ exp → ∃ u,
      removeAny id s = .done (if run.head? = some id then .removedRunningHead else .removed) u ∧
      RemovedFrom s (u.clearCallback id) run exp id) := by
  obtain ⟨hnr, hne⟩ := removals_not_found (id := id) h
  constructor
  · rw [List.mem_append, not_or]
    rintro ⟨h1, h2⟩
    rw [removeAny, hnr h1]; exact hne h2
  · intro hm
    by_cases hr : id ∈ run
    · obtain ⟨u, h1, h2⟩ := removeRunning_lists h hr
      refine ⟨u, ?_, h2⟩
      rw [removeAny, h1]
      split <;> rfl
    · obtain ⟨u, h1, h2⟩ := removeExpired_lists h ((List.mem_append.1 hm).resolve_left hr)
      refine ⟨u, ?_, h2⟩
      rw [removeAny, hnr hr, if_neg fun e => hr (List.mem_of_head? e)]
      exact h1

end Sys2Proof.Machine
end

