-- ==== Sys2Proof/Tests/Slice0.lean ====
section
/-! SUPPORT. Small tests on values taken from the spec's own examples, the smoke tests of WellFormed, one
decoded word per constructor, and for every statement with hypotheses a state that meets them. -/

namespace Sys2Proof.Tests

-- One theorem at a time: the checks of many small decisions at once would each hold a thread.
set_option Elab.async false

open Sys2Proof.Machine

/-- A property of the next state, false of a stop. -/
def after (r : Result) (f : State → Bool) : Bool :=
  match r with
  | .next t => f t
  | .fault _ => false
  | .refused _ => false

/-- A next state with the property. -/
theorem exists_next {r : Result} {f : State → Bool} (h : after r f = true) : ∃ t, r = .next t ∧ f t = true := by
  cases r with
  | next t => exact ⟨t, rfl, h⟩
  | fault _ => exact nomatch h
  | refused _ => exact nomatch h

/-- The result registers of the next state. -/
def answers (r : Result) (st r0 r1 r2 : Word) : Bool :=
  after r fun t => t.status == st && t.res0 == r0 && t.res1 == r1 && t.res2 == r2

/-! ### Well-formedness refuses (00_scope.md R6, 30_encoding.md R89) -/

theorem test_ref_wellFormed : Params.ref.wellFormed = true := by decide
theorem test_illformed_hp_start : (Instr.hpStart 0).wellFormed false = false := by decide
theorem test_illformed_hp_stop : Instr.hpStop.wellFormed false = false := by decide
theorem test_illformed_hp_is_running : Instr.hpIsRunning.wellFormed false = false := by decide
theorem test_illformed_width : ({ Params.ref with w := 27 } : Params).widthOk = false ∧
    ({ Params.ref with w := 33 } : Params).widthOk = false := by decide
theorem test_illformed_counter : ({ Params.ref with hw := 0 } : Params).counterOk = false ∧
    ({ Params.ref with hw := 33 } : Params).counterOk = false := by decide
theorem test_illformed_timers : ({ Params.ref with nTimers := 256 } : Params).timersOk = false := by decide
theorem test_illformed_bounds : ({ Params.ref with maxTimeout := 0 } : Params).boundsOk = false ∧
    ({ Params.ref with maxTimeout := 0x80000000 } : Params).boundsOk = false := by decide
theorem test_illformed_hp_bound : ({ Params.ref with hpMaxTimeout := 0 } : Params).hpBoundOk = false ∧
    ({ Params.ref with hpMaxTimeout := 0x10000 } : Params).hpBoundOk = false ∧
    ({ Params.ref with hpPresent := false, hpMaxTimeout := 0x10000 } : Params).wellFormed = false := by decide
theorem test_illformed_memory : Memory.wf Params.ref [Slot.reset] = false ∧
    Memory.wf { Params.ref with w := 28, nTimers := 1 } [⟨0x10000000, 0, 0, noTimer⟩] = false := by decide

/-! ### Decoding: the fields of 30_encoding.md R81 and R84 written out -/

theorem test_decode_start : decode true 0b0001_0001_0000000000000000_00000011 = .instr (.start 1 3) := by
  decide
theorem test_decode_start_example : decode true 0x10000002 = .instr (.start 0 2) := by decide
theorem test_decode_stop : decode true 0b0010_0000_0000000000000000_00000001 = .instr (.stop 1) := by decide
theorem test_decode_is_running : decode true 0b0011_0000_0000000000000000_11001000 =
    .instr (.isRunning 200) := by decide
theorem test_decode_reconcile : decode true 0b0100_0000_0000000000000000_00000000 = .instr .reconcile := by
  decide
theorem test_decode_pop_expired : decode true 0b0101_0000_0000000000000000_00000000 = .instr .popExpired := by
  decide
theorem test_decode_now : decode true 0b0110_0000_0000000000000000_00000000 = .instr .now := by decide
theorem test_decode_hp_start : decode true 0b1000_0001_0000000000000000_00000000 = .instr (.hpStart 1) := by
  decide
theorem test_decode_hp_stop : decode true 0b1001_0000_0000000000000000_00000000 = .instr .hpStop := by decide
theorem test_decode_hp_is_running : decode true 0b1010_0000_0000000000000000_00000000 =
    .instr .hpIsRunning := by decide
theorem test_decode_illegal : decode true 0x00000000 = .illegal .unassignedOpcode ∧
    decode true 0x70000000 = .illegal .unassignedOpcode ∧ decode true 0xB0000000 = .illegal .unassignedOpcode ∧
    decode true 0x10000100 = .illegal .nonZeroField ∧ decode true 0x21000000 = .illegal .nonZeroField ∧
    decode false 0x80000000 = .illegal .hpAbsent := by decide
theorem test_decodeTableWord : decodeTableWord 32 0x17000009 = some (.start 7 9) ∧
    decodeTableWord 32 0 = none := by decide

/-! ### Small states -/

/-- Reset and `HostIrqEnable` (70_reset_and_hazards.md R261). -/
def booted : State := { State.reset with gie := true }

/-- `booted` with the operands of a `START` or `HP_START` (30_encoding.md R82). -/
def withOperands (s : State) (timeout cb arg : Word) : State :=
  { s with opTimeout := timeout, opCb := cb, opArg := arg }

/-- Running 1 then 2, expired 0, idle 3, at time 0x40. -/
def busy : State :=
  { booted with
    slots := [⟨0x32, 0x1000, 0xA0, 0xFF⟩, ⟨0x50, 0x1010, 0xA1, 2⟩, ⟨0x64, 0x1020, 0xA2, 0xFF⟩, Slot.reset]
    runHead := 1, expHead := 0, expTail := 0, runCount := 2
    cnt := 0x40, ocr := 0x50, cmpIe := true, ocrAuth := true }

/-- `busy` with the flag set, as the compare handler leaves it when the head is due. -/
def flagged : State := { busy with cnt := 0x50, expiredFlag := true }

/-- `busy` with the high-priority timer armed. -/
def hpArmed : State :=
  { busy with hpCb := 0x6000, hpArg := 0x77, hpExpiry := 0x68, ocrHp := 0x68, hpIe := true }

/-- The host's next step is this move. -/
def hosting (s : State) (m : HostMove) : State := { s with host := [m], sched := [.host] }

/-- A platform without the high-priority timer (30_encoding.md R89). -/
def hpAbsent : State := State.resetFor { Params.ref with hpPresent := false }

/-- A platform with `W = 28`, no clamp, `HW = W` (00_scope.md R6). -/
def narrow : Params :=
  { Params.ref with w := 28, hw := 28, maxTimeout := 0x7FFFFFF, relClamp := false }

/-! ### Commands, with the spec's own examples -/

/-- 41_slot_table_commands.md R130, the example. -/
theorem test_start_example : after (exec (.start 0 0) (withOperands booted 100 0x1000 0xA0)) (fun t =>
    t.slots.head? == some ⟨0x64, 0x1000, 0xA0, 0xFF⟩ && t.runHead == 0 && t.runCount == 1 &&
      t.ocr == 0x64 && t.cmpIe && t.ocrAuth && !t.expiredFlag && t.gie && t.status == 0) = true := by
  decide +kernel

/-- 42_running_queue.md R151: an equal deadline goes behind, and nothing is reprogrammed. -/
theorem test_start_tie : after (exec (.start 1 3) (withOperands busy 0x50 0x1030 0xA3)) (fun t =>
    t.runList == some [1, 3, 2] && t.ocr == 0x50 && t.runCount == 3) = true := by decide +kernel

/-- 41_slot_table_commands.md R133: a running timer that is not the head; 90_conflicts.md C3: one that is
already on the expired queue. -/
theorem test_stop_running_and_expired : after (exec (.stop 2) busy) (fun t =>
    t.runList == some [1] && t.status == 0 && t.ocr == 0x50 && t.runCount == 1) = true ∧
    after (exec (.stop 0) busy) (fun t => t.expHead == 0xFF && t.expTail == 0xFF && t.status == 0) = true := by
  decide +kernel

/-- 41_slot_table_commands.md R133, the example's error answers. -/
theorem test_stop_errors : answers (exec (.stop 3) busy) 5 0 0 0 = true ∧
    answers (exec (.stop 4) busy) 1 0 0 0 = true := by decide +kernel

/-- 41_slot_table_commands.md R134, the example. -/
theorem test_is_running : answers (exec (.isRunning 3) busy) 0 0 0 0 = true ∧
    answers (exec (.isRunning 0) busy) 0 1 0 0 = true ∧
    answers (exec (.isRunning 200) busy) 0 0 0 0 = true := by decide +kernel

/-- 45_reconcile_dispatch.md R190: one timer moves; the compare unit is armed for the next. -/
theorem test_reconcile_moves_one : after (exec .reconcile flagged) (fun t =>
    t.runList == some [2] && t.expList == some [0, 1] && t.expTail == 1 && t.runCount == 1 &&
      t.ocr == 0x64 && !t.expiredFlag) = true := by decide +kernel

/-- 60_exceptions.md R248: refused in interrupt context. -/
theorem test_reconcile_in_irq : answers (exec .reconcile { flagged with ctx := .irq, gie := false })
    0xFF 0 0 0 = true := by decide +kernel

/-- 43_expired_queue.md R166: the head, its callback and its argument. -/
theorem test_pop_expired : after (exec .popExpired busy) (fun t => t.res0 == 0x00000001 &&
    t.res1 == 0x1000 && t.res2 == 0xA0 && t.expHead == 0xFF && t.expTail == 0xFF &&
    t.slots.head? == some ⟨0x32, 0, 0xA0, 0xFF⟩) = true := by decide +kernel

/-- 43_expired_queue.md R166: an empty queue. -/
theorem test_pop_empty : answers (exec .popExpired booted) 0 0xFF00 0 0 = true := by decide +kernel

/-- 40_comparator_clock.md R113, the example. -/
theorem test_now : answers (exec .now { booted with sysHigh := 1, cnt := 0x2345, ovfIf := true })
    0 0x00012345 0 0 = true := by decide +kernel

/-- 46_high_priority.md R205, the example, and the same command again. -/
theorem test_hp_start : after (exec (.hpStart 0) (withOperands booted 40 0x6000 0x77)) (fun t =>
    t.hpCb == 0x6000 && t.hpArg == 0x77 && t.hpExpiry == 0x28 && t.ocrHp == 0x28 && t.hpIe && !t.hpIf &&
      answers (exec (.hpStart 0) t) 3 0 0 0) = true := by decide +kernel

/-- 46_high_priority.md R206, the example. -/
theorem test_hp_stop : after (exec .hpStop hpArmed) (fun t => t.status == 0 && t.hpCb == 0 && !t.hpIe &&
    answers (exec .hpStop t) 5 0 0 0) = true := by decide +kernel

/-- 46_high_priority.md R207. -/
theorem test_hp_is_running : answers (exec .hpIsRunning hpArmed) 0 1 0 0 = true ∧
    answers (exec .hpIsRunning busy) 0 0 0 0 = true := by decide +kernel

/-! ### Comparator, clock, handlers -/

/-- 40_comparator_clock.md R117. -/
theorem test_wraparound : isBefore Params.ref 0xFFFFFFF6 10 = true ∧
    isBefore Params.ref 10 0xFFFFFFF6 = false := by decide

/-- 44_compare_programmer.md R180 (3) to (5): the safety check at the deadline, one tick and two before. -/
theorem test_safety_check : ({ booted with cnt := 0x32 } : State).isDue 0x32 = true ∧
    ({ booted with cnt := 0x31 } : State).isDue 0x32 = true ∧
    ({ booted with cnt := 0x30 } : State).isDue 0x32 = false := by decide +kernel

/-- 60_exceptions.md R232, the example: the head's epoch begins. -/
theorem test_overflow_handler : after (takeInterrupt .ovf { booted with
      slots := [⟨0x12345, 0x5000, 5, 0xFF⟩, Slot.reset, Slot.reset, Slot.reset]
      runHead := 0, runCount := 1, ovfIf := true }) (fun t => t.sysHigh == 1 && t.ocr == 0x2345 &&
      t.cmpIe && t.ocrAuth && !t.ovfIf && t.gie && t.ctx == .main) = true := by decide +kernel

/-- 60_exceptions.md R233, the example: the tick latches, the handler flags. -/
theorem test_compare_match : let t := ({ busy with cnt := 0x4F } : State).tick
    t.cmpIf = true ∧ after (takeInterrupt .cmp t) (fun u => !u.cmpIf && u.expiredFlag) = true := by
  decide +kernel

/-! ### Witnesses: the states above meet the invariants -/

/-- The slot table of `busy`, read at every TimerId. -/
theorem test_witness_busy_queues : QueueWF busy [1, 2] [0] := by
  constructor <;> decide +kernel

/-- The same queues with the flag set. -/
theorem test_witness_flagged_queues : QueueWF flagged [1, 2] [0] := by
  constructor <;> decide +kernel

theorem test_witness_booted_queues : QueueWF booted [] [] := by
  constructor <;> decide +kernel

theorem test_witness_busy_environment : EnvInv busy := by constructor <;> decide +kernel

theorem test_witness_flagged_environment : EnvInv flagged := by constructor <;> decide +kernel

theorem test_witness_booted_environment : EnvInv booted := by constructor <;> decide +kernel

theorem test_witness_hp_environment : EnvInv hpArmed := by constructor <;> decide +kernel

/-- The compare unit of `busy` is armed for timer 1. -/
theorem test_witness_busy_compare : CompareInv busy :=
  ⟨fun _ => ⟨⟨0x50, 0x1010, 0xA1, 2⟩, by decide +kernel⟩, by decide +kernel, by decide +kernel,
    by decide +kernel⟩

/-- The hypothesis of SafeStatesStaySafe. -/
theorem test_witness_safe : Safe busy :=
  ⟨by decide, rfl, test_witness_busy_environment, ⟨_, _, test_witness_busy_queues⟩, test_witness_busy_compare⟩

/-! ### Witnesses: encoding and steps -/

/-- A command's issue: every hypothesis of `Issues`. -/
theorem issues_of {s : State} {w : Word} (hc : s.cfg.wellFormed = true) (hf : s.fault = .none)
    (hd : (hosting s (.write 0 4 w)).deliverable = none) : Issues (hosting s (.write 0 4 w)) w [] :=
  ⟨hc, hf, rfl, rfl, hd⟩

theorem test_witness_rows_select :
    (∀ r ∈ opcodeMap, ∃ c : Word, r.selects true c = true) ∧
    (∃ r ∈ opcodeMap, r.selects true 0xA0000000 = true) := by
  refine ⟨?_, by decide⟩
  have h : ∀ r ∈ opcodeMap, r.selects true r.pattern = true := by decide
  exact fun r hr => ⟨r.pattern, h r hr⟩

/-- HighPriorityCommandsNeedTheTimer: the first and the last of the three codes. -/
theorem test_witness_hp_absent_frames :
    (Issues (hosting hpAbsent (.write 0 4 0x81000000)) 0x81000000 [] ∧ hpAbsent.cfg.hpPresent = false ∧
      fieldOpc 0x81000000 = 0x8) ∧
    (Issues (hosting hpAbsent (.write 0 4 0xA0000000)) 0xA0000000 [] ∧ fieldOpc 0xA0000000 = 0xA) :=
  ⟨⟨issues_of (by decide) rfl (by decide), rfl, by decide⟩, issues_of (by decide) rfl (by decide), by decide⟩

/-- IllegalCommandsChangeOnlyTheResults: both clauses. -/
theorem test_witness_illegal_commands :
    (Issues (hosting busy (.write 0 4 0x70000000)) 0x70000000 [] ∧
      decode busy.cfg.hpPresent 0x70000000 = .illegal .unassignedOpcode) ∧
    ({ flagged with ctx := .irq, gie := false } : State).ctx = .irq :=
  ⟨⟨issues_of (by decide) rfl (by decide), by decide⟩, rfl⟩

/-- StepRunsTheDecodedCommand: both clauses. -/
theorem test_witness_step_runs :
    (Issues (hosting busy (.write 0 4 0x20000002)) 0x20000002 [] ∧
      decode busy.cfg.hpPresent 0x20000002 = .instr (.stop 2)) ∧
    (busy.cfg.wellFormed = true ∧ busy.fault = .none ∧ busy.deliverable = none ∧
      decode busy.cfg.hpPresent (tableWord 32 0x40000000) = .instr .reconcile) :=
  ⟨⟨issues_of (by decide) rfl (by decide), by decide⟩, by decide, rfl, by decide, by decide⟩

/-- StepTakesTheHostsNextMove: a move that issues nothing, with an interrupt pending. -/
theorem test_witness_host_move :
    let s := hosting { busy with ovfIf := true } (.read 0x14 4)
    s.cfg.wellFormed = true ∧ s.fault = .none ∧ s.turn = .host ∧ s.host = [.read 0x14 4] ∧
      (HostMove.read 0x14 4).issues = false ∧ s.deliverable = some .ovf := by
  refine ⟨by decide, rfl, rfl, rfl, rfl, by decide⟩

/-- DeliverableInterruptComesBeforeTheCommand: both clauses. -/
theorem test_witness_interrupt_first :
    let s := hosting { busy with ovfIf := true } (.write 0 4 0x60000000)
    s.cfg.wellFormed = true ∧ s.turn = .host ∧ s.host = [.write 0 4 0x60000000] ∧
      s.deliverable = some .ovf ∧ after (takeInterrupt .ovf s) (fun t => t.sysHigh == 1) = true ∧
      (hosting { hpArmed with hpIf := true } (.write 0 4 0x60000000)).deliverable = some .hp ∧
      hpArmed.hpCb ≠ 0 := by
  refine ⟨by decide, rfl, rfl, by decide, by decide +kernel, by decide, by decide⟩

/-- IrqTurnTakesTheFirstSource: both clauses. -/
theorem test_witness_irq_turn :
    let s := { busy with sched := [.irq], cmpIf := true }
    let q := { busy with sched := [.irq] }
    (s.cfg.wellFormed = true ∧ s.fault = .none ∧ s.turn = .irq ∧ s.deliverable = some .cmp) ∧
    (q.turn = .irq ∧ q.deliverable = none) := by
  refine ⟨⟨by decide, rfl, rfl, by decide⟩, rfl, by decide⟩

/-- CommandsKeepOperandsContextAndGie, StatusCodesOfEachCommand, ReadingCommandsWriteOnlyResults: a next
state without a fault, for each of the nine commands. -/
theorem test_witness_every_command_completes : busy.fault = .none ∧ busy.cfg.hpPresent = true ∧
    ∀ i ∈ [Instr.start 0 3, .stop 2, .isRunning 1, .reconcile, .popExpired, .now, .hpStart 0, .hpStop,
      .hpIsRunning], after (exec i busy) (fun t => t.fault == .none) = true := by decide +kernel

/-- HostActionsWriteGieAndContext: both contexts. -/
theorem test_witness_contexts : busy.ctx = .main ∧
    ({ busy with ctx := .irq, gie := false } : State).ctx = .irq := by decide

/-- PseudoCommandsAreTheirSequences: each clause with a hypothesis, `DELAY` on its boundary. -/
theorem test_witness_pseudo_commands :
    booted.res0.getLsbD 0 = false ∧ ({ booted with res0 := 0x101 } : State).res0.getLsbD 0 = true ∧
    ({ booted with callbacks := [⟨0x1000, 1, []⟩] } : State).callbacks.find?
        (fun c => c.cb == 0x1000 && c.arg == 1) = some ⟨0x1000, 1, []⟩ ∧
    (10 : Word).toNat ≤ (timeSub Params.ref 110 100).toNat ∧
    (timeSub Params.ref 109 100).toNat < (10 : Word).toNat := by decide

/-- AdvanceTicksAndSettles: both clauses of `settle`. -/
theorem test_witness_settle : busy.deliverable = none ∧
    ({ busy with cmpIf := true } : State).deliverable = some .cmp := by decide

/-- InterfaceRegisterAccess: a short access, a misaligned one at the last register, the last register, the
first reserved offset and a misaligned one behind it. -/
theorem test_witness_interface : ((2 : Nat) ≠ 4 ∨ 0 % 4 ≠ 0) ∧ (0x1E < 0x20 ∧ ((4 : Nat) ≠ 4 ∨ 0x1E % 4 ≠ 0)) ∧
    0x20 ≤ 0x20 ∧ 0x20 ≤ 0x22 ∧
    (busy.cmd :: busy.opTimeout :: busy.opCb :: busy.opArg :: busy.status :: busy.res0 :: busy.res1 ::
      [busy.res2])[7]? = some 0 ∧ 4 ≤ 4 := by decide

/-- 20_memory.md R69, 93 V8: a misaligned read and a byte write at reserved offsets. -/
theorem test_reserved_offsets : step (hosting busy (.read 0x22 4)) = .next busy ∧
    step (hosting busy (.write 0x21 1 7)) = .next busy := ⟨rfl, rfl⟩

/-- BrokenParameterSetsAreRefused: one state. -/
theorem test_witness_broken_parameters :
    let s := State.resetFor { Params.ref with nTimers := 256 }
    ¬ s.cfg.nTimers ≤ 255 ∧ s.cfg.wellFormed = false := by decide

/-- FaultRegisterIsSticky: both faults on the clock's turn; and a reset turn that answers a next state. -/
theorem test_witness_faulted :
    let s := { busy with fault := .fatalAssert, sched := [.clk] }
    let q := { busy with fault := .invariantViolated, sched := [.clk] }
    s.cfg.wellFormed = true ∧ (∀ program, s.turn ≠ .reset program) ∧ s.fault = .fatalAssert ∧
    (∀ program, q.turn ≠ .reset program) ∧ q.fault = .invariantViolated ∧
    after (step { s with sched := [.reset []] }) (fun t => t.fault == .none) = true :=
  have turn_ne : ∀ program, Turn.clk ≠ Turn.reset program := fun _ h => nomatch h
  ⟨by decide, turn_ne, rfl, turn_ne, rfl, by decide +kernel⟩

/-- ResetLineRestoresTheResetState. -/
theorem test_witness_reset_line :
    let s := { busy with sched := [.reset [.irqEnable], .clk] }
    s.cfg.wellFormed = true ∧ s.sched = .reset [.irqEnable] :: [.clk] := ⟨by decide, rfl⟩

/-- ResetStateIsSafe: another configuration than REF. -/
theorem test_witness_parameters : Params.ref.wellFormed = true ∧ narrow.wellFormed = true := by decide

/-! ### Witnesses: comparator and clock -/

/-- ComparatorByDistance: one pair for each clause, at the boundaries of its range. -/
theorem test_witness_distances :
    let d := fun t1 t2 : Word => (t2.toNat + 2 ^ 32 - t1.toNat) % 2 ^ 32
    d 5 5 = 0 ∧ (0 < d 5 6 ∧ d 5 6 < 2 ^ 31) ∧ (0 < d 0 0x7FFFFFFF ∧ d 0 0x7FFFFFFF < 2 ^ 31) ∧
    d 0 0x80000000 = 2 ^ 31 ∧ 2 ^ 31 < d 0 0x80000001 ∧ 2 ^ 31 < d 6 5 ∧
    (0xFFFFFFF6 : Word).toNat < 2 ^ Params.ref.w := by decide

/-- ComparatorOrdersEveryShortArc: an arc across the wrap, its first and last time. -/
theorem test_witness_arc : withinArc Params.ref [0xFFFFFFF6, 10, 0x7FFFFFF5] := by
  have hm : ([0xFFFFFFF6, 10, 0x7FFFFFF5] : List Word).all (fun t => decide
      (t.toNat < 2 ^ Params.ref.w ∧ (timeSub Params.ref t 0xFFFFFFF6).toNat < 2 ^ (Params.ref.w - 1)))
      = true := by decide +kernel
  exact ⟨0xFFFFFFF6, fun t ht => of_decide_eq_true (List.all_eq_true.1 hm t ht)⟩

/-- TimesSplitIntoHighAndLowParts: an ordinary split and `HW = W`. -/
theorem test_witness_split : (0x00012345 : Word).toNat < 2 ^ Params.ref.w ∧ narrow.wellFormed = true ∧
    (0x0FFFFFFF : Word).toNat < 2 ^ narrow.w ∧ narrow.hw = narrow.w := by decide

/-- NowAnswersTheExtendedClock, TicksAdvanceTheCounterAndLatch. -/
theorem test_witness_now : busy.cfg.wellFormed = true ∧ EnvInv busy :=
  ⟨by decide, test_witness_busy_environment⟩

/-- ClockStepIsTheTick: both clauses. -/
theorem test_witness_clock_turn :
    let s := { flagged with sched := [.clk], gie := false }
    (s.cfg.wellFormed = true ∧ s.fault = .none ∧ s.turn = .clk) ∧
    (busy.cfg.wellFormed = true ∧ EnvInv busy ∧ busy.cmpIe = true ∧ busy.cmpIf = false) :=
  ⟨⟨by decide, rfl, rfl⟩, by decide, test_witness_busy_environment, rfl, rfl⟩

/-- ExtendedClockCountsEveryTick: a tick inside an epoch and the tick that wraps, with no draw. -/
theorem test_witness_extended_clock :
    let s := { booted with cnt := 0xFFFF, sysHigh := 0xFFFF }
    (EnvInv booted ∧ QueueWF booted [] [] ∧ booted.ovfIf = false ∧ booted.tick.ovfIf = false) ∧
    (s.cfg.wellFormed = true ∧ EnvInv s ∧ QueueWF s [] [] ∧ s.ovfIf = false ∧ s.tick.ovfIf = true ∧
      s.draws.headD 0 = 0) := by
  refine ⟨⟨test_witness_booted_environment, test_witness_booted_queues, rfl, by decide⟩, by decide, ?_, ?_,
    rfl, by decide, rfl⟩ <;> constructor <;> decide +kernel

/-- SecondWrapLosesAnEpoch: one tick before the second wrap. -/
theorem test_witness_second_wrap :
    let s := { booted with cnt := 0xFFFF, ovfIf := true }
    s.cfg.wellFormed = true ∧ EnvInv s ∧ QueueWF s [] [] ∧ s.ovfIf = true ∧ s.draws = [] ∧
      s.cnt.toNat + 1 = 2 ^ s.cfg.hw := by
  refine ⟨by decide, ?_, ?_, rfl, rfl, by decide⟩ <;> constructor <;> decide +kernel

/-! ### Witnesses: handlers -/

/-- InterruptSourcesAndTheirPriority: each source taken, with every later one pending too. -/
theorem test_witness_sources :
    ({ hpArmed with ovfIf := true, hpIf := true, cmpIf := true } : State).deliverable = some .ovf ∧
    ({ hpArmed with hpIf := true, cmpIf := true } : State).deliverable = some .hp ∧
    ({ hpArmed with cmpIf := true } : State).deliverable = some .cmp ∧
    ({ hpArmed with ctx := .irq, gie := false, cmpIf := true } : State).deliverable = none := by decide

/-- OverflowHandlerAdvancesTheEpoch and HandlersNeverWriteQueuesOrInterface: each handler completes. -/
theorem test_witness_handlers :
    (busy.cfg.wellFormed = true ∧ EnvInv busy ∧ QueueWF busy [1, 2] [0]) ∧
    after (takeInterrupt .ovf busy) (fun _ => true) = true ∧
    after (takeInterrupt .hp hpArmed) (fun _ => true) = true ∧
    after (takeInterrupt .cmp flagged) (fun _ => true) = true ∧ flagged.expiredFlag = true :=
  ⟨⟨by decide, test_witness_busy_environment, test_witness_busy_queues⟩, by decide +kernel, by decide +kernel,
    by decide +kernel, rfl⟩

/-- CompareHandlerSetsTheExpiredFlag and HighPriorityDelivery: both clauses of each. -/
theorem test_witness_handler_clauses : busy.ocrAuth = true ∧ booted.ocrAuth = false ∧
    hpArmed.hpCb ≠ 0 ∧ booted.hpCb = 0 := by decide

/-! ### Witnesses: the slot-table commands -/

/-- IsRunningAnswersWhetherACallbackIsSet: each clause, the ids on the table's edge. -/
theorem test_witness_is_running : Memory.wf busy.cfg busy.slots = true ∧
    (∃ sl, busy.slot? 0 = some sl ∧ sl.callback ≠ 0) ∧ (∃ sl, busy.slot? 3 = some sl ∧ sl.callback = 0) ∧
    busy.cfg.nTimers ≤ (4 : TimerId).toNat ∧ (3 : TimerId).toNat < busy.cfg.nTimers :=
  ⟨by decide, ⟨_, rfl, by decide⟩, ⟨_, rfl, by decide⟩, by decide, by decide⟩

/-- StartRejectionsChangeNothing: each clause, at the boundary of each check. -/
theorem test_witness_start_rejections :
    let s := withOperands busy 0 0x1030 0xA3
    let u := withOperands (State.resetFor narrow) 0x8000000 0x1030 0xA3
    let late := withOperands busy 0x40 0x1030 0xA3
    (s.cfg.wellFormed = true ∧ Memory.wf s.cfg s.slots = true ∧ ¬ (4 : TimerId).toNat < s.cfg.nTimers) ∧
    ((3 : TimerId).toNat < s.cfg.nTimers ∧ ¬ ((2 : BitVec 4) = 0 ∨ (2 : BitVec 4) = 1)) ∧
    (s.opCb ≠ 0 ∧ ¬ ∀ sl, s.slot? 0 = some sl → sl.callback = 0) ∧
    ((∀ sl, s.slot? 3 = some sl → sl.callback = 0) ∧ s.opTimeout.toNat < s.cfg.minTimeout.toNat) ∧
    (u.cfg.wellFormed = true ∧ Memory.wf u.cfg u.slots = true ∧ u.cfg.maxTimeout.toNat < u.opTimeout.toNat ∧
      u.cfg.relClamp = false) ∧
    2 ^ u.cfg.w ≤ (0x10000000 : Word).toNat ∧
    late.delayTo late.opTimeout < late.cfg.minTimeout.toNat ∧
    late.cfg.maxTimeout.toNat < late.delayTo 0x3F := by decide +kernel

/-- StartInsertsTheTimer: a relative delay above the maximum, clamped, and an
absolute deadline; with and without the flag. -/
theorem test_witness_start_accepted :
    StartAccepted (withOperands busy 0xFFFFFFFF 0x1030 0xA3) 0 3 0x8000003F ∧
    StartAccepted (withOperands flagged 0x51 0x1030 0xA3) 1 3 0x51 ∧
    EnvInv (withOperands flagged 0x51 0x1030 0xA3) ∧
    QueueWF (withOperands flagged 0x51 0x1030 0xA3) [1, 2] [0] := by
  refine ⟨?_, ?_, ?_, ?_⟩ <;> constructor <;> decide +kernel

/-- AcceptedDeadlinesAreAhead: the relative delay that is clamped and the absolute deadline, each accepted. -/
theorem test_witness_accepted_deadlines :
    after (exec (.start 0 3) (withOperands busy 0xFFFFFFFF 0x1030 0xA3)) (fun t =>
      t.status == 0 && t.fault == .none && t.deadline 3 == 0x8000003F) = true ∧
    after (exec (.start 1 3) (withOperands flagged 0x51 0x1030 0xA3)) (fun t =>
      t.status == 0 && t.fault == .none && t.deadline 3 == 0x51) = true := by decide +kernel

/-- StartInsertsTheTimer: the insertion of timer 3 between 1 and 2, with a deadline equal to timer 1's. -/
def inserted : State :=
  { busy with
    slots := [⟨0x32, 0x1000, 0xA0, 0xFF⟩, ⟨0x50, 0x1010, 0xA1, 3⟩, ⟨0x64, 0x1020, 0xA2, 0xFF⟩,
      ⟨0x50, 0x1030, 0xA3, 2⟩]
    runCount := 3 }

theorem test_witness_inserted_queues : QueueWF inserted [1, 3, 2] [0] := by
  constructor <;> decide +kernel

/-- Every TimerId reads as the insertion says. -/
theorem test_witness_insertion : InsertedInto busy inserted [1, 2] [0] 3 0x50 0x1030 0xA3 ∧
    (3 : TimerId) ∉ [1, 2] := by
  have hq : busy.insertedRun [1, 2] 3 0x50 = [1, 3, 2] := by decide +kernel
  have hd : ∀ j : TimerId, j ≠ 3 → ∀ sl ∈ busy.slot? j,
      inserted.slot? j = some { sl with next := ((inserted.slot? j).map (·.next)).getD 0 } := by
    decide +kernel
  have ho : ∀ j : TimerId, j ≠ 3 → j ≠ 1 → inserted.slot? j = busy.slot? j := by decide +kernel
  have hp : ([1, 2].takeWhile fun k => isBefore busy.cfg (busy.deadline k) 0x50).getLast? = some 1 := by
    decide +kernel
  have hs : inserted.slot? 3 = some ⟨0x50, 0x1030, 0xA3, 2⟩ := by decide +kernel
  exact ⟨⟨by unfold QueueFieldsOnly; decide +kernel, hq ▸ test_witness_inserted_queues, ⟨2, hs⟩,
    fun j sl hj hs => ⟨_, hd j hj sl hs⟩, fun j hj hn => ho j hj fun e => hn (e ▸ hp)⟩, by decide⟩

/-- The deadlines of the running queue before and after lie in a short arc. -/
theorem test_witness_deadlines : withinArc busy.cfg [0x50, 0x64, 0x50, 0x50, 0x64] := by
  have hm : ([0x50, 0x64, 0x50, 0x50, 0x64] : List Word).all
      (fun t => decide (t.toNat < 2 ^ busy.cfg.w ∧ (timeSub busy.cfg t 0x50).toNat < 2 ^ (busy.cfg.w - 1)))
      = true := by decide +kernel
  exact ⟨0x50, fun t ht => of_decide_eq_true (List.all_eq_true.1 hm t ht)⟩

/-- QueueOrderIsKept: the `START` of timer 3 at timer 1's deadline goes between 1 and 2; the `STOP` of the
head and a step complete; the deadlines before and after lie in a short arc. -/
theorem test_witness_order :
    let s := withOperands busy 0x50 0x1030 0xA3
    (s.cfg.wellFormed = true ∧ QueueWF s [1, 2] [0] ∧ s.sorted [1, 2] = true) ∧
    (∃ t, exec (.start 1 3) s = .next t ∧ (t.status == 0 && t.runList == some [1, 3, 2] &&
      (t.deadline 3 :: [1, 2].map s.deadline == [0x50, 0x50, 0x64]) &&
      ([1, 2].map s.deadline ++ [1, 3, 2].map t.deadline == [0x50, 0x64, 0x50, 0x50, 0x64])) = true) ∧
    after (exec (.stop 1) s) (fun t => t.runList == some [2]) = true ∧
    after (step (hosting s (.write 0 4 0x40000000))) (fun t => t.runList == some [1, 2]) = true := by
  refine ⟨⟨by decide, ?_, by decide +kernel⟩, exists_next (by decide +kernel), by decide +kernel,
    by decide +kernel⟩
  constructor <;> decide +kernel

/-- StopOfAnIdOutsideTheTable and StopCancelsTheTimer: outside, on neither queue, on the running queue, its
head, on the expired queue. -/
theorem test_witness_stop :
    busy.cfg.nTimers ≤ (4 : TimerId).toNat ∧
    (flagged.cfg.wellFormed = true ∧ EnvInv flagged ∧ QueueWF flagged [1, 2] [0] ∧
      (3 : TimerId).toNat < flagged.cfg.nTimers) ∧
    (reconciledQueues flagged.expiredFlag [1, 2] [0] = ([2], [0, 1]) ∧
      (3 : TimerId) ∉ [2] ++ [0, 1] ∧ (2 : TimerId) ∈ [2] ++ [0, 1] ∧ [2].head? = some (2 : TimerId) ∧
      (1 : TimerId) ∈ [2] ++ [0, 1] ∧ [2].head? ≠ some (1 : TimerId)) ∧
    reconciledQueues busy.expiredFlag [1, 2] [0] = ([1, 2], [0]) :=
  ⟨by decide, ⟨by decide, test_witness_flagged_environment, test_witness_flagged_queues, by decide⟩,
    by decide, by decide⟩

/-- ReconcileMovesAtMostTheHead: both clauses. -/
theorem test_witness_reconcile : busy.ctx = .main ∧ busy.expiredFlag = false ∧
    flagged.ctx = .main ∧ flagged.expiredFlag = true := by decide

/-- PopTakesTheExpiredHead and PopOnAnEmptyQueue. -/
theorem test_witness_pop : QueueWF busy [1, 2] (0 :: []) ∧ busy.ctx = .main ∧
    busy.slot? 0 = some ⟨0x32, 0x1000, 0xA0, 0xFF⟩ ∧ booted.ctx = .main ∧ booted.expHead = 0xFF :=
  ⟨test_witness_busy_queues, rfl, by decide, rfl, rfl⟩

/-! ### Witnesses: the high-priority timer -/

/-- HpStartArmsTheTimer: each clause, at the boundary of each check. -/
theorem test_witness_hp_start :
    let s := withOperands busy 0x10000 0x6000 0x77
    (s.cfg.wellFormed = true ∧ s.cfg.hpPresent = true ∧ ¬ (s.opCb ≠ 0 ∧ ((2 : BitVec 4) = 0 ∨ (2 : BitVec 4) = 1))) ∧
    hpArmed.hpCb ≠ 0 ∧
    (s.hpCb = 0 ∧ s.cfg.hpMaxTimeout.toNat < s.opTimeout.toNat) ∧
    (0 : Word).toNat < s.cfg.minTimeout.toNat ∧
    s.cfg.hpMaxTimeout.toNat < s.delayTo 0x10040 ∧ s.delayTo 0x40 < s.cfg.minTimeout.toNat ∧
    (s.cfg.minTimeout.toNat ≤ (0xFFFF : Word).toNat ∧ (0xFFFF : Word).toNat ≤ s.cfg.hpMaxTimeout.toNat) ∧
    (s.cfg.minTimeout.toNat ≤ s.delayTo 0x41 ∧ s.delayTo 0x41 ≤ s.cfg.hpMaxTimeout.toNat) ∧
    2 ^ narrow.w ≤ (0x10000000 : Word).toNat := by decide +kernel

/-- HpStopAndHpIsRunning: both clauses. -/
theorem test_witness_hp_stop : hpArmed.cfg.hpPresent = true ∧ hpArmed.hpCb ≠ 0 ∧ busy.hpCb = 0 := by decide

/-- HpMatchComesExactlyAfterTheDelay: the longest delay. -/
theorem test_witness_hp_match :
    let s := withOperands busy 0xFFFF 0x6000 0x77
    EnvInv s ∧
      after (exec (.hpStart 0) s) (fun t => t.status == 0 && s.delayTo t.hpExpiry == 0xFFFF) = true := by
  refine ⟨?_, by decide +kernel⟩
  constructor <;> decide +kernel

/-! ### Witnesses: the whole machine -/

/-- EnvironmentInvariantIsKept, QueueWellFormednessIsKept, CompareUnitInvariantIsKept: a step that answers a
next state from a state with all three. -/
theorem test_witness_invariants : Safe { busy with sched := [.clk] } ∧
    ∃ t, step { busy with sched := [.clk] } = .next t ∧ (t.cnt == 0x41) = true := by
  refine ⟨⟨by decide, rfl, ?_, ⟨[1, 2], [0], ?_⟩, ?_⟩, exists_next (by decide +kernel)⟩
  · constructor <;> decide +kernel
  · constructor <;> decide +kernel
  · exact ⟨fun _ => ⟨⟨0x50, 0x1010, 0xA1, 2⟩, by decide +kernel⟩, by decide +kernel, by decide +kernel,
      by decide +kernel⟩

/-- OnlyForbiddenHostMovesAreRefused: both refusals. -/
theorem test_witness_refusals : step (hosting busy (.read 0 2)) = .refused .subWordAccess ∧
    step (hosting busy .iret) = .refused .moveNotInContext := ⟨rfl, rfl⟩

/-- ExpiredFlagIsClearedOnlyByReconciliation and QueuesAreWrittenOnlyByQueueCommands. -/
theorem test_witness_flag_cleared : flagged.expiredFlag = true ∧
    after (step (hosting flagged (.write 0 4 0x40000000)))
      (fun t => !t.expiredFlag && t.runHead != flagged.runHead) = true := by decide +kernel

/-- SysHighIsWrittenOnlyByTheOverflowHandler. -/
theorem test_witness_sys_high : 
    after (step { busy with ovfIf := true, sched := [.irq] }) (fun t => t.sysHigh != busy.sysHigh) = true := by
  decide +kernel

/-- RunCountAndHpExpiryAreNeverRead: two different states. -/
theorem test_witness_unread :
    busy.forgetUnread = ({ busy with runCount := 7, hpExpiry := 9 } : State).forgetUnread ∧
    busy ≠ { busy with runCount := 7, hpExpiry := 9 } := ⟨rfl, by decide⟩

end Sys2Proof.Tests
end

section
/-! PROOFS. Parameter sets that break a constraint (00_scope.md R6, 93_implementation_defined.md U4). -/

namespace Sys2Proof.Machine

/-- Every constraint of the parameter table holds of a well-formed parameter set, the one on
`HP_MAX_TIMEOUT` whether or not `HP_PRESENT` holds (00_scope.md R6). -/
theorem Params.wellFormed_constraints {p : Params} (h : p.wellFormed = true) :
    28 ≤ p.w ∧ p.w ≤ 32 ∧ 1 ≤ p.hw ∧ p.hw ≤ p.w ∧ p.nTimers ≤ 255 ∧
      p.minTimeout.toNat ≤ p.maxTimeout.toNat ∧ p.maxTimeout.toNat ≤ 2 ^ (p.w - 1) - 1 ∧
      p.minTimeout.toNat ≤ p.hpMaxTimeout.toNat ∧ p.hpMaxTimeout.toNat ≤ p.maxTimeout.toNat ∧
      p.hpMaxTimeout.toNat ≤ 2 ^ p.hw - 1 := by
  obtain ⟨hwMin, hwMax, hhwMin, hhwMax, hTimers, hBounds, hMax⟩ := Params.wellFormed_bounds h
  exact ⟨hwMin, hwMax, hhwMin, hhwMax, hTimers, hBounds, hMax, Params.wellFormed_hpBounds h⟩

/-- The step checks the parameter set before it looks at the turn, the fault register or anything else
(93_implementation_defined.md U4). -/
theorem step_of_not_wellFormed {s : State} (h : ¬ s.cfg.wellFormed = true) :
    step s = .refused .badParameters := if_neg h

/-- Settles O19: a parameter set the step accepts meets every constraint, so one that breaks a
constraint is not accepted. -/
theorem brokenParameterSetsAreRefused : Obligations.BrokenParameterSetsAreRefused := by
  intro s hBroken
  exact step_of_not_wellFormed fun hWf => hBroken (Params.wellFormed_constraints hWf)

end Sys2Proof.Machine
end

section
/-! PROOFS. What a command's body can write, whether it is done or raises: a sequence of eight kinds of
writes. An invariant of all commands is then one lemma over the kinds of writes. -/

namespace Sys2Proof.Machine

/-! ### Arming the compare unit (44_compare_programmer.md R177, R178) -/

theorem armCompare_of_eq {s : State} {exp : Word} (h : timeHi s.cfg exp = s.sysHigh) :
    s.armCompare exp = { s with
      ocr := timeLo s.cfg exp, cmpIf := false, cmpIe := true, ocrAuth := true } := if_pos h

theorem armCompare_of_ne {s : State} {exp : Word} (h : ¬timeHi s.cfg exp = s.sysHigh) :
    s.armCompare exp = { s with cmpIf := false, cmpIe := false, ocrAuth := false } := if_neg h

/-! ### The writes -/

/-- One write of a command's body or of `prog_compare`. -/
inductive Write : State → State → Prop where
  /-- The slots and the queue registers (10_state.md R23 to R27); no slot comes or goes. -/
  | queues {s t : State} (h : QueueFieldsOnly s t) (length : t.slots.length = s.slots.length) : Write s t
  /-- `expired_flag` (R28). -/
  | flag (s : State) (b : Bool) : Write s (s.setExpired b)
  /-- The compare unit disarmed for an empty queue (44_compare_programmer.md R176). -/
  | disarm (s : State) : Write s (s.disableCompareIrq.setAuth false)
  /-- The compare unit set for a deadline (R177, R178). -/
  | arm (s : State) (exp : Word) : Write s (s.armCompare exp)
  /-- The ticks of a `yield` (20_memory.md R63). -/
  | yield (s : State) : Write s s.yield
  /-- A raise of `InvariantViolated` (60_exceptions.md R229). -/
  | raise (s : State) : Write s s.invariantViolated
  /-- The high-priority timer armed, after the checks of 46_high_priority.md R205. -/
  | hpArm (s : State) (target : Word) (present : s.cfg.hpPresent = true) (callback : s.opCb ≠ null)
      (time : target.toNat < 2 ^ s.cfg.w) : Write s (s.hpArm target)
  /-- The high-priority timer cleared (R206). -/
  | hpClear (s : State) : Write s s.hpClear

/-- A sequence of writes. -/
abbrev Writes : State → State → Prop := Relation.ReflTransGen Write

/-- A predicate that every write keeps is kept by a sequence of them. -/
theorem Writes.keep {P : State → Prop} (keep : ∀ {a b}, Write a b → P a → P b) {s t : State}
    (h : Writes s t) (hs : P s) : P t := by
  induction h with
  | refl => exact hs
  | tail _ hw ih => exact keep hw ih

/-- From `s` a procedure has come to its end, or to its raise, by writes only. -/
def Proc.Wrote {α : Type} (s : State) : Proc α → Prop
  | .done _ t => Writes s t
  | .raised t => Writes s t ∧ t.fault ≠ .none

theorem Proc.Wrote.after {α : Type} {s t : State} {r : Proc α} (h : Writes s t) (hr : r.Wrote t) :
    r.Wrote s := by
  cases r with
  | done a u => exact h.trans hr
  | raised u => exact ⟨h.trans hr.1, hr.2⟩

theorem Proc.Wrote.andThen {α β : Type} {s : State} {r : Proc α} {f : α → State → Proc β}
    (hr : r.Wrote s) (hf : ∀ a t, (f a t).Wrote t) : (r.andThen f).Wrote s := by
  cases r with
  | done a t => exact (hf a t).after hr
  | raised t => exact hr

theorem done_wrote {α : Type} (a : α) (s : State) : (Proc.done a s).Wrote s := .refl

theorem invariantViolated_wrote {α : Type} (s : State) : (.raised s.invariantViolated : Proc α).Wrote s :=
  ⟨.single (.raise s), nofun⟩

theorem withSlot_wrote {α : Type} {s : State} {id : TimerId} {f : Slot → Proc α}
    (hf : ∀ sl, (f sl).Wrote s) : (s.withSlot id f).Wrote s := by
  unfold State.withSlot
  split
  · exact hf _
  · exact invariantViolated_wrote s

theorem walkFrom_wrote {α : Type} {s : State} {go : TimerId → Slot → Bool} {head : TimerId}
    {f : TimerId → TimerId → Proc α} (hf : ∀ prev cur, (f prev cur).Wrote s) :
    (s.walkFrom go head f).Wrote s := by
  unfold State.walkFrom
  split
  · exact hf _ _
  · exact invariantViolated_wrote s

/-! ### The queue procedures -/

/-- A link write is a queue write. -/
theorem setNext_write (s : State) (id n : TimerId) : Write s (s.setNext id n) :=
  .queues rfl (List.length_modify ..)

theorem clearCallback_write (s : State) (id : TimerId) : Write s (s.clearCallback id) :=
  .queues rfl (List.length_modify ..)

theorem linkRunning_write (s : State) (prev id : TimerId) : Write s (s.linkRunning prev id) := by
  unfold State.linkRunning
  split
  · exact .queues rfl rfl
  · exact setNext_write s prev id

theorem unlinkRunning_write (s : State) (prev next : TimerId) : Write s (s.unlinkRunning prev next) :=
  linkRunning_write s prev next

theorem unlinkExpired_write (s : State) (prev next : TimerId) : Write s (s.unlinkExpired prev next) := by
  unfold State.unlinkExpired
  split
  · exact .queues rfl rfl
  · exact setNext_write s prev next

theorem progCompare_wrote (s : State) : (progCompare s).Wrote s := by
  unfold progCompare
  split
  · exact .single (.disarm s)
  · exact withSlot_wrote fun sl => ((Relation.ReflTransGen.single (.arm s _)).tail (.yield _)).tail (.flag _ _)

theorem appendExpired_wrote (h : TimerId) (s : State) : (appendExpired h s).Wrote s := by
  unfold appendExpired
  split
  · exact .single (.queues rfl rfl)
  · exact withSlot_wrote fun _ => (Relation.ReflTransGen.single (setNext_write s _ h)).tail (.queues rfl rfl)

theorem moveHead_wrote (s : State) : (moveHead s).Wrote s := by
  unfold moveHead
  split
  · exact .refl
  · refine withSlot_wrote fun sl => .andThen (.after ?_ (appendExpired_wrote _ _)) fun _ t =>
      .single (.queues rfl rfl)
    exact (Relation.ReflTransGen.single (.queues rfl rfl)).tail (setNext_write _ _ _)

theorem reconcile_wrote (s : State) : (reconcile s).Wrote s := by
  unfold reconcile
  split
  · exact .andThen (.after (.single (.flag s false)) (moveHead_wrote _)) fun _ t => progCompare_wrote t
  · exact .refl

theorem placeRunning_wrote (id : TimerId) (target cb arg : Word) (s : State) :
    (placeRunning id target cb arg s).Wrote s := by
  refine walkFrom_wrote fun prev cur => ?_
  have h : Writes s ((((s.setNext id cur).linkRunning prev id).fillSlot id target cb arg).incRunCount) :=
    ((Relation.ReflTransGen.single (setNext_write s id cur)).tail (linkRunning_write _ _ _)).tail
      (.queues rfl (List.length_modify ..))
  split
  · exact .after h (progCompare_wrote _)
  · exact h

theorem removeRunning_wrote (id : TimerId) (s : State) : (removeRunning id s).Wrote s := by
  refine walkFrom_wrote fun prev cur => ?_
  split
  · exact .refl
  · refine withSlot_wrote fun sl => ?_
    exact ((Relation.ReflTransGen.single (unlinkRunning_write s prev sl.next)).tail
      (setNext_write _ id noTimer)).tail (.queues rfl rfl)

theorem removeExpired_wrote (id : TimerId) (s : State) : (removeExpired id s).Wrote s := by
  refine walkFrom_wrote fun prev cur => ?_
  split
  · exact .refl
  · refine withSlot_wrote fun sl => ?_
    refine Relation.ReflTransGen.tail ?_ (setNext_write _ id noTimer)
    split
    · exact (Relation.ReflTransGen.single (unlinkExpired_write s prev sl.next)).tail (.queues rfl rfl)
    · exact .single (unlinkExpired_write s prev sl.next)

/-! ### The commands' bodies -/

theorem startBody_wrote (mode : BitVec 4) (id : TimerId) (s : State) : (startBody mode id s).Wrote s := by
  unfold startBody
  split
  · exact .refl
  · split
    · exact .refl
    · refine withSlot_wrote fun sl => ?_
      split
      · exact .refl
      · split
        · exact .refl
        · refine .andThen (.after (.single (.yield s)) ?_) fun _ t => .refl
          exact .andThen (reconcile_wrote _) fun _ t => placeRunning_wrote _ _ _ _ t

theorem removeAny_wrote (id : TimerId) (s : State) : (removeAny id s).Wrote s :=
  .andThen (removeRunning_wrote id s) fun r t => match r with
    | .notFound => removeExpired_wrote id t
    | .removed => .refl
    | .removedRunningHead => .refl

theorem stopBody_wrote (id : TimerId) (s : State) : (stopBody id s).Wrote s := by
  unfold stopBody
  split
  · exact .refl
  · exact .andThen (reconcile_wrote s) fun _ t => .andThen (removeAny_wrote id t) fun r u => match r with
      | .notFound => .refl
      | .removed => .single (clearCallback_write u id)
      | .removedRunningHead =>
        .andThen (.after (.single (clearCallback_write u id)) (progCompare_wrote _)) fun _ v => .refl

theorem popExpired_wrote (s : State) : (popExpired s).Wrote s := by
  unfold popExpired
  split
  · exact .refl
  · refine withSlot_wrote fun sl => ?_
    have h : Writes s ((s.setExpHead sl.next).setExpTail (if sl.next = noTimer then noTimer else s.expTail)) :=
      .single (.queues rfl rfl)
    dsimp only
    split
    · exact .after h (invariantViolated_wrote _)
    · exact (h.tail (clearCallback_write _ _)).tail (setNext_write _ _ _)

/-- An absolute target is a time (41_slot_table_commands.md R132). -/
theorem absoluteTarget_lt {p : Params} {hi timeout now target : Word}
    (h : absoluteTarget p hi timeout now = some target) : target.toNat < 2 ^ p.w := by
  unfold absoluteTarget at h
  split at h
  · split at h
    · cases h; assumption
    · cases h
  · cases h

/-- The target of `START` is a time (R130). -/
theorem startTarget_lt {p : Params} {mode : BitVec 4} {timeout now target : Word}
    (h : startTarget p mode timeout now = some target) : target.toNat < 2 ^ p.w := by
  unfold startTarget at h
  split at h
  · obtain ⟨d, -, rfl⟩ := Option.map_eq_some_iff.1 h
    exact timeAdd_lt p now d
  · exact absoluteTarget_lt h

/-- The target of `HP_START` is a time (46_high_priority.md R205). -/
theorem hpTarget_lt {p : Params} {mode : BitVec 4} {timeout now target : Word}
    (h : hpTarget p mode timeout now = some target) : target.toNat < 2 ^ p.w := by
  unfold hpTarget at h
  split at h
  · split at h
    · cases h; exact timeAdd_lt p now timeout
    · cases h
  · exact absoluteTarget_lt h

theorem hpStartBody_wrote (mode : BitVec 4) {s : State} (hp : s.cfg.hpPresent = true) :
    (hpStartBody mode s).Wrote s := by
  unfold hpStartBody
  split
  · exact .refl
  · next hop =>
    rw [Bool.or_eq_true, not_or, decide_eq_true_eq] at hop
    split
    · exact .refl
    · split
      · exact .refl
      · exact .single (.hpArm s _ hp hop.1 (hpTarget_lt ‹_›))

theorem hpStopBody_wrote (s : State) : (hpStopBody s).Wrote s := by
  unfold hpStopBody
  split
  · exact .refl
  · exact .single (.hpClear s)

/-! ### The commands -/

/-- What a command runs inside its critical region. -/
def commandBody : Instr → State → Proc Reply
  | .start mode id, s => startBody mode id s
  | .stop id, s => stopBody id s
  | .isRunning id, s => .done (Reply.bool (s.timerRunning id)) s
  | .reconcile, s => (reconcile s).andThen fun _ t => .done (Reply.only .success) t
  | .popExpired, s => popExpired s
  | .now, s => .done ⟨.success, s.nowTime, 0, 0⟩ s
  | .hpStart mode, s => hpStartBody mode s
  | .hpStop, s => hpStopBody s
  | .hpIsRunning, s => .done (Reply.bool (s.hpCb != null)) s

/-- The commands that have no meaning here: `RECONCILE` and `POP_EXPIRED` in interrupt context
(60_exceptions.md R248), the `HP_` commands without the timer (30_encoding.md R89). -/
def State.answersIllegal (s : State) : Instr → Bool
  | .reconcile | .popExpired => s.ctx == .irq
  | .hpStart _ | .hpStop | .hpIsRunning => !s.cfg.hpPresent
  | .start _ _ | .stop _ | .isRunning _ | .now => false

/-- Every command is its body in a critical region, where it has a meaning. -/
theorem exec_eq (i : Instr) (s : State) :
    exec i s = if s.answersIllegal i then .next s.illegalCommand else criticalRegion (commandBody i) s := by
  have hp : ∀ body, (if s.cfg.hpPresent then criticalRegion body s else .next s.illegalCommand) =
      if !s.cfg.hpPresent then .next s.illegalCommand else criticalRegion body s := fun body => by
    cases s.cfg.hpPresent <;> rfl
  have context : ∀ body, (if s.ctx = .irq then .next s.illegalCommand else criticalRegion body s) =
      if s.ctx == .irq then .next s.illegalCommand else criticalRegion body s := fun body => by
    cases s.ctx <;> rfl
  cases i with
  | start | stop | isRunning | now => rfl
  | reconcile | popExpired => exact context _
  | hpStart | hpStop | hpIsRunning => exact hp _

/-- What a command's next state comes from. -/
theorem exec_cases {i : Instr} {s t : State} (h : exec i s = .next t) :
    t = s.illegalCommand ∨ (s.answersIllegal i = false ∧ criticalRegion (commandBody i) s = .next t) := by
  rw [exec_eq] at h
  split at h
  · cases h; exact .inl rfl
  · exact .inr ⟨Bool.eq_false_of_not_eq_true ‹_›, h⟩

/-- Every command answers a next state (30_encoding.md R87, 60_exceptions.md R252). -/
theorem exec_next (i : Instr) (s : State) : ∃ t, exec i s = .next t := by
  rw [exec_eq]
  split
  · exact ⟨_, rfl⟩
  · exact criticalRegion_next _ s

theorem commandBody_wrote (i : Instr) {s : State} (h : s.answersIllegal i = false) :
    (commandBody i s).Wrote s := by
  cases i with
  | start mode id => exact startBody_wrote mode id s
  | stop id => exact stopBody_wrote id s
  | reconcile => exact .andThen (reconcile_wrote s) fun _ t => done_wrote _ t
  | popExpired => exact popExpired_wrote s
  | hpStart mode => exact hpStartBody_wrote mode (by simpa [State.answersIllegal] using h)
  | hpStop => exact hpStopBody_wrote s
  | isRunning | now | hpIsRunning => exact done_wrote _ s

/-- What a command's next state is: an illegal command's answer, the writes of a body that is done and its
reply with `gie` restored, or the writes of a body that has raised (20_memory.md R66; log 9). -/
inductive CommandEnd (s : State) : State → Prop where
  | illegal : CommandEnd s s.illegalCommand
  | done (r : Reply) {u : State} (h : Writes (s.setGie false) u) : CommandEnd s ((u.setGie s.gie).writeReply r)
  | raised {t : State} (h : Writes (s.setGie false) t) (fault : t.fault ≠ .none) : CommandEnd s t

/-- Every command ends in one of these ways. -/
theorem exec_end {i : Instr} {s t : State} (h : exec i s = .next t) : CommandEnd s t := by
  rcases exec_cases h with rfl | ⟨hlegal, h⟩
  · exact .illegal
  · have hb : (commandBody i (s.setGie false)).Wrote (s.setGie false) :=
      commandBody_wrote i (by cases i <;> exact hlegal)
    rcases criticalRegion_cases h with ⟨r, u, hd, rfl⟩ | hr
    · rw [hd] at hb; exact .done r hb
    · rw [hr] at hb; exact .raised hb.1 hb.2

/-! ### The frame of every command -/

/-- Everything that a command's body can write; an overflow is not lost and no slot comes or goes. -/
structure BodyFrame (s t : State) : Prop where
  frame : t = { s with
    slots := t.slots
    runHead := t.runHead
    expHead := t.expHead
    expTail := t.expTail
    runCount := t.runCount
    expiredFlag := t.expiredFlag
    ocrAuth := t.ocrAuth
    cnt := t.cnt
    ocr := t.ocr
    cmpIe := t.cmpIe
    cmpIf := t.cmpIf
    ovfIf := t.ovfIf
    hpCb := t.hpCb
    hpArg := t.hpArg
    hpExpiry := t.hpExpiry
    ocrHp := t.ocrHp
    hpIe := t.hpIe
    hpIf := t.hpIf
    fault := t.fault
    draws := t.draws }
  length : t.slots.length = s.slots.length
  ovf : s.ovfIf = true → t.ovfIf = true

/-- Ticks do not clear the overflow latch (60_exceptions.md R240). -/
theorem ticks_ovfIf {n : Nat} {s : State} (h : s.ovfIf = true) : (State.ticks n s).ovfIf = true := by
  induction n generalizing s with
  | zero => exact h
  | succ n ih => exact ih (by simp [State.tick, h])

theorem Write.bodyFrame {s t : State} (h : Write s t) : BodyFrame s t := by
  cases h with
  | queues h length =>
    unfold QueueFieldsOnly at h
    exact ⟨by rw [h], length, fun ho => by rw [h]; exact ho⟩
  | arm exp =>
    by_cases hhi : timeHi s.cfg exp = s.sysHigh
    · rw [armCompare_of_eq hhi]
      exact ⟨rfl, rfl, id⟩
    · rw [armCompare_of_ne hhi]
      exact ⟨rfl, rfl, id⟩
  | yield => exact ⟨by rw [State.yield_frame], by simp, fun ho => ticks_ovfIf ho⟩
  | flag | disarm | raise | hpArm | hpClear => exact ⟨rfl, rfl, id⟩

theorem Writes.bodyFrame {s t : State} (h : Writes s t) : BodyFrame s t := by
  refine h.keep (P := BodyFrame s) (fun hw ha => ?_) ⟨rfl, rfl, id⟩
  have hb := hw.bodyFrame
  exact ⟨by rw [hb.frame, ha.frame], hb.length.trans ha.length, hb.ovf ∘ ha.ovf⟩

/-- Settles O12: the three ways a command ends, each with the frame of its writes. -/
theorem commandsKeepOperandsContextAndGie : Obligations.CommandsKeepOperandsContextAndGie := by
  intro i s t h
  cases exec_end h with
  | illegal => exact ⟨rfl, rfl, rfl, rfl, rfl, rfl, rfl, id, rfl, rfl, rfl, rfl, rfl, rfl, fun _ => rfl⟩
  | done r hw =>
    obtain ⟨hf, hl, ho⟩ := hw.bodyFrame
    rw [hf]
    exact ⟨rfl, rfl, rfl, rfl, rfl, rfl, rfl, ho, rfl, rfl, rfl, rfl, rfl, hl, fun _ => rfl⟩
  | raised hw fault =>
    obtain ⟨hf, hl, ho⟩ := hw.bodyFrame
    rw [hf]
    exact ⟨rfl, rfl, rfl, rfl, rfl, rfl, rfl, ho, rfl, rfl, rfl, rfl, rfl, hl, fun h => absurd h fault⟩

/-- Settles O13: the bodies of the three commands write nothing. -/
theorem readingCommandsWriteOnlyResults : Obligations.ReadingCommandsWriteOnlyResults := by
  intro s t i hi h
  have answer : ∃ r, commandBody i (s.setGie false) = .done r (s.setGie false) := by
    rcases hi with rfl | rfl | ⟨id, rfl⟩ <;> exact ⟨_, rfl⟩
  rcases exec_cases h with rfl | ⟨-, h⟩
  · rfl
  · obtain ⟨r, hd⟩ := answer
    rw [criticalRegion, hd] at h
    cases h
    rfl

end Sys2Proof.Machine
end

section
/-! PROOFS. What a step of the machine can be: the reset line's, a tick, an interrupt, a command, or a host
move that touches no engine state but `gie` and `ctx`; and what a refused step can be. -/

namespace Sys2Proof.Machine

/-! ### Steps that answer a next state -/

/-- Only the host's side differs: `CMD` and the operands, which the host writes (10_state.md R21), its
program, the schedule and its last read (R40). -/
def HostSide (s u : State) : Prop :=
  u = { s with
    cmd := u.cmd
    opTimeout := u.opTimeout
    opCb := u.opCb
    opArg := u.opArg
    sched := u.sched
    host := u.host
    hostRead := u.hostRead }

/-- What an agent's step from `s` to `t` does, once the host's side has been brought to that of `u`. -/
inductive AgentStep (s t : State) : Prop where
  | quiet (h : HostSide s t)
  | tick (u : State) (h : HostSide s u) (ht : t = u.tick)
  | setGie (u : State) (v : Bool) (h : HostSide s u) (ctx : s.ctx = .main) (ht : t = u.setGie v)
  | iret (u : State) (h : HostSide s u) (ctx : s.ctx = .irq) (ht : t = u.interruptReturn)
  | illegal (u : State) (h : HostSide s u) (ht : t = u.illegalCommand)
  | interrupt (u : State) (src : Source) (h : HostSide s u) (deliverable : s.deliverable = some src)
      (ht : takeInterrupt src u = .next t)
  | command (u : State) (w : Word) (rest : List HostMove) (i : Instr) (h : HostSide s u)
      (turn : s.turn = .host) (host : s.host = .write 0 4 w :: rest)
      (decoded : decode s.cfg.hpPresent w = .instr i) (ht : exec i u = .next t)

/-- A guarded move that answers a next state: its guard holds. -/
theorem next_of_guard {c : Prop} [Decidable c] {a t : State} {r : Refusal}
    (h : (if c then .next a else .refused r : Result) = .next t) : c ∧ t = a := by
  split at h <;> cases h
  exact ⟨‹_›, rfl⟩

/-- An access that has no effect is one below 0x20 that is not one aligned word (20_memory.md R68, R69). -/
theorem not_accessDefined {offset size : Nat} :
    ¬accessDefined offset size = true ↔ offset < 0x20 ∧ (size ≠ 4 ∨ offset % 4 ≠ 0) := by
  simp only [accessDefined, reservedOffset, Bool.or_eq_true, Bool.and_eq_true, decide_eq_true_eq, beq_iff_eq]
  omega

/-- A write of a register is on the host's side. -/
theorem writeRegister_hostSide {s u : State} (h : HostSide s u) (n : Nat) (v : Word) :
    HostSide s (u.writeRegister n v) := by
  have e : HostSide u (u.writeRegister n v) := by unfold State.writeRegister; split <;> rfl
  unfold HostSide at *
  rw [e, h]

/-- A write on the interface, the host's next move (30_encoding.md R80, 20_memory.md R68). -/
theorem hostWrite_step {s t : State} {offset size : Nat} {v : Word} {rest : List HostMove}
    (turn : s.turn = .host) (host : s.host = .write offset size v :: rest)
    (h : hostWrite offset size v (s.takeMove rest) = .next t) : AgentStep s t := by
  have hmove : HostSide s (s.takeMove rest) := rfl
  have hu : ∀ n, HostSide s ((s.takeMove rest).writeRegister n v) := fun n =>
    writeRegister_hostSide hmove n v
  by_cases hacc : accessDefined offset size = true
  · rw [hostWrite, if_pos hacc] at h
    split at h
    · obtain ⟨rfl⟩ : offset = 0 := ‹_›
      obtain rfl : size = 4 := by
        by_contra hs
        exact not_accessDefined.2 ⟨by decide, .inl hs⟩ hacc
      unfold issueCommand at h
      split at h
      · exact .command _ v rest _ (hu 0) turn host ‹_› h
      · cases h; exact .illegal _ (hu 0) rfl
    · cases h; exact .quiet (hu _)
  · rw [hostWrite, if_neg hacc] at h
    cases h

/-- The host's next move. -/
theorem hostMove_step {s t : State} {m : HostMove} {rest : List HostMove} (turn : s.turn = .host)
    (host : s.host = m :: rest) (h : hostMove m (s.takeMove rest) = .next t) : AgentStep s t := by
  have hu : HostSide s (s.takeMove rest) := rfl
  cases m with
  | write offset size v => exact hostWrite_step turn host h
  | read offset size => obtain ⟨-, rfl⟩ := next_of_guard h; exact .quiet rfl
  | irqEnable => obtain ⟨hc, rfl⟩ := next_of_guard h; exact .setGie _ true hu hc rfl
  | irqDisable => obtain ⟨hc, rfl⟩ := next_of_guard h; exact .setGie _ false hu hc rfl
  | iret => obtain ⟨hc, rfl⟩ := next_of_guard h; exact .iret _ hu hc rfl
  | branch offset mask value skip => obtain ⟨-, rfl⟩ := next_of_guard h; split <;> exact .quiet rfl
  | serviceTest => cases h; unfold serviceTest; split <;> exact .quiet rfl
  | delayTest t0 n => cases h; unfold delayTest; split <;> exact .quiet rfl
  | advance n =>
    cases h
    cases n with
    | zero => exact .quiet rfl
    | succ k => exact .tick ((s.takeMove rest).pushHost [.settle, .advance k]) rfl rfl
  | settle =>
    change settle _ = _ at h
    unfold settle at h
    split at h
    · cases h; exact .quiet rfl
    · exact .interrupt ((s.takeMove rest).pushHost [.settle]) _ rfl ‹_› h
  | invoke | service | servicePop | delay | delayStart => cases h; exact .quiet rfl

/-- The host's turn (20_memory.md R60, R64). -/
theorem hostTurn_step {s t : State} (turn : s.turn = .host) (h : hostTurn s = .next t) : AgentStep s t := by
  unfold hostTurn at h
  split at h
  · cases h; exact .quiet rfl
  · split at h
    · exact .interrupt s _ rfl ‹_› h
    · exact hostMove_step turn ‹_› h

/-- The `IRQ` agent's turn (R60, 60_exceptions.md R235). -/
theorem irqTurn_step {s t : State} (h : irqTurn s = .next t) : AgentStep s t := by
  unfold irqTurn at h
  split at h
  · cases h; exact .quiet rfl
  · exact .interrupt s.useTurn _ rfl ‹_› h

/-- A step in which the turn is not the reset line's: an agent's, or the fault that is raised (10_state.md
R39). -/
theorem step_of_agent {s : State} (hwf : s.cfg.wellFormed = true)
    (ht : ∀ program, s.turn ≠ .reset program) :
    step s = match s.fault with
      | .none => agentTurn s.turn s
      | .fatalAssert => .fault .fatalAssert
      | .invariantViolated => .fault .invariantViolated := by
  rw [step, agentStep, if_pos hwf, guardedTurn.eq_def]
  cases hturn : s.turn with
  | reset program => exact absurd hturn (ht program)
  | host | clk | irq => cases s.fault <;> rfl

/-- A step in which the turn is the reset line's (70_reset_and_hazards.md R260). -/
theorem step_of_reset {s : State} {program : List HostMove} (hwf : s.cfg.wellFormed = true)
    (ht : s.turn = .reset program) : step s = .next (s.useTurn.externalReset program) := by
  rw [step, agentStep, if_pos hwf, ht]
  rfl

/-- Every step that answers a next state: the reset line's, in every state, or an agent's, with nothing
faulted (10_state.md R39, 60_exceptions.md R228). -/
theorem step_cases {s t : State} (h : step s = .next t) :
    s.cfg.wellFormed = true ∧
      ((∃ program, s.turn = .reset program ∧ t = s.useTurn.externalReset program) ∨
        (s.fault = .none ∧ AgentStep s t)) := by
  have hwf : s.cfg.wellFormed = true := by
    by_contra hn
    rw [step_of_not_wellFormed hn] at h
    cases h
  refine ⟨hwf, ?_⟩
  by_cases ht : ∃ program, s.turn = .reset program
  · obtain ⟨program, ht⟩ := ht
    rw [step_of_reset hwf ht] at h
    cases h
    exact .inl ⟨program, ht, rfl⟩
  · rw [step_of_agent hwf (not_exists.1 ht)] at h
    split at h
    · refine .inr ⟨‹_›, ?_⟩
      cases hturn : s.turn with
      | host => rw [hturn] at h; exact hostTurn_step hturn h
      | clk => rw [hturn] at h; cases h; exact .tick s.useTurn rfl rfl
      | irq => rw [hturn] at h; exact irqTurn_step h
      | reset program => exact absurd ⟨program, hturn⟩ ht
    · cases h
    · cases h

/-! ### Turns that are refused; no turn faults -/

/-- An outcome that is no fault, and a refusal only with `P`. -/
def Answers (P : Refusal → Prop) : Result → Prop
  | .next _ => True
  | .fault _ => False
  | .refused r => P r

theorem answers_of_next {P : Refusal → Prop} {r : Result} (h : ∃ t, r = .next t) : Answers P r := by
  obtain ⟨t, rfl⟩ := h
  trivial

/-- A guarded move is refused when its guard does not hold. -/
theorem answers_of_guard {P : Refusal → Prop} {c : Prop} [Decidable c] {a : State} {r : Refusal}
    (h : ¬c → P r) : Answers P (if c then .next a else .refused r) := by
  split
  · trivial
  · exact h ‹_›

/-- Taking an interrupt answers a next state. -/
theorem takeInterrupt_next (src : Source) (s : State) : ∃ t, takeInterrupt src s = .next t := by
  unfold takeInterrupt
  split <;> exact ⟨_, rfl⟩

/-- The refusals of host moves, as 93_implementation_defined.md V7 and V10 list them. -/
def ForbiddenMove (ctx : Ctx) (m : HostMove) (r : Refusal) : Prop :=
  (r = .subWordAccess ∧
    ((∃ offset size v, m = .write offset size v ∧ offset < 0x20 ∧ (size ≠ 4 ∨ offset % 4 ≠ 0)) ∨
     (∃ offset size, m = .read offset size ∧ offset < 0x20 ∧ (size ≠ 4 ∨ offset % 4 ≠ 0)) ∨
     (∃ offset mask value skip, m = .branch offset mask value skip ∧ offset < 0x20 ∧ offset % 4 ≠ 0))) ∨
  (r = .moveNotInContext ∧
    ((m = .iret ∧ ctx = .main) ∨ ((m = .irqEnable ∨ m = .irqDisable) ∧ ctx = .irq)))

theorem ctx_of_ne_main {c : Ctx} (h : ¬c = .main) : c = .irq := by cases c <;> trivial

theorem ctx_of_ne_irq {c : Ctx} (h : ¬c = .irq) : c = .main := by cases c <;> trivial

/-- A write on the interface is refused only as a sub-word or misaligned one of a register: a command is
never refused. -/
theorem hostWrite_answers (offset size : Nat) (v : Word) (s : State) :
    Answers (ForbiddenMove s.ctx (.write offset size v)) (hostWrite offset size v s) := by
  unfold hostWrite
  split
  · split
    · unfold issueCommand
      split
      · exact answers_of_next (exec_next _ _)
      · trivial
    · trivial
  · exact .inl ⟨rfl, .inl ⟨offset, size, v, rfl, not_accessDefined.1 ‹_›⟩⟩

/-- A refused host move is a forbidden one. -/
theorem hostMove_answers (m : HostMove) (s : State) : Answers (ForbiddenMove s.ctx m) (hostMove m s) := by
  cases m with
  | write offset size v => exact hostWrite_answers offset size v s
  | read offset size =>
    exact answers_of_guard fun hacc => .inl ⟨rfl, .inr (.inl ⟨offset, size, rfl, not_accessDefined.1 hacc⟩)⟩
  | branch offset mask value skip =>
    refine answers_of_guard fun hacc => ?_
    obtain ⟨hlt, hal⟩ := not_accessDefined.1 hacc
    exact .inl ⟨rfl, .inr (.inr ⟨offset, mask, value, skip, rfl, hlt, hal.resolve_left (not_not.2 rfl)⟩)⟩
  | irqEnable => exact answers_of_guard fun hc => .inr ⟨rfl, .inr ⟨.inl rfl, ctx_of_ne_main hc⟩⟩
  | irqDisable => exact answers_of_guard fun hc => .inr ⟨rfl, .inr ⟨.inr rfl, ctx_of_ne_main hc⟩⟩
  | iret => exact answers_of_guard fun hc => .inr ⟨rfl, .inl ⟨rfl, ctx_of_ne_irq hc⟩⟩
  | settle =>
    change Answers _ (settle s)
    unfold settle
    split
    · trivial
    · exact answers_of_next (takeInterrupt_next _ _)
  | invoke | service | servicePop | serviceTest | delay | delayStart | delayTest | advance => trivial

/-- Only the host's turn can be refused, and then its next move is a forbidden one. -/
def HostRefusal (t : Turn) (s : State) (r : Refusal) : Prop :=
  t = .host ∧ ∃ m rest, s.host = m :: rest ∧ ForbiddenMove s.ctx m r

theorem hostTurn_answers (s : State) : Answers (HostRefusal .host s) (hostTurn s) := by
  unfold hostTurn
  split
  · trivial
  · next m rest hhost =>
    split
    · exact answers_of_next (takeInterrupt_next _ _)
    · have hm := hostMove_answers m (s.takeMove rest)
      cases h : hostMove m (s.takeMove rest) with
      | next t => trivial
      | fault f => rw [h] at hm; exact hm.elim
      | refused r => rw [h] at hm; exact ⟨rfl, m, rest, hhost, hm⟩

theorem agentTurn_answers (t : Turn) (s : State) : Answers (HostRefusal t s) (agentTurn t s) := by
  cases t with
  | host => exact hostTurn_answers s
  | clk => trivial
  | irq =>
    change Answers _ (irqTurn s)
    unfold irqTurn
    split
    · trivial
    · exact answers_of_next (takeInterrupt_next _ _)
  | reset program => trivial

/-- With well-formed parameters and nothing faulted a step is no fault, and only the host's is refused. -/
theorem step_answers {s : State} (hwf : s.cfg.wellFormed = true) (hf : s.fault = .none) :
    Answers (HostRefusal s.turn s) (step s) := by
  by_cases ht : ∃ program, s.turn = .reset program
  · obtain ⟨program, ht⟩ := ht
    exact answers_of_next ⟨_, step_of_reset hwf ht⟩
  · rw [step_of_agent hwf (not_exists.1 ht), hf]
    exact agentTurn_answers s.turn s

/-- A faulted state refuses nothing: the reset line steps, or the fault is answered. -/
theorem step_of_faulted {s : State} (hwf : s.cfg.wellFormed = true) (hf : s.fault ≠ .none) (r : Refusal) :
    step s ≠ .refused r := by
  by_cases ht : ∃ program, s.turn = .reset program
  · obtain ⟨program, ht⟩ := ht
    rw [step_of_reset hwf ht]
    exact nofun
  · rw [step_of_agent hwf (not_exists.1 ht)]
    split
    · exact absurd ‹_› hf
    · exact nofun
    · exact nofun

/-- Settles O56: with well-formed parameters only the host's turn can be refused, and then its next move
is a forbidden one. -/
theorem onlyForbiddenHostMovesAreRefused : Obligations.OnlyForbiddenHostMovesAreRefused := by
  intro s r hwf h
  by_cases hf : s.fault = .none
  · have hr := step_answers hwf hf
    rw [h] at hr
    exact hr
  · exact absurd h (step_of_faulted hwf hf r)

/-- Settles O20: an agent's step from a faulted state is that fault, and only the reset line's is left. -/
theorem faultRegisterIsSticky : Obligations.FaultRegisterIsSticky := by
  refine ⟨fun s t hf h => ?_, fun s hwf ht => ?_, fun p => rfl⟩
  · rcases (step_cases h).2 with ⟨program, ht, -⟩ | ⟨hn, -⟩
    · exact ⟨program, ht⟩
    · exact absurd hn hf
  · rw [step_of_agent hwf ht]
    exact ⟨fun hf => by rw [hf], fun hf => by rw [hf]⟩

end Sys2Proof.Machine
end

section
/-! PROOFS. What an interrupt can write, and the environment's invariants: each write of a command's body,
each handler, the tick, each host move and reset keep them. -/

namespace Sys2Proof.Machine

/-! ### Interrupts -/

/-- What taking an interrupt from a source ends in (60_exceptions.md R232 to R234, R237, R238). -/
inductive InterruptEnd (s : State) : Source → State → Prop where
  | ovf {u : State} (h : progCompare s.interruptEntry.takeOverflow = .done () u) :
      InterruptEnd s .ovf u.interruptReturn
  | ovfRaised (empty : s.runHead ≠ noTimer) (noSlot : s.slot? s.runHead = none) :
      InterruptEnd s .ovf s.interruptEntry.takeOverflow.invariantViolated
  | hp (callback : s.hpCb ≠ null) :
      InterruptEnd s .hp (s.interruptEntry.takeHpMatch.hpClear.pushHost [.invoke s.hpCb s.hpArg])
  | hpFatal (callback : s.hpCb = null) : InterruptEnd s .hp s.interruptEntry.takeHpMatch.fatalAssert
  | cmp : InterruptEnd s .cmp s.interruptEntry.takeMatch.interruptReturn

/-- Every interrupt ends in one of these ways. -/
theorem takeInterrupt_end {src : Source} {s t : State} (h : takeInterrupt src s = .next t) :
    InterruptEnd s src t := by
  cases src with
  | ovf =>
    cases hp : progCompare s.interruptEntry.takeOverflow with
    | done a u =>
      rw [takeInterrupt, handler, irqOvf, hp] at h
      cases h
      exact .ovf hp
    | raised u =>
      rw [takeInterrupt, handler, irqOvf, hp] at h
      cases h
      obtain ⟨hne, hs, rfl⟩ := progCompare_raised hp
      exact .ovfRaised hne hs
  | hp =>
    by_cases hcb : s.hpCb = null
    · rw [takeInterrupt, handler, irqHp, if_pos hcb] at h
      cases h
      exact .hpFatal hcb
    · rw [takeInterrupt, handler, irqHp, if_neg hcb] at h
      cases h
      exact .hp hcb
  | cmp => cases h; exact .cmp

/-! ### The environment's invariants -/

/-- The status codes are bytes (30_encoding.md R83, R86). -/
theorem statusCode_lt (st : Status) : st.code.toNat < 256 := by cases st <;> decide

theorem HostSide.keeps_envInv {s u : State} (h : HostSide s u) (hs : EnvInv s) : EnvInv u := by
  unfold HostSide at h
  rw [h]
  exact { hs with }

/-- A tick sets a latch only where its enable is 1 (60_exceptions.md R240). -/
theorem EnvInv.tick {s : State} (hs : EnvInv s) : EnvInv s.tick :=
  { hs with
    cnt := s.cntNext_lt
    cmpLatch := fun h => by
      rw [State.tick_cmpIf, Bool.or_eq_true, Bool.and_eq_true] at h
      exact h.elim hs.cmpLatch And.left
    hpLatch := fun h => by
      rw [State.tick_hpIf, Bool.or_eq_true, Bool.and_eq_true, Bool.and_eq_true] at h
      exact h.elim hs.hpLatch fun h => h.1.2
    hpAbsent := fun h => by
      obtain ⟨hcb, harg, hexp, hocr, hie, hif⟩ := hs.hpAbsent h
      exact ⟨hcb, harg, hexp, hocr, hie, by simp [State.tick, hif, hie]⟩ }

theorem EnvInv.ticks {n : Nat} {s : State} (hs : EnvInv s) : EnvInv (State.ticks n s) := by
  induction n generalizing s with
  | zero => exact hs
  | succ n ih => exact ih hs.tick

theorem Write.keeps_envInv {s t : State} (h : Write s t) (hs : EnvInv s) : EnvInv t := by
  cases h with
  | queues h =>
    unfold QueueFieldsOnly at h
    rw [h]
    exact { hs with }
  | flag | raise => exact { hs with }
  | disarm => exact { hs with cmpLatch := nofun }
  | arm exp =>
    by_cases hhi : timeHi s.cfg exp = s.sysHigh
    · rw [armCompare_of_eq hhi]
      exact { hs with ocr := timeLo_lt _ _, cmpLatch := fun _ => rfl }
    · rw [armCompare_of_ne hhi]
      exact { hs with cmpLatch := nofun }
  | yield => exact EnvInv.ticks { hs with }
  | hpArm target present callback time =>
    exact { hs with
      ocrHp := timeLo_lt _ _
      hpExpiry := time
      hpLatch := nofun
      hpEnable := iff_of_true rfl callback
      hpAbsent := fun h => nomatch present.symm.trans h }
  | hpClear =>
    exact { hs with
      hpLatch := nofun
      hpEnable := iff_of_false nofun (not_not.2 rfl)
      hpAbsent := fun h =>
        let ⟨_, harg, hexp, hocr, _, _⟩ := hs.hpAbsent h
        ⟨rfl, harg, hexp, hocr, rfl, rfl⟩ }

theorem Writes.keeps_envInv {s t : State} (h : Writes s t) (hs : EnvInv s) : EnvInv t :=
  h.keep Write.keeps_envInv hs

/-- The restored `gie` is 0 in interrupt context, since it was (60_exceptions.md R247). -/
theorem CommandEnd.keeps_envInv {s t : State} (h : CommandEnd s t) (hs : EnvInv s) : EnvInv t := by
  have hbody : EnvInv (s.setGie false) := { hs with irqContext := fun _ => rfl }
  cases h with
  | illegal => exact { hs with status := statusCode_lt .illegalCommand }
  | done r hw =>
    have hctx := congrArg State.ctx hw.bodyFrame.frame
    exact { hw.keeps_envInv hbody with
      status := statusCode_lt r.status
      irqContext := fun hirq => hs.irqContext (hctx.symm.trans hirq) }
  | raised hw => exact hw.keeps_envInv hbody

theorem InterruptEnd.keeps_envInv {src : Source} {s t : State} (h : InterruptEnd s src t) (hs : EnvInv s) :
    EnvInv t := by
  have hovf : EnvInv s.interruptEntry.takeOverflow :=
    { hs with sysHigh := s.sysHighNext_lt, irqContext := fun _ => rfl }
  have hmatch : EnvInv s.interruptEntry.takeHpMatch :=
    { hs with
      hpLatch := nofun
      irqContext := fun _ => rfl
      hpAbsent := fun h =>
        let ⟨hcb, harg, hexp, hocr, hie, _⟩ := hs.hpAbsent h
        ⟨hcb, harg, hexp, hocr, hie, rfl⟩ }
  cases h with
  | ovf h =>
    have hw := progCompare_wrote s.interruptEntry.takeOverflow
    rw [h] at hw
    exact { Writes.keeps_envInv hw hovf with irqContext := nofun }
  | ovfRaised => exact { hovf with }
  | hp => exact { Write.keeps_envInv (.hpClear _) hmatch with }
  | hpFatal => exact { hmatch with }
  | cmp => exact { hs with cmpLatch := nofun, irqContext := nofun }

/-- Reset meets the environment's invariants, whatever the parameters (10_state.md R45). -/
theorem resetFor_envInv (p : Params) : EnvInv (State.resetFor p) where
  sysHigh := Nat.two_pow_pos _
  cnt := Nat.two_pow_pos _
  ocr := Nat.two_pow_pos _
  ocrHp := Nat.two_pow_pos _
  hpExpiry := Nat.two_pow_pos _
  status := (by decide : (0 : Word).toNat < 256)
  ovfIe := rfl
  cmpLatch := nofun
  hpLatch := nofun
  hpEnable := iff_of_false nofun (not_not.2 rfl)
  irqContext := nofun
  hpAbsent := fun _ => ⟨rfl, rfl, rfl, rfl, rfl, rfl⟩

theorem AgentStep.keeps_envInv {s t : State} (h : AgentStep s t) (hs : EnvInv s) : EnvInv t := by
  cases h with
  | quiet h => exact h.keeps_envInv hs
  | tick u h ht => rw [ht]; exact (h.keeps_envInv hs).tick
  | setGie u v h ctx ht =>
    have hctx : u.ctx = .main := (congrArg State.ctx h).trans ctx
    rw [ht]
    exact { h.keeps_envInv hs with irqContext := fun hirq => nomatch hctx.symm.trans hirq }
  | iret u h ctx ht => rw [ht]; exact { h.keeps_envInv hs with irqContext := nofun }
  | illegal u h ht => rw [ht]; exact CommandEnd.illegal.keeps_envInv (h.keeps_envInv hs)
  | interrupt u src h _ ht => exact (takeInterrupt_end ht).keeps_envInv (h.keeps_envInv hs)
  | command u w rest i h _ _ _ ht => exact (exec_end ht).keeps_envInv (h.keeps_envInv hs)

/-- Settles O52: reset establishes the invariants, and every agent's step keeps them. -/
theorem environmentInvariantIsKept : Obligations.EnvironmentInvariantIsKept := by
  intro s t hs h
  rcases (step_cases h).2 with ⟨program, -, rfl⟩ | ⟨-, hstep⟩
  · exact { resetFor_envInv s.cfg with }
  · exact hstep.keeps_envInv hs

end Sys2Proof.Machine
end

section
/-! PROOFS. Who writes the queues, `expired_flag` and `sys_high`; the interface registers; the reset values. -/

namespace Sys2Proof.Machine

/-! ### The queues and `expired_flag` -/

/-- The slots and the queue registers are not written, and `expired_flag` is not cleared. -/
structure QueuesUntouched (s t : State) : Prop where
  queues : t.slots = s.slots ∧ t.runHead = s.runHead ∧ t.expHead = s.expHead ∧ t.expTail = s.expTail ∧
    t.runCount = s.runCount
  flag : s.expiredFlag = true → t.expiredFlag = true

theorem QueuesUntouched.trans {s t u : State} (h : QueuesUntouched s t) (h' : QueuesUntouched t u) :
    QueuesUntouched s u := by
  obtain ⟨hs, hr, he, ht, hc⟩ := h.queues
  obtain ⟨hs', hr', he', ht', hc'⟩ := h'.queues
  exact ⟨⟨hs'.trans hs, hr'.trans hr, he'.trans he, ht'.trans ht, hc'.trans hc⟩, h'.flag ∘ h.flag⟩

theorem HostSide.expiredFlag {s u : State} (h : HostSide s u) : u.expiredFlag = s.expiredFlag := by
  unfold HostSide at h
  rw [h]

theorem HostSide.queuesUntouched {s u : State} (h : HostSide s u) : QueuesUntouched s u := by
  unfold HostSide at h
  rw [h]
  exact ⟨⟨rfl, rfl, rfl, rfl, rfl⟩, id⟩

/-- No handler writes a queue register or a slot, or clears `expired_flag` (20_memory.md R73, 10_state.md
R28). -/
theorem InterruptEnd.queuesUntouched {src : Source} {s t : State} (h : InterruptEnd s src t) :
    QueuesUntouched s t := by
  cases h with
  | ovf h =>
    obtain ⟨hf, hflag⟩ := progCompare_done h
    refine ⟨?_, hflag⟩
    rw [hf]
    exact ⟨rfl, rfl, rfl, rfl, rfl⟩
  | cmp =>
    constructor
    · simp
    · intro hset
      simp [hset]
  | ovfRaised | hp | hpFatal => constructor <;> simp

/-- What the body of a high-priority command can have written: nothing, or the timer cleared or armed. -/
def HpWritten (u t : State) : Prop := t = u ∨ t = u.hpClear ∨ ∃ target, t = u.hpArm target

theorem hpStartBody_done (mode : BitVec 4) (u : State) :
    ∃ r t, hpStartBody mode u = .done r t ∧ HpWritten u t := by
  unfold hpStartBody
  split
  · exact ⟨_, u, rfl, .inl rfl⟩
  · split
    · exact ⟨_, u, rfl, .inl rfl⟩
    · split
      · exact ⟨_, u, rfl, .inl rfl⟩
      · exact ⟨_, _, rfl, .inr (.inr ⟨_, rfl⟩)⟩

theorem hpStopBody_done (u : State) : ∃ r t, hpStopBody u = .done r t ∧ HpWritten u t := by
  unfold hpStopBody
  split
  · exact ⟨_, u, rfl, .inl rfl⟩
  · exact ⟨_, _, rfl, .inr (.inl rfl)⟩

/-- `POP_EXPIRED` does not clear `expired_flag`, done or raised (43_expired_queue.md R166). -/
theorem popExpired_flag {s t : State} (h : exec .popExpired s = .next t) :
    t.expiredFlag = s.expiredFlag := by
  rcases exec_cases h with rfl | ⟨-, h⟩
  · rfl
  · rcases criticalRegion_cases h with ⟨r, u, hd, rfl⟩ | hr
    · change popExpired _ = _ at hd
      unfold popExpired at hd
      split at hd
      · cases hd; rfl
      · obtain ⟨sl, -, hd⟩ := State.withSlot_eq_done.1 hd
        dsimp only at hd
        split at hd <;> cases hd
        simp
    · change popExpired _ = _ at hr
      unfold popExpired at hr
      split at hr
      · cases hr
      · rcases State.withSlot_eq_raised.1 hr with ⟨-, rfl⟩ | ⟨sl, -, hr⟩
        · simp
        · dsimp only at hr
          split at hr <;> cases hr
          simp

/-- The commands that write a queue; of them `POP_EXPIRED` does not clear `expired_flag`. -/
def QueueCommand (i : Instr) : Prop :=
  (∃ mode id, i = .start mode id) ∨ (∃ id, i = .stop id) ∨ i = .reconcile ∨ i = .popExpired

/-- Every other command's body writes at most the high-priority registers. -/
theorem commandBody_hpWritten {i : Instr} (hi : ¬QueueCommand i) (u : State) :
    ∃ r t, commandBody i u = .done r t ∧ HpWritten u t := by
  cases i with
  | start mode id => exact absurd (.inl ⟨mode, id, rfl⟩) hi
  | stop id => exact absurd (.inr (.inl ⟨id, rfl⟩)) hi
  | reconcile => exact absurd (.inr (.inr (.inl rfl))) hi
  | popExpired => exact absurd (.inr (.inr (.inr rfl))) hi
  | hpStart mode => exact hpStartBody_done mode u
  | hpStop => exact hpStopBody_done u
  | isRunning | now | hpIsRunning => exact ⟨_, u, rfl, .inl rfl⟩

/-- Every other command leaves the queues alone. -/
theorem exec_queuesUntouched {i : Instr} {s t : State} (h : exec i s = .next t) (hi : ¬QueueCommand i) :
    QueuesUntouched s t := by
  rcases exec_cases h with rfl | ⟨-, h⟩
  · exact ⟨⟨rfl, rfl, rfl, rfl, rfl⟩, id⟩
  · obtain ⟨r, u, hd, hu⟩ := commandBody_hpWritten hi (s.setGie false)
    rw [criticalRegion, hd] at h
    cases h
    rcases hu with rfl | rfl | ⟨target, rfl⟩ <;> constructor <;> simp

/-- The host issues a queue command in this step. -/
structure IssuesQueueCommand (s t : State) (i : Instr) : Prop where
  turn : s.turn = .host
  issued : ∃ w rest, s.host = .write 0 4 w :: rest ∧ decode s.cfg.hpPresent w = .instr i
  command : QueueCommand i
  popFlag : i = .popExpired → t.expiredFlag = s.expiredFlag

/-- An agent's step leaves the queues alone unless it is a queue command. -/
theorem AgentStep.queues {s t : State} (h : AgentStep s t) :
    QueuesUntouched s t ∨ ∃ i, IssuesQueueCommand s t i := by
  cases h with
  | quiet h => exact .inl h.queuesUntouched
  | tick u h ht | setGie u v h ctx ht | iret u h ctx ht | illegal u h ht =>
    rw [ht]
    exact .inl (h.queuesUntouched.trans ⟨⟨rfl, rfl, rfl, rfl, rfl⟩, id⟩)
  | interrupt u src h _ ht => exact .inl (h.queuesUntouched.trans (takeInterrupt_end ht).queuesUntouched)
  | command u w rest i h turn host decoded ht =>
    by_cases hi : QueueCommand i
    · refine .inr ⟨i, turn, ⟨w, rest, host, decoded⟩, hi, ?_⟩
      rintro rfl
      exact (popExpired_flag ht).trans h.expiredFlag
    · exact .inl (h.queuesUntouched.trans (exec_queuesUntouched ht hi))

/-- Settles O57: a step that is neither the reset line's nor a queue command keeps a set flag, and so does
`POP_EXPIRED`. -/
theorem expiredFlagIsClearedOnlyByReconciliation : Obligations.ExpiredFlagIsClearedOnlyByReconciliation := by
  intro s t h hset hclear
  rcases (step_cases h).2 with ⟨program, ht, -⟩ | ⟨-, hstep⟩
  · exact .inl ⟨program, ht⟩
  · rcases hstep.queues with hq | ⟨i, turn, ⟨w, rest, host, decoded⟩, command, popFlag⟩
    · exact absurd (hq.flag hset) (by rw [hclear]; exact Bool.false_ne_true)
    · refine .inr ⟨turn, w, rest, i, host, decoded, ?_⟩
      rcases command with hi | hi | hi | hi
      · exact .inl hi
      · exact .inr (.inl hi)
      · exact .inr (.inr hi)
      · rw [popFlag hi, hset] at hclear
        cases hclear

/-- Settles O58: a step that is neither the reset line's nor a queue command leaves the queues alone. -/
theorem queuesAreWrittenOnlyByQueueCommands : Obligations.QueuesAreWrittenOnlyByQueueCommands := by
  intro s t h hwritten
  rcases (step_cases h).2 with ⟨program, ht, -⟩ | ⟨-, hstep⟩
  · exact .inl ⟨program, ht⟩
  · rcases hstep.queues with hq | ⟨i, turn, ⟨w, rest, host, decoded⟩, command, -⟩
    · exact absurd hq.queues hwritten
    · exact .inr ⟨turn, w, rest, i, host, decoded, command⟩

/-! ### `sys_high` -/

/-- The epoch after an overflow, as a number (60_exceptions.md R232). -/
theorem sysHighNext_toNat {s : State} (h : s.cfg.w ≤ 32) :
    s.sysHighNext.toNat = (s.sysHigh.toNat + 1) % 2 ^ s.cfg.shw := by
  have hshw : s.cfg.shw ≤ 32 := (Nat.sub_le _ _).trans h
  rw [State.sysHighNext, lowBits_toNat, BitVec.toNat_add, Nat.mod_mod_of_dvd _ (two_pow_dvd hshw)]
  rfl

theorem HostSide.sysHigh {s u : State} (h : HostSide s u) :
    u.sysHigh = s.sysHigh ∧ u.sysHighNext = s.sysHighNext := by
  unfold HostSide at h
  rw [h]
  exact ⟨rfl, rfl⟩

@[simp] theorem interruptEntry_sysHighNext (s : State) : s.interruptEntry.sysHighNext = s.sysHighNext := rfl

/-- Only the overflow handler writes `sys_high`, a raise of its `prog_compare` included. -/
theorem InterruptEnd.sysHigh {src : Source} {s t : State} (h : InterruptEnd s src t) :
    (src = .ovf ∧ t.sysHigh = s.sysHighNext) ∨ t.sysHigh = s.sysHigh := by
  cases h with
  | ovf h =>
    have hf := congrArg State.sysHigh (progCompare_done h).1
    exact .inl ⟨rfl, by simpa using hf⟩
  | ovfRaised => exact .inl ⟨rfl, by simp⟩
  | hp | hpFatal | cmp => exact .inr (by simp)

/-- An agent's step that writes `sys_high` takes the overflow source. -/
theorem AgentStep.sysHigh {s t : State} (h : AgentStep s t) :
    (s.deliverable = some .ovf ∧ t.sysHigh = s.sysHighNext) ∨ t.sysHigh = s.sysHigh := by
  cases h with
  | quiet h => exact .inr h.sysHigh.1
  | tick u h ht | setGie u v h ctx ht | iret u h ctx ht | illegal u h ht =>
    rw [ht]
    exact .inr h.sysHigh.1
  | interrupt u src h deliverable ht =>
    obtain ⟨hsame, hnext⟩ := h.sysHigh
    rcases (takeInterrupt_end ht).sysHigh with ⟨rfl, hn⟩ | hn
    · exact .inl ⟨deliverable, hn.trans hnext⟩
    · exact .inr (hn.trans hsame)
  | command u w rest i h _ _ _ ht =>
    obtain ⟨-, -, -, -, hsys, -⟩ := commandsKeepOperandsContextAndGie i u t ht
    exact .inr (hsys.trans h.sysHigh.1)

/-- Settles O59: the one step of an agent that writes `sys_high` is the overflow handler's. -/
theorem sysHighIsWrittenOnlyByTheOverflowHandler : Obligations.SysHighIsWrittenOnlyByTheOverflowHandler := by
  intro s t h hwritten
  obtain ⟨hwf, ⟨program, ht, -⟩ | ⟨-, hstep⟩⟩ := step_cases h
  · exact .inl ⟨program, ht⟩
  · obtain ⟨-, hw, -⟩ := Params.wellFormed_bounds hwf
    rcases hstep.sysHigh with ⟨deliverable, hn⟩ | hn
    · exact .inr ⟨deliverable, by rw [hn, sysHighNext_toNat hw]⟩
    · exact absurd hn hwritten

/-! ### The interface registers -/

/-- Byte `k` of a word is its bits `8k+7:8k` (20_memory.md R68). -/
theorem byteOf_toNat (v : Word) (k : Nat) : (byteOf v k).toNat = v.toNat / 2 ^ (8 * k) % 2 ^ 8 := by
  rw [byteOf, BitVec.extractLsb'_toNat, Nat.shiftRight_eq_div_pow]

/-- The registers are numbered in the order of the table (10_state.md R21). -/
theorem readRegister_of_getElem? {s : State} {n : Nat} {x : Word}
    (h : (s.cmd :: s.opTimeout :: s.opCb :: s.opArg :: s.status :: s.res0 :: s.res1 :: [s.res2])[n]? = some x) :
    s.readRegister n = x := by
  match n, h with
  | 0, h | 1, h | 2, h | 3, h | 4, h | 5, h | 6, h | 7, h => exact Option.some.inj h

/-- A word access to register `n` has an effect. -/
theorem accessDefined_word (n : Nat) : accessDefined (4 * n) 4 = true := by
  simp [accessDefined]

/-- From register 8 up every read answers 0 (20_memory.md R69). -/
theorem readRegister_reserved {s : State} {n : Nat} (h : 8 ≤ n) : s.readRegister n = 0 := by
  obtain ⟨k, rfl⟩ := Nat.exists_eq_add_of_le' h
  rfl

/-- A write of a read-only register, or from register 8 up, is ignored (10_state.md R21, 20_memory.md R69). -/
theorem writeRegister_ignored {s : State} {n : Nat} (h : 4 ≤ n) (v : Word) : s.writeRegister n v = s := by
  obtain ⟨k, rfl⟩ := Nat.exists_eq_add_of_le' h
  rfl

/-- A read that has an effect answers the register and is on the host's side. -/
theorem hostRead_eq {offset size : Nat} (h : accessDefined offset size = true) (s : State) :
    hostMove (.read offset size) s = .next { s with hostRead := s.readRegister (offset / 4) } := if_pos h

/-- A write that has an effect and does not issue a command writes the register. -/
theorem hostWrite_eq {offset size : Nat} (h : accessDefined offset size = true) (h0 : offset ≠ 0) (v : Word)
    (s : State) : hostMove (.write offset size v) s = .next (s.writeRegister (offset / 4) v) :=
  (if_pos h).trans (if_neg h0)

/-- Settles O18: each clause is the read or the write of a register, or an access with no effect. -/
theorem interfaceRegisterAccess : Obligations.InterfaceRegisterAccess := by
  intro s offset size v
  refine ⟨fun hbad => ?_, fun n x hx => ⟨?_, fun k hk => ?_⟩, fun hres => ?_, rfl, rfl, rfl, fun n hn => ?_⟩
  · have hacc := not_accessDefined.2 hbad
    exact ⟨if_neg hacc, if_neg hacc⟩
  · rw [hostRead_eq (accessDefined_word n), Nat.mul_div_cancel_left n (by decide), readRegister_of_getElem? hx]
  · rw [State.interfaceByte, byteOf_toNat, show (4 * n + k) / 4 = n by omega, show (4 * n + k) % 4 = k by omega,
      readRegister_of_getElem? hx]
  · have hacc : accessDefined offset size = true := by simp [accessDefined, reservedOffset, hres]
    rw [hostRead_eq hacc, hostWrite_eq hacc (by omega), readRegister_reserved (by omega),
      writeRegister_ignored (by omega)]
    exact ⟨rfl, rfl⟩
  · rw [hostWrite_eq (accessDefined_word n) (by omega), Nat.mul_div_cancel_left n (by decide),
      writeRegister_ignored hn]

/-! ### Reset -/

/-- Settles O21: the fields of the reset state, read off its definition. -/
theorem resetValuesAreTheTable : Obligations.ResetValuesAreTheTable := by
  intro p
  dsimp only
  and_intros <;> rfl

end Sys2Proof.Machine
end

section
/-! PROOFS. From well-formed queues every command, handler, tick and host move keeps the queues well formed,
raises nothing and keeps the compare unit's invariants (10_state.md R41, R42). -/

namespace Sys2Proof.Machine

/-! ### What the invariants read -/

/-- The deadline of the running queue's head, if the head is a slot. -/
def State.headExpiry (s : State) : Option Word := (s.slot? s.runHead).map (·.absExpiry)

/-- The compare unit's invariants read the head's deadline and no other slot field. -/
theorem compareInv_iff {s : State} : CompareInv s ↔
    (s.ocrAuth = true → ∃ e, s.headExpiry = some e ∧ s.cmpIe = true ∧ s.ocr = timeLo s.cfg e ∧
      timeHi s.cfg e = s.sysHigh) ∧
    (s.cmpIe = true → s.ocrAuth = true) ∧
    (s.runHead = noTimer → s.cmpIe = false ∧ s.ocrAuth = false) ∧
    (∀ e, s.headExpiry = some e → timeHi s.cfg e = s.sysHigh → s.ocrAuth = true) := by
  simp only [State.headExpiry, Option.map_eq_some_iff]
  constructor
  · rintro ⟨auth, enable, empty, armed⟩
    refine ⟨fun h => ?_, enable, empty, ?_⟩
    · obtain ⟨sl, hsl, hrest⟩ := auth h
      exact ⟨_, ⟨sl, hsl, rfl⟩, hrest⟩
    · rintro e ⟨sl, hsl, rfl⟩
      exact armed sl hsl
  · rintro ⟨auth, enable, empty, armed⟩
    refine ⟨fun h => ?_, enable, empty, fun sl hsl => armed _ ⟨sl, hsl, rfl⟩⟩
    obtain ⟨_, ⟨sl, hsl, rfl⟩, hrest⟩ := auth h
    exact ⟨sl, hsl, hrest⟩

theorem CompareInv.congr {s t : State} (h : CompareInv s) (cfg : t.cfg = s.cfg) (auth : t.ocrAuth = s.ocrAuth)
    (enable : t.cmpIe = s.cmpIe) (ocr : t.ocr = s.ocr) (sysHigh : t.sysHigh = s.sysHigh)
    (head : t.runHead = s.runHead) (expiry : t.headExpiry = s.headExpiry) : CompareInv t := by
  rw [compareInv_iff, cfg, auth, enable, ocr, sysHigh, head, expiry]
  exact compareInv_iff.1 h

/-- Nothing that `WF` or the compare unit's invariants read differs. -/
structure QueuesSame (s t : State) : Prop where
  cfg : t.cfg = s.cfg
  slots : t.slots = s.slots
  runHead : t.runHead = s.runHead
  expHead : t.expHead = s.expHead
  expTail : t.expTail = s.expTail
  runCount : t.runCount = s.runCount
  auth : t.ocrAuth = s.ocrAuth
  enable : t.cmpIe = s.cmpIe
  ocr : t.ocr = s.ocr
  sysHigh : t.sysHigh = s.sysHigh

theorem QueuesSame.trans {s t u : State} (h : QueuesSame s t) (h' : QueuesSame t u) : QueuesSame s u :=
  ⟨h'.cfg.trans h.cfg, h'.slots.trans h.slots, h'.runHead.trans h.runHead, h'.expHead.trans h.expHead,
    h'.expTail.trans h.expTail, h'.runCount.trans h.runCount, h'.auth.trans h.auth, h'.enable.trans h.enable,
    h'.ocr.trans h.ocr, h'.sysHigh.trans h.sysHigh⟩

theorem QueuesSame.queueWF {s t : State} (h : QueuesSame s t) {run exp : List TimerId}
    (hs : QueueWF s run exp) : QueueWF t run exp :=
  hs.congr h.cfg h.slots h.runHead h.expHead h.expTail h.runCount

theorem QueuesSame.compareInv {s t : State} (h : QueuesSame s t) (hs : CompareInv s) : CompareInv t := by
  refine hs.congr h.cfg h.auth h.enable h.ocr h.sysHigh h.runHead ?_
  rw [State.headExpiry, h.runHead, State.slot?_congr h.cfg h.slots]
  rfl

/-- From `s` to `t` the queues have stayed well formed, nothing has been raised, and the compare unit's
invariants are kept. -/
structure QueuesKept (s t : State) : Prop where
  cfg : t.cfg = s.cfg
  fault : t.fault = s.fault
  queues : WF t
  compare : CompareInv s → CompareInv t

theorem QueuesKept.trans {s t u : State} (h : QueuesKept s t) (h' : QueuesKept t u) : QueuesKept s u :=
  ⟨h'.cfg.trans h.cfg, h'.fault.trans h.fault, h'.queues, h'.compare ∘ h.compare⟩

theorem QueuesSame.kept {s t : State} (h : QueuesSame s t) (fault : t.fault = s.fault) (hs : WF s) :
    QueuesKept s t :=
  let ⟨run, exp, hq⟩ := hs
  ⟨h.cfg, fault, ⟨run, exp, h.queueWF hq⟩, h.compareInv⟩

theorem QueuesKept.refl {s : State} (hs : WF s) : QueuesKept s s :=
  QueuesSame.kept ⟨rfl, rfl, rfl, rfl, rfl, rfl, rfl, rfl, rfl, rfl⟩ rfl hs

/-! ### The compare programmer -/

/-- The sentinel is no slot (00_scope.md R6). -/
theorem slot?_noTimer {s : State} (hN : s.cfg.nTimers ≤ 255) : s.slot? noTimer = none := by
  rw [State.slot?, if_neg]
  have : (noTimer : TimerId).toNat = 255 := rfl
  omega

/-- A well-formed queue's head is the sentinel or a slot (10_state.md R41, clause 1). -/
theorem QueueWF.head_slot {s : State} {run exp : List TimerId} (h : QueueWF s run exp)
    (hne : s.runHead ≠ noTimer) : ∃ sl, s.slot? s.runHead = some sl :=
  State.slot?_of_lt h.table (h.runHeadOk.resolve_left hne)

/-- Arming establishes the compare unit's invariants for the head's deadline (44_compare_programmer.md R177,
R178). -/
theorem armCompare_compareInv {s : State} {e : Word} (hne : s.runHead ≠ noTimer)
    (he : s.headExpiry = some e) : CompareInv (s.armCompare e) := by
  rw [compareInv_iff]
  by_cases hhi : timeHi s.cfg e = s.sysHigh
  · rw [armCompare_of_eq hhi]
    exact ⟨fun _ => ⟨e, he, rfl, rfl, hhi⟩, fun _ => rfl, fun h => absurd h hne, fun _ _ _ => rfl⟩
  · rw [armCompare_of_ne hhi]
    refine ⟨nofun, nofun, fun h => absurd h hne, fun e' he' hhi' => absurd ?_ hhi⟩
    cases he.symm.trans he'
    exact hhi'

/-- Disarming establishes them for an empty queue (R176). -/
theorem disarm_compareInv {s : State} (hN : s.cfg.nTimers ≤ 255) (h : s.runHead = noTimer) :
    CompareInv (s.disableCompareIrq.setAuth false) where
  auth := nofun
  enable := nofun
  emptyQueue := fun _ => ⟨rfl, rfl⟩
  armed := fun sl hsl => by
    have hno : s.slot? s.runHead = some sl := hsl
    rw [h, slot?_noTimer hN] at hno
    cases hno

/-- From well-formed queues `prog_compare` raises nothing and establishes the invariants; `s` is the state
before the queues were written. -/
theorem progCompare_kept {s m : State} {run exp : List TimerId} (hm : QueueWF m run exp)
    (hN : s.cfg.nTimers ≤ 255) (cfg : m.cfg = s.cfg) (fault : m.fault = s.fault) :
    ∃ t, progCompare m = .done () t ∧ QueueWF t run exp ∧ QueuesKept s t := by
  obtain ⟨t, hd, hc⟩ : ∃ t, progCompare m = .done () t ∧ CompareInv t := by
    by_cases hne : m.runHead = noTimer
    · exact ⟨_, progCompare_empty hne, disarm_compareInv (cfg ▸ hN) hne⟩
    · obtain ⟨sl, hsl⟩ := hm.head_slot hne
      refine ⟨_, progCompare_head hne hsl, ?_⟩
      have harm := armCompare_compareInv (e := sl.absExpiry) hne (by rw [State.headExpiry, hsl]; rfl)
      exact QueuesSame.compareInv (by constructor <;> simp) harm
  have hf := (progCompare_done hd).1
  have ht : QueueWF t run exp := hm.congr (by rw [hf]) (by rw [hf]) (by rw [hf]) (by rw [hf]) (by rw [hf])
    (by rw [hf])
  exact ⟨t, hd, ht, (by rw [hf]; exact cfg), (by rw [hf]; exact fault), ⟨run, exp, ht⟩, fun _ => hc⟩

/-! ### Queue writes that leave the head in place -/

theorem QueueFieldsOnly.cfg_fault {s t : State} (h : QueueFieldsOnly s t) :
    t.cfg = s.cfg ∧ t.fault = s.fault := by
  unfold QueueFieldsOnly at h
  rw [h]
  exact ⟨rfl, rfl⟩

/-- A queue write that leaves the head and its data in place keeps everything. -/
theorem QueueFieldsOnly.kept {s t : State} {run exp : List TimerId} (hf : QueueFieldsOnly s t)
    (hs : QueueWF s run exp) (hN : s.cfg.nTimers ≤ 255) (ht : WF t) (head : t.runHead = s.runHead)
    (data : s.runHead ≠ noTimer → ∀ sl, s.slot? s.runHead = some sl →
      ∃ n, t.slot? s.runHead = some { sl with next := n }) : QueuesKept s t := by
  unfold QueueFieldsOnly at hf
  have cfg : t.cfg = s.cfg := by rw [hf]
  refine ⟨cfg, by rw [hf], ht, fun hc => hc.congr cfg (by rw [hf]) (by rw [hf]) (by rw [hf]) (by rw [hf]) head ?_⟩
  rw [State.headExpiry, State.headExpiry, head]
  by_cases hne : s.runHead = noTimer
  · rw [hne, slot?_noTimer hN, slot?_noTimer (cfg ▸ hN)]
  · obtain ⟨sl, hsl⟩ := hs.head_slot hne
    obtain ⟨n, hn⟩ := data hne sl hsl
    rw [hn, hsl]
    rfl

/-- An insertion behind the head leaves the head in place. -/
theorem InsertedInto.kept {s m : State} {run exp : List TimerId} {id : TimerId} {target cb arg : Word}
    (h : InsertedInto s m run exp id target cb arg) (hs : QueueWF s run exp) (hN : s.cfg.nTimers ≤ 255)
    (hne : m.runHead ≠ id) : QueuesKept s m := by
  have head : m.runHead = s.runHead := by
    have hm := links_start h.queues.runLinks.1
    rw [State.insertedRun] at hm
    rw [links_start hs.runLinks.1]
    cases hrun : run with
    | nil =>
      rw [hrun] at hm
      exact absurd hm hne
    | cons a l =>
      rw [hrun, List.takeWhile_cons] at hm
      split at hm
      · exact hm
      · exact absurd hm hne
  exact h.frame.kept hs hN ⟨_, _, h.queues⟩ head fun _ sl hsl => h.data _ sl (head ▸ hne) hsl

/-- A removal from behind the head, or from the expired queue, leaves the head in place. -/
theorem RemovedFrom.kept {s t : State} {run exp : List TimerId} {id : TimerId}
    (h : RemovedFrom s t run exp id) (hs : QueueWF s run exp) (hN : s.cfg.nTimers ≤ 255)
    (hne : run.head? ≠ some id) : QueuesKept s t := by
  have hhead := links_start hs.runLinks.1
  have head : t.runHead = s.runHead := by
    rw [links_start h.queues.runLinks.1, hhead]
    cases run with
    | nil => rfl
    | cons a l =>
      rw [List.erase_cons_tail (by simpa using hne)]
      rfl
  refine h.frame.kept hs hN ⟨_, _, h.queues⟩ head fun hn sl hsl => h.data _ sl (fun e => ?_) hsl
  cases run with
  | nil => exact hn hhead
  | cons a l => exact hne (congrArg some (hhead.symm.trans e))

/-! ### The commands' bodies -/

/-- A body that is done, with everything kept. -/
def Proc.Kept {α : Type} (s : State) (r : Proc α) : Prop := ∃ a t, r = .done a t ∧ QueuesKept s t

theorem reconcile_kept {s : State} {run exp : List TimerId} (hs : QueueWF s run exp)
    (hN : s.cfg.nTimers ≤ 255) :
    ∃ t, reconcile s = .done () t ∧
      QueueWF t (reconciledQueues s.expiredFlag run exp).1 (reconciledQueues s.expiredFlag run exp).2 ∧
      QueuesKept s t := by
  cases hflag : s.expiredFlag with
  | false => exact ⟨s, reconcile_clear hflag, hs, .refl ⟨run, exp, hs⟩⟩
  | true =>
    have hclear : QueueWF (s.setExpired false) run exp := hs.congr rfl rfl rfl rfl rfl rfl
    obtain ⟨m, hm, hmoved⟩ := moveHead_lists hclear
    obtain ⟨hcfg, hfault⟩ := hmoved.frame.cfg_fault
    obtain ⟨t, hd, ht, hk⟩ := progCompare_kept (s := s) hmoved.queues hN hcfg hfault
    exact ⟨t, by rw [reconcile, hflag, if_pos rfl, hm]; exact hd, ht, hk⟩

/-- Reconciliation takes no TimerId onto or off the queues. -/
theorem mem_reconciledQueues {flag : Bool} {run exp : List TimerId} (id : TimerId) :
    id ∈ (reconciledQueues flag run exp).1 ++ (reconciledQueues flag run exp).2 ↔ id ∈ run ++ exp := by
  cases flag with
  | false => exact Iff.rfl
  | true =>
    cases run with
    | nil => simp [reconciledQueues]
    | cons a l =>
      simp only [reconciledQueues, if_true, List.tail_cons, List.head?_cons, Option.toList_some,
        List.mem_append, List.mem_cons, List.not_mem_nil, or_false]
      tauto

theorem placeRunning_kept {s : State} {run exp : List TimerId} {id : TimerId} {target cb arg : Word}
    (hs : QueueWF s run exp) (hN : s.cfg.nTimers ≤ 255) (hid : id.toNat < s.cfg.nTimers)
    (hidle : id ∉ run ++ exp) (hcb : cb ≠ null) (ht : target.toNat < 2 ^ s.cfg.w) :
    (placeRunning id target cb arg s).Kept s := by
  obtain ⟨m, hins, hplace⟩ := placeRunning_lists (arg := arg) hs hN hid hidle hcb ht
  rw [hplace]
  split
  · obtain ⟨hcfg, hfault⟩ := hins.frame.cfg_fault
    obtain ⟨t, hd, -, hk⟩ := progCompare_kept hins.queues hN hcfg hfault
    exact ⟨(), t, hd, hk⟩
  · exact ⟨(), m, rfl, hins.kept hs hN ‹_›⟩

theorem insertRunning_kept {s : State} {run exp : List TimerId} {id : TimerId} {target cb arg : Word}
    (hs : QueueWF s run exp) (hN : s.cfg.nTimers ≤ 255) (hid : id.toNat < s.cfg.nTimers)
    (hidle : id ∉ run ++ exp) (hcb : cb ≠ null) (ht : target.toNat < 2 ^ s.cfg.w) :
    (insertRunning id target cb arg s).Kept s := by
  obtain ⟨t, hr, hq, hk⟩ := reconcile_kept hs hN
  have hidle' := mt (mem_reconciledQueues (flag := s.expiredFlag) id).1 hidle
  rw [← hk.cfg] at hN hid ht
  obtain ⟨_, u, hp, hku⟩ := placeRunning_kept (arg := arg) hq hN hid hidle' hcb ht
  exact ⟨(), u, by rw [insertRunning, hr, Proc.andThen_done, hp], hk.trans hku⟩

theorem startBody_kept {s : State} (mode : BitVec 4) (id : TimerId) (hs : WF s)
    (hN : s.cfg.nTimers ≤ 255) : (startBody mode id s).Kept s := by
  have rejected : ∀ st, (Proc.done (Reply.only st) s).Kept s := fun st => ⟨_, s, rfl, .refl hs⟩
  obtain ⟨run, exp, hq⟩ := hs
  unfold startBody
  split
  · exact rejected _
  · next hid =>
    rw [not_le] at hid
    split
    · exact rejected _
    · next hop =>
      rw [Bool.or_eq_true, not_or, decide_eq_true_eq] at hop
      obtain ⟨sl, hsl⟩ := State.slot?_of_lt hq.table hid
      rw [State.withSlot, hsl]
      dsimp only
      split
      · exact rejected _
      · next hidle =>
        split
        · exact rejected _
        · next target htarget =>
          have hy : QueuesSame s s.yield := by constructor <;> simp
          have hout : id ∉ run ++ exp := fun hm => hidle ((hq.callbacks id sl hsl).2 hm)
          have ht := startTarget_lt htarget
          rw [← hy.cfg] at hN hid ht
          obtain ⟨_, u, hd, hk⟩ := insertRunning_kept (arg := s.operandArg) (hy.queueWF hq) hN hid hout hop.1 ht
          refine ⟨Reply.only .success, u, ?_, (hy.kept (by simp) ⟨run, exp, hq⟩).trans hk⟩
          rw [hd, Proc.andThen_done]

theorem stopBody_kept {s : State} (id : TimerId) (hs : WF s) (hN : s.cfg.nTimers ≤ 255) :
    (stopBody id s).Kept s := by
  obtain ⟨run, exp, hq⟩ := hs
  unfold stopBody
  split
  · exact ⟨_, s, rfl, .refl ⟨run, exp, hq⟩⟩
  · obtain ⟨t, hr, ht, hk⟩ := reconcile_kept hq hN
    rw [hr, Proc.andThen_done]
    have hNt : t.cfg.nTimers ≤ 255 := hk.cfg ▸ hN
    generalize (reconciledQueues s.expiredFlag run exp).1 = run' at ht
    generalize (reconciledQueues s.expiredFlag run exp).2 = exp' at ht
    obtain ⟨hout, hin⟩ := removeAny_lists (id := id) ht
    by_cases hm : id ∈ run' ++ exp'
    · obtain ⟨u, hrem, hfrom⟩ := hin hm
      rw [hrem, Proc.andThen_done]
      by_cases hhead : run'.head? = some id
      · rw [if_pos hhead]
        obtain ⟨hcfg, hfault⟩ := hfrom.frame.cfg_fault
        obtain ⟨v, hd, -, hkv⟩ := progCompare_kept hfrom.queues hNt hcfg hfault
        exact ⟨_, v, by dsimp only; rw [hd, Proc.andThen_done], hk.trans hkv⟩
      · rw [if_neg hhead]
        exact ⟨_, _, rfl, hk.trans (hfrom.kept ht hNt hhead)⟩
    · rw [hout hm]
      exact ⟨_, t, rfl, hk⟩

/-- Two writes of one slot's different fields commute. -/
theorem setNext_clearCallback (s : State) (id n : TimerId) :
    (s.setNext id n).clearCallback id = (s.clearCallback id).setNext id n := by
  simp only [State.clearCallback, State.setNext, State.modifySlot, List.modify_modify_eq]
  rfl

/-- A pop takes the expired queue's head off the queues (43_expired_queue.md R166): what it writes is what a
removal of that head writes. -/
theorem popExpired_removes {s : State} {run exp : List TimerId} {h : TimerId}
    (hs : QueueWF s run (h :: exp)) :
    ∃ r t, popExpired s = .done r t ∧ RemovedFrom s t run (h :: exp) h := by
  obtain ⟨hhead, hne, sl, hsl, hlinks⟩ := hs.expLinks.1
  have hrun : h ∉ run := fun hm => (List.nodup_append.1 hs.disjoint).2.2 h hm h List.mem_cons_self rfl
  have hexp : h ∉ exp := fun hm =>
    (List.nodup_cons.1 (List.nodup_append.1 hs.disjoint).2.1).1 hm
  have hcb : sl.callback ≠ null :=
    (hs.callbacks h sl hsl).2 (List.mem_append_right _ List.mem_cons_self)
  let tail := if sl.next = noTimer then noTimer else s.expTail
  have htail : tail = exp.getLast?.getD noTimer := by
    have hnext := links_start hlinks
    cases exp with
    | nil => exact if_pos hnext
    | cons a l =>
      have ha : sl.next ≠ noTimer := hnext ▸ (links_mem hlinks List.mem_cons_self).1
      exact (if_neg ha).trans hs.tail
  let u0 := (s.setExpHead sl.next).setExpTail tail
  have hother : ∀ j, j ≠ h → (u0.setNext h noTimer).slot? j = s.slot? j := fun j hj =>
    setNext_other u0 noTimer hj
  have hremoved : RemovedFrom s ((u0.setNext h noTimer).clearCallback h) run (h :: exp) h := by
    refine removedFrom_of_links hs hsl rfl (State.setNext_keeps_wf (s := u0) hs.table h noTimer)
      (setNext_same u0 h noTimer sl hsl) (fun j hj _ => hother j hj) (linksOnly_setNext u0 h noTimer)
      ?_ ?_ ?_ ?_
    · rw [List.erase_of_not_mem hrun]
      exact links_congr (fun j hj => congrArg _ (hother j fun e => hrun (e ▸ hj))) hs.runLinks.1
    · rw [List.erase_cons_head]
      exact links_congr (fun j hj => congrArg _ (hother j fun e => hexp (e ▸ hj))) hlinks
    · rw [List.erase_cons_head]
      exact htail
    · rw [List.erase_of_not_mem hrun]
      exact hs.count
  refine ⟨⟨.success, popWord true h, sl.callback, sl.callbackArg⟩, (u0.clearCallback h).setNext h noTimer, ?_,
    setNext_clearCallback u0 h noTimer ▸ hremoved⟩
  rw [popExpired, hhead, if_neg hne, State.withSlot, hsl]
  exact if_neg hcb

theorem popExpired_kept {s : State} (hs : WF s) (hN : s.cfg.nTimers ≤ 255) : (popExpired s).Kept s := by
  obtain ⟨run, exp, hq⟩ := hs
  cases exp with
  | nil =>
    have hempty : s.expHead = noTimer := hq.expLinks.1
    exact ⟨_, s, if_pos hempty, .refl ⟨run, [], hq⟩⟩
  | cons h exp =>
    obtain ⟨r, t, hd, hremoved⟩ := popExpired_removes hq
    have hne : run.head? ≠ some h := fun e =>
      (List.nodup_append.1 hq.disjoint).2.2 h (List.mem_of_head? e) h List.mem_cons_self rfl
    exact ⟨r, t, hd, hremoved.kept hq hN hne⟩

/-! ### The commands -/

/-- The high-priority registers are not the queues'. -/
theorem HpWritten.kept {s t : State} (h : HpWritten s t) (hs : WF s) : QueuesKept s t := by
  rcases h with rfl | rfl | ⟨target, rfl⟩
  · exact .refl hs
  · exact QueuesSame.kept (by constructor <;> simp) rfl hs
  · exact QueuesSame.kept (by constructor <;> simp) rfl hs

/-- From well-formed queues every command's body is done and keeps everything. -/
theorem commandBody_kept (i : Instr) {s : State} (hs : WF s) (hN : s.cfg.nTimers ≤ 255) :
    (commandBody i s).Kept s := by
  by_cases hi : QueueCommand i
  · rcases hi with ⟨mode, id, rfl⟩ | ⟨id, rfl⟩ | rfl | rfl
    · exact startBody_kept mode id hs hN
    · exact stopBody_kept id hs hN
    · obtain ⟨run, exp, hq⟩ := hs
      obtain ⟨u, hr, -, hk⟩ := reconcile_kept hq hN
      exact ⟨_, u, by rw [commandBody, hr, Proc.andThen_done], hk⟩
    · exact popExpired_kept hs hN
  · obtain ⟨r, t, hd, ht⟩ := commandBody_hpWritten hi s
    exact ⟨r, t, hd, ht.kept hs⟩

/-- From well-formed queues every command keeps everything: the critical region writes `gie` and the results
besides (20_memory.md R66). -/
theorem exec_kept {i : Instr} {s t : State} (hs : WF s) (hN : s.cfg.nTimers ≤ 255)
    (h : exec i s = .next t) : QueuesKept s t := by
  rcases exec_cases h with rfl | ⟨-, h⟩
  · exact QueuesSame.kept (by constructor <;> simp) rfl hs
  · have hin : QueuesKept s (s.setGie false) := QueuesSame.kept (by constructor <;> simp) rfl hs
    obtain ⟨r, u, hd, hk⟩ := commandBody_kept i hin.queues hN
    rw [criticalRegion, hd] at h
    cases h
    exact (hin.trans hk).trans (QueuesSame.kept (by constructor <;> simp) rfl hk.queues)

/-! ### Steps -/

/-- A high-priority delivery with no callback registered, the only raise of `FatalAssert` (60_exceptions.md
R228); the queues are as they were. -/
structure FatalDelivery (s t : State) : Prop where
  deliverable : s.deliverable = some .hp
  callback : s.hpCb = null
  fault : t.fault = .fatalAssert
  same : QueuesSame s t

/-- From well-formed queues a handler keeps everything, or is the fatal delivery. -/
theorem InterruptEnd.kept {src : Source} {s t : State} (h : InterruptEnd s src t) (hs : WF s)
    (hN : s.cfg.nTimers ≤ 255) :
    QueuesKept s t ∨ (src = .hp ∧ s.hpCb = null ∧ t.fault = .fatalAssert ∧ QueuesSame s t) := by
  cases h with
  | @ovf u h =>
    obtain ⟨run, exp, hq⟩ := hs
    have hm : QueueWF s.interruptEntry.takeOverflow run exp := hq.congr rfl rfl rfl rfl rfl rfl
    obtain ⟨t, hd, -, hk⟩ := progCompare_kept (s := s) hm hN rfl rfl
    cases hd.symm.trans h
    exact .inl (hk.trans (QueuesSame.kept (by constructor <;> simp) rfl hk.queues))
  | ovfRaised hne hno =>
    obtain ⟨run, exp, hq⟩ := hs
    obtain ⟨_, hsl⟩ := hq.head_slot hne
    cases hno.symm.trans hsl
  | hp => exact .inl (QueuesSame.kept (by constructor <;> simp) (by simp) hs)
  | hpFatal callback => exact .inr ⟨rfl, callback, rfl, by constructor <;> simp⟩
  | cmp => exact .inl (QueuesSame.kept (by constructor <;> simp) (by simp) hs)

theorem HostSide.queuesSame {s u : State} (h : HostSide s u) :
    QueuesSame s u ∧ u.fault = s.fault ∧ u.hpCb = s.hpCb := by
  unfold HostSide at h
  rw [h]
  exact ⟨⟨rfl, rfl, rfl, rfl, rfl, rfl, rfl, rfl, rfl, rfl⟩, rfl, rfl⟩

/-- From well-formed queues an agent's step keeps everything, or is the fatal delivery. -/
theorem AgentStep.kept {s t : State} (h : AgentStep s t) (hs : WF s) (hN : s.cfg.nTimers ≤ 255) :
    QueuesKept s t ∨ FatalDelivery s t := by
  have side : ∀ {u}, HostSide s u → QueuesKept s u := fun h =>
    let ⟨hsame, hfault, _⟩ := h.queuesSame
    hsame.kept hfault hs
  cases h with
  | quiet h => exact .inl (side h)
  | tick u h ht | setGie u v h ctx ht | iret u h ctx ht | illegal u h ht =>
    rw [ht]
    exact .inl ((side h).trans (QueuesSame.kept (by constructor <;> simp) (by simp) (side h).queues))
  | interrupt u src h deliverable ht =>
    have hk := side h
    obtain ⟨hsame, -, hcb⟩ := h.queuesSame
    rcases (takeInterrupt_end ht).kept hk.queues (hk.cfg ▸ hN) with hi | ⟨rfl, hnull, hfault, hi⟩
    · exact .inl (hk.trans hi)
    · exact .inr ⟨deliverable, hcb.symm.trans hnull, hfault, hsame.trans hi⟩
  | command u w rest i h _ _ _ ht =>
    have hk := side h
    exact .inl (hk.trans (exec_kept hk.queues (hk.cfg ▸ hN) ht))

/-! ### Reset -/

/-- The queues after reset are empty, and every slot is idle (10_state.md R45). -/
theorem resetFor_queueWF (p : Params) : QueueWF (State.resetFor p) [] [] := by
  have hslot : ∀ (id : TimerId), ∀ sl ∈ (State.resetFor p).slot? id, sl = Slot.reset := fun id sl hsl => by
    rw [Option.mem_def, State.slot?] at hsl
    split at hsl
    · exact List.eq_of_mem_replicate (List.mem_of_getElem? hsl)
    · cases hsl
  refine queueWF_of_links (Memory.reset_wf p) rfl rfl List.nodup_nil (fun id sl hsl => ?_) rfl rfl
    (fun id sl hsl _ => ?_)
  · rw [hslot id sl hsl]
    exact iff_of_false (not_not.2 rfl) List.not_mem_nil
  · rw [hslot id sl hsl]
    rfl

theorem resetFor_compareInv {p : Params} (hN : p.nTimers ≤ 255) : CompareInv (State.resetFor p) where
  auth := nofun
  enable := nofun
  emptyQueue := fun _ => ⟨rfl, rfl⟩
  armed := fun _ hsl => nomatch (slot?_noTimer (s := State.resetFor p) hN).symm.trans hsl

theorem resetFor_safe {p : Params} (h : p.wellFormed = true) : Safe (State.resetFor p) :=
  let ⟨_, _, _, _, hN, _⟩ := Params.wellFormed_bounds h
  ⟨h, rfl, resetFor_envInv p, ⟨[], [], resetFor_queueWF p⟩, resetFor_compareInv hN⟩

/-- Settles O23: the reset state of every well-formed configuration, and REF is one. -/
theorem resetStateIsSafe : Obligations.ResetStateIsSafe :=
  ⟨fun _ => resetFor_safe, resetFor_safe (by decide)⟩

/-- The reset line leaves a safe state, whatever it left. -/
theorem externalReset_safe {s : State} (h : s.cfg.wellFormed = true) (program : List HostMove) :
    Safe (s.externalReset program) := by
  obtain ⟨_, hfault, henv, ⟨run, exp, hq⟩, hc⟩ := resetFor_safe h
  have hsame : QueuesSame (State.resetFor s.cfg) (s.externalReset program) :=
    ⟨rfl, rfl, rfl, rfl, rfl, rfl, rfl, rfl, rfl, rfl⟩
  exact ⟨h, hfault, { henv with }, ⟨run, exp, hsame.queueWF hq⟩, hsame.compareInv hc⟩

/-! ### The obligations -/

/-- Every step from well-formed queues: a reset, a step that keeps everything, or the fatal delivery. -/
theorem step_kept {s t : State} (hs : WF s) (h : step s = .next t) :
    Safe t ∨ QueuesKept s t ∨ FatalDelivery s t := by
  obtain ⟨hwf, ⟨program, -, rfl⟩ | ⟨-, hstep⟩⟩ := step_cases h
  · exact .inl (externalReset_safe (s := s.useTurn) hwf program)
  · obtain ⟨_, _, _, _, hN, _⟩ := Params.wellFormed_bounds hwf
    exact .inr (hstep.kept hs hN)

/-- Settles O53: of the three kinds of step none breaks the queues and none raises `InvariantViolated`. -/
theorem queueWellFormednessIsKept : Obligations.QueueWellFormednessIsKept := by
  intro s t hs h
  rcases step_kept hs h with hsafe | hk | hfatal
  · exact ⟨hsafe.queues, fun hf => nomatch hsafe.noFault.symm.trans hf⟩
  · exact ⟨hk.queues, fun hf => hk.fault.symm.trans hf⟩
  · obtain ⟨run, exp, hq⟩ := hs
    exact ⟨⟨run, exp, hfatal.same.queueWF hq⟩, fun hf => nomatch hfatal.fault.symm.trans hf⟩

/-- Settles O54: of the three kinds of step each keeps the compare unit's invariants. -/
theorem compareUnitInvariantIsKept : Obligations.CompareUnitInvariantIsKept := by
  intro s t hs hc h
  rcases step_kept hs h with hsafe | hk | hfatal
  · exact hsafe.compare
  · exact hk.compare hc
  · exact hfatal.same.compareInv hc

/-- A deliverable high-priority match has its enable set, and then a callback is registered (60_exceptions.md
R228, R231). -/
theorem hpCb_of_deliverable {s : State} (henv : EnvInv s) (h : s.deliverable = some .hp) : s.hpCb ≠ null := by
  have hraised : s.isDeliverable .hp = true := by
    unfold State.deliverable at h
    split at h
    · cases h
    · split at h
      · assumption
      · split at h <;> cases h
  rw [State.isDeliverable, State.raisedSource, Bool.and_eq_true, Bool.and_eq_true (_ && _) s.hpIe] at hraised
  exact henv.hpEnable.1 hraised.2.2

/-- Settles O55: a safe state's step is an agent's and no fault; it keeps each invariant, and the fatal
delivery cannot happen. -/
theorem safeStatesStaySafe : Obligations.SafeStatesStaySafe := by
  rintro s ⟨hwf, hfault, henv, hs, hc⟩
  refine ⟨fun f hf => ?_, fun t h => ?_⟩
  · have hstep := step_answers hwf hfault
    rw [hf] at hstep
    exact hstep
  · rcases step_kept hs h with hsafe | hk | hfatal
    · exact hsafe
    · exact ⟨by rw [hk.cfg]; exact hwf, hk.fault.trans hfault, environmentInvariantIsKept s t henv h,
        hk.queues, hk.compare hc⟩
    · exact absurd hfatal.callback (hpCb_of_deliverable henv hfatal.deliverable)

end Sys2Proof.Machine
end

section
/-! PROOFS. `run_count` and `hp_expiry` are written and never read (10_state.md R27, R35): two states that
differ in nothing else go through every procedure, command, handler and host move alike. -/

namespace Sys2Proof.Machine

/-! ### States and procedures that differ in nothing else -/

/-- The states differ in `run_count` and `hp_expiry` at most. -/
def Alike (s u : State) : Prop := ∃ n x, u = { s with runCount := n, hpExpiry := x }

theorem alike_iff {s u : State} : Alike s u ↔ s.forgetUnread = u.forgetUnread := by
  constructor
  · rintro ⟨n, x, rfl⟩
    rfl
  · intro h
    refine ⟨u.runCount, u.hpExpiry, ?_⟩
    change { u.forgetUnread with runCount := u.runCount, hpExpiry := u.hpExpiry } = _
    rw [← h]
    rfl

theorem Alike.slot? {s u : State} (h : Alike s u) (id : TimerId) : u.slot? id = s.slot? id := by
  obtain ⟨n, x, rfl⟩ := h
  rfl

/-- The procedures end alike: in the same way, with the same value, in states that are alike. -/
inductive Proc.Alike {α : Type} : Proc α → Proc α → Prop where
  | done (a : α) {s u : State} (h : Machine.Alike s u) : Proc.Alike (.done a s) (.done a u)
  | raised {s u : State} (h : Machine.Alike s u) : Proc.Alike (.raised s) (.raised u)

theorem Proc.Alike.ite {α : Type} {c : Prop} [Decidable c] {a b a' b' : Proc α} (ht : Proc.Alike a a')
    (he : Proc.Alike b b') : Proc.Alike (if c then a else b) (if c then a' else b') := by
  split <;> assumption

theorem Proc.Alike.andThen {α β : Type} {r r' : Proc α} {f g : α → State → Proc β} (hr : Proc.Alike r r')
    (hf : ∀ a {s u}, Machine.Alike s u → Proc.Alike (f a s) (g a u)) :
    Proc.Alike (r.andThen f) (r'.andThen g) := by
  cases hr with
  | done a h => exact hf a h
  | raised h => exact .raised h

theorem withSlot_alike {α : Type} {s u : State} (h : Alike s u) {id : TimerId} {f g : Slot → Proc α}
    (hf : ∀ sl, Proc.Alike (f sl) (g sl)) : Proc.Alike (s.withSlot id f) (u.withSlot id g) := by
  unfold State.withSlot
  rw [h.slot?]
  split
  · exact hf _
  · obtain ⟨n, x, rfl⟩ := h
    exact .raised ⟨n, x, rfl⟩

theorem walk_alike {s u : State} (h : Alike s u) (go : TimerId → Slot → Bool) (fuel : Nat)
    (prev cur : TimerId) : u.walk go fuel prev cur = s.walk go fuel prev cur := by
  induction fuel generalizing prev cur with
  | zero => rw [State.walk, State.walk, h.slot?]
  | succ n ih =>
    rw [State.walk, State.walk, h.slot?]
    simp only [ih]

theorem walkFrom_alike {α : Type} {s u : State} (h : Alike s u) {go : TimerId → Slot → Bool} {head : TimerId}
    {f g : TimerId → TimerId → Proc α} (hf : ∀ prev cur, Proc.Alike (f prev cur) (g prev cur)) :
    Proc.Alike (s.walkFrom go head f) (u.walkFrom go head g) := by
  have hcfg : u.cfg = s.cfg := by obtain ⟨n, x, rfl⟩ := h; rfl
  unfold State.walkFrom
  rw [walk_alike h, hcfg]
  split
  · exact hf _ _
  · obtain ⟨n, x, rfl⟩ := h
    exact .raised ⟨n, x, rfl⟩

/-! ### The compare programmer -/

theorem ticks_alike (k : Nat) {s u : State} (h : Alike s u) : Alike (State.ticks k s) (State.ticks k u) := by
  induction k generalizing s u with
  | zero => exact h
  | succ k ih =>
    obtain ⟨n, x, rfl⟩ := h
    exact ih ⟨n, x, rfl⟩

theorem yield_alike {s u : State} (h : Alike s u) : Alike s.yield u.yield := by
  obtain ⟨n, x, rfl⟩ := h
  exact ticks_alike _ ⟨n, x, rfl⟩

theorem armCompare_alike {s u : State} (h : Alike s u) (e : Word) : Alike (s.armCompare e) (u.armCompare e) := by
  obtain ⟨n, x, rfl⟩ := h
  by_cases hhi : timeHi s.cfg e = s.sysHigh
  · exact ⟨n, x, by rw [armCompare_of_eq hhi]; exact armCompare_of_eq hhi⟩
  · exact ⟨n, x, by rw [armCompare_of_ne hhi]; exact armCompare_of_ne hhi⟩

theorem safetyCheck_alike {s u : State} (h : Alike s u) (e : Word) :
    Alike (s.safetyCheck e) (u.safetyCheck e) := by
  obtain ⟨n, x, rfl⟩ := h
  exact ⟨n, x, rfl⟩

theorem progCompare_alike {s u : State} (h : Alike s u) : Proc.Alike (progCompare s) (progCompare u) := by
  obtain ⟨n, x, rfl⟩ := h
  exact .ite (.done () ⟨n, x, rfl⟩) (withSlot_alike ⟨n, x, rfl⟩ fun sl =>
    .done () (safetyCheck_alike (yield_alike (armCompare_alike ⟨n, x, rfl⟩ _)) _))

/-! ### The queues -/

theorem setNext_alike {s u : State} (h : Alike s u) (id next : TimerId) :
    Alike (s.setNext id next) (u.setNext id next) := by
  obtain ⟨n, x, rfl⟩ := h
  exact ⟨n, x, rfl⟩

theorem clearCallback_alike {s u : State} (h : Alike s u) (id : TimerId) :
    Alike (s.clearCallback id) (u.clearCallback id) := by
  obtain ⟨n, x, rfl⟩ := h
  exact ⟨n, x, rfl⟩

theorem fillSlot_alike {s u : State} (h : Alike s u) (id : TimerId) (target cb arg : Word) :
    Alike (s.fillSlot id target cb arg) (u.fillSlot id target cb arg) := by
  obtain ⟨n, x, rfl⟩ := h
  exact ⟨n, x, rfl⟩

/-- The count is added to in both states, whatever it was (10_state.md R27; log 19). -/
theorem incRunCount_alike {s u : State} (h : Alike s u) : Alike s.incRunCount u.incRunCount := by
  obtain ⟨n, x, rfl⟩ := h
  exact ⟨n + 1, x, rfl⟩

/-- The count is taken from in both states, whatever it was. -/
theorem decRunCount_alike {s u : State} (h : Alike s u) : Alike s.decRunCount u.decRunCount := by
  obtain ⟨n, x, rfl⟩ := h
  exact ⟨n - 1, x, rfl⟩

theorem linkRunning_alike {s u : State} (h : Alike s u) (prev id : TimerId) :
    Alike (s.linkRunning prev id) (u.linkRunning prev id) := by
  obtain ⟨n, x, rfl⟩ := h
  unfold State.linkRunning
  split <;> exact ⟨n, x, rfl⟩

theorem unlinkRunning_alike {s u : State} (h : Alike s u) (prev next : TimerId) :
    Alike (s.unlinkRunning prev next) (u.unlinkRunning prev next) :=
  linkRunning_alike h prev next

theorem unlinkExpired_alike {s u : State} (h : Alike s u) (prev next : TimerId) :
    Alike (s.unlinkExpired prev next) (u.unlinkExpired prev next) := by
  obtain ⟨n, x, rfl⟩ := h
  unfold State.unlinkExpired
  split <;> exact ⟨n, x, rfl⟩

theorem appendExpired_alike (id : TimerId) {s u : State} (h : Alike s u) :
    Proc.Alike (appendExpired id s) (appendExpired id u) := by
  obtain ⟨n, x, rfl⟩ := h
  exact .ite (.done () ⟨n, x, rfl⟩) (withSlot_alike ⟨n, x, rfl⟩ fun _ => .done () ⟨n, x, rfl⟩)

theorem moveHead_alike {s u : State} (h : Alike s u) : Proc.Alike (moveHead s) (moveHead u) := by
  obtain ⟨n, x, rfl⟩ := h
  exact .ite (.done () ⟨n, x, rfl⟩) (withSlot_alike ⟨n, x, rfl⟩ fun sl =>
    .andThen (appendExpired_alike _ ⟨n, x, rfl⟩) fun _ _ _ ht => .done () (decRunCount_alike ht))

theorem reconcile_alike {s u : State} (h : Alike s u) : Proc.Alike (reconcile s) (reconcile u) := by
  obtain ⟨n, x, rfl⟩ := h
  exact .ite (.andThen (moveHead_alike ⟨n, x, rfl⟩) fun _ _ _ ht => progCompare_alike ht)
    (.done () ⟨n, x, rfl⟩)

theorem placeRunning_alike (id : TimerId) (target cb arg : Word) {s u : State} (h : Alike s u) :
    Proc.Alike (placeRunning id target cb arg s) (placeRunning id target cb arg u) := by
  obtain ⟨n, x, rfl⟩ := h
  refine walkFrom_alike ⟨n, x, rfl⟩ fun prev cur => ?_
  have hfilled := incRunCount_alike (fillSlot_alike (linkRunning_alike
    (setNext_alike (s := s) ⟨n, x, rfl⟩ id cur) prev id) id target cb arg)
  exact .ite (progCompare_alike hfilled) (.done () hfilled)

theorem insertRunning_alike (id : TimerId) (target cb arg : Word) {s u : State} (h : Alike s u) :
    Proc.Alike (insertRunning id target cb arg s) (insertRunning id target cb arg u) :=
  .andThen (reconcile_alike h) fun _ _ _ ht => placeRunning_alike id target cb arg ht

theorem removeRunning_alike (id : TimerId) {s u : State} (h : Alike s u) :
    Proc.Alike (removeRunning id s) (removeRunning id u) := by
  obtain ⟨n, x, rfl⟩ := h
  exact walkFrom_alike ⟨n, x, rfl⟩ fun prev cur =>
    .ite (.done _ ⟨n, x, rfl⟩) (withSlot_alike ⟨n, x, rfl⟩ fun sl => .done _ (decRunCount_alike
      (setNext_alike (unlinkRunning_alike ⟨n, x, rfl⟩ prev sl.next) id noTimer)))

theorem removeExpired_alike (id : TimerId) {s u : State} (h : Alike s u) :
    Proc.Alike (removeExpired id s) (removeExpired id u) := by
  have tail : ∀ {a b : State} (prev : TimerId), Alike a b →
      Alike (if a.expTail = id then a.setExpTail prev else a) (if b.expTail = id then b.setExpTail prev else b) := by
    rintro a _ prev ⟨n, x, rfl⟩
    dsimp only
    split <;> exact ⟨n, x, rfl⟩
  obtain ⟨n, x, rfl⟩ := h
  exact walkFrom_alike ⟨n, x, rfl⟩ fun prev cur =>
    .ite (.done _ ⟨n, x, rfl⟩) (withSlot_alike ⟨n, x, rfl⟩ fun sl => .done _ (setNext_alike
      (tail prev (unlinkExpired_alike ⟨n, x, rfl⟩ prev sl.next)) id noTimer))

/-! ### The commands -/

theorem startBody_alike (mode : BitVec 4) (id : TimerId) {s u : State} (h : Alike s u) :
    Proc.Alike (startBody mode id s) (startBody mode id u) := by
  obtain ⟨n, x, rfl⟩ := h
  have rejected : ∀ st, Proc.Alike (.done (Reply.only st) s)
      (.done (Reply.only st) { s with runCount := n, hpExpiry := x }) := fun st => .done _ ⟨n, x, rfl⟩
  refine .ite (rejected _) (.ite (rejected _) (withSlot_alike ⟨n, x, rfl⟩ fun sl => .ite (rejected _) ?_))
  change Proc.Alike (match startTarget s.cfg mode s.operandTimeout s.nowTime with | none => _ | some _ => _)
    (match startTarget s.cfg mode s.operandTimeout s.nowTime with | none => _ | some _ => _)
  cases startTarget s.cfg mode s.operandTimeout s.nowTime with
  | none => exact rejected _
  | some target =>
    exact .andThen (insertRunning_alike id target _ _ (yield_alike ⟨n, x, rfl⟩)) fun _ _ _ ht => .done _ ht

theorem removeAny_alike (id : TimerId) {s u : State} (h : Alike s u) :
    Proc.Alike (removeAny id s) (removeAny id u) :=
  .andThen (removeRunning_alike id h) fun r _ _ ht => match r with
    | .notFound => removeExpired_alike id ht
    | .removed => .done _ ht
    | .removedRunningHead => .done _ ht

theorem stopBody_alike (id : TimerId) {s u : State} (h : Alike s u) :
    Proc.Alike (stopBody id s) (stopBody id u) := by
  obtain ⟨n, x, rfl⟩ := h
  exact .ite (.done _ ⟨n, x, rfl⟩) (.andThen (reconcile_alike ⟨n, x, rfl⟩) fun _ _ _ ht =>
    .andThen (removeAny_alike id ht) fun r _ _ hv => match r with
      | .notFound => .done _ hv
      | .removed => .done _ (clearCallback_alike hv id)
      | .removedRunningHead =>
        .andThen (progCompare_alike (clearCallback_alike hv id)) fun _ _ _ hw => .done _ hw)

theorem popExpired_alike {s u : State} (h : Alike s u) : Proc.Alike (popExpired s) (popExpired u) := by
  obtain ⟨n, x, rfl⟩ := h
  exact .ite (.done _ ⟨n, x, rfl⟩) (withSlot_alike ⟨n, x, rfl⟩ fun sl =>
    .ite (.raised ⟨n, x, rfl⟩) (.done _ ⟨n, x, rfl⟩))

/-- `hp_expiry` is written with the target, whatever it was (10_state.md R35). -/
theorem hpStartBody_alike (mode : BitVec 4) {s u : State} (h : Alike s u) :
    Proc.Alike (hpStartBody mode s) (hpStartBody mode u) := by
  obtain ⟨n, x, rfl⟩ := h
  refine .ite (.done _ ⟨n, x, rfl⟩) (.ite (.done _ ⟨n, x, rfl⟩) ?_)
  change Proc.Alike (match hpTarget s.cfg mode s.operandTimeout s.nowTime with | none => _ | some _ => _)
    (match hpTarget s.cfg mode s.operandTimeout s.nowTime with | none => _ | some _ => _)
  cases hpTarget s.cfg mode s.operandTimeout s.nowTime with
  | none => exact .done _ ⟨n, x, rfl⟩
  | some target => exact .done _ ⟨n, target, rfl⟩

theorem hpStopBody_alike {s u : State} (h : Alike s u) : Proc.Alike (hpStopBody s) (hpStopBody u) := by
  obtain ⟨n, x, rfl⟩ := h
  exact .ite (.done _ ⟨n, x, rfl⟩) (.done _ ⟨n, x, rfl⟩)

/-! ### Outcomes -/

theorem sameButUnread_next {s u : State} (h : Alike s u) : sameButUnread (.next s) (.next u) := alike_iff.1 h

theorem sameButUnread_ite {c : Prop} [Decidable c] {a b a' b' : Result} (ht : sameButUnread a a')
    (he : sameButUnread b b') : sameButUnread (if c then a else b) (if c then a' else b') := by
  split <;> assumption

theorem criticalRegion_alike {body : State → Proc Reply} {s u : State} (h : Alike s u)
    (hb : ∀ {a b}, Alike a b → Proc.Alike (body a) (body b)) :
    sameButUnread (criticalRegion body s) (criticalRegion body u) := by
  obtain ⟨n, x, rfl⟩ := h
  have hr := hb (a := s.setGie false) (b := { s with runCount := n, hpExpiry := x }.setGie false) ⟨n, x, rfl⟩
  unfold criticalRegion
  generalize body (s.setGie false) = r at hr ⊢
  generalize body ({ s with runCount := n, hpExpiry := x }.setGie false) = q at hr ⊢
  cases hr with
  | done r ht =>
    obtain ⟨m, y, rfl⟩ := ht
    exact sameButUnread_next ⟨m, y, rfl⟩
  | raised ht => exact sameButUnread_next ht

theorem illegalCommand_alike {s u : State} (h : Alike s u) : Alike s.illegalCommand u.illegalCommand := by
  obtain ⟨n, x, rfl⟩ := h
  exact ⟨n, x, rfl⟩

theorem commandBody_alike (i : Instr) {s u : State} (h : Alike s u) :
    Proc.Alike (commandBody i s) (commandBody i u) := by
  cases i with
  | start mode id => exact startBody_alike mode id h
  | stop id => exact stopBody_alike id h
  | reconcile => exact .andThen (reconcile_alike h) fun _ _ _ ht => .done _ ht
  | popExpired => exact popExpired_alike h
  | hpStart mode => exact hpStartBody_alike mode h
  | hpStop => exact hpStopBody_alike h
  | isRunning | now | hpIsRunning =>
    obtain ⟨n, x, rfl⟩ := h
    exact .done _ ⟨n, x, rfl⟩

theorem exec_alike (i : Instr) {s u : State} (h : Alike s u) : sameButUnread (exec i s) (exec i u) := by
  have hlegal : u.answersIllegal i = s.answersIllegal i := by
    obtain ⟨n, x, rfl⟩ := h
    cases i <;> rfl
  rw [exec_eq, exec_eq, hlegal]
  exact sameButUnread_ite (sameButUnread_next (illegalCommand_alike h))
    (criticalRegion_alike h (commandBody_alike i))

/-! ### Interrupts, host moves, steps -/

theorem irqOvf_alike {s u : State} (h : Alike s u) : Proc.Alike (irqOvf s) (irqOvf u) := by
  obtain ⟨n, x, rfl⟩ := h
  refine .andThen (progCompare_alike ⟨n, x, rfl⟩) fun _ _ _ ht => ?_
  obtain ⟨m, y, rfl⟩ := ht
  exact .done () ⟨m, y, rfl⟩

theorem handler_alike (src : Source) {s u : State} (h : Alike s u) :
    Proc.Alike (handler src s) (handler src u) := by
  cases src with
  | ovf => exact irqOvf_alike h
  | hp =>
    obtain ⟨n, x, rfl⟩ := h
    exact .ite (.raised ⟨n, x, rfl⟩) (.done () ⟨n, x, rfl⟩)
  | cmp =>
    obtain ⟨n, x, rfl⟩ := h
    exact .done () ⟨n, x, rfl⟩

theorem takeInterrupt_alike (src : Source) {s u : State} (h : Alike s u) :
    sameButUnread (takeInterrupt src s) (takeInterrupt src u) := by
  have hr := handler_alike src h
  unfold takeInterrupt
  generalize handler src s = r at hr ⊢
  generalize handler src u = q at hr ⊢
  cases hr with
  | done _ ht | raised ht => exact sameButUnread_next ht

theorem writeRegister_alike (k : Nat) (v : Word) {s u : State} (h : Alike s u) :
    Alike (s.writeRegister k v) (u.writeRegister k v) := by
  obtain ⟨n, x, rfl⟩ := h
  unfold State.writeRegister
  split <;> exact ⟨n, x, rfl⟩

theorem hostWrite_alike (offset size : Nat) (v : Word) {s u : State} (h : Alike s u) :
    sameButUnread (hostWrite offset size v s) (hostWrite offset size v u) := by
  have hcfg : u.cfg = s.cfg := by obtain ⟨n, x, rfl⟩ := h; rfl
  refine sameButUnread_ite (sameButUnread_ite ?_ (sameButUnread_next (writeRegister_alike _ v h))) rfl
  unfold issueCommand
  rw [hcfg]
  split
  · exact exec_alike _ (writeRegister_alike 0 v h)
  · exact sameButUnread_next (illegalCommand_alike (writeRegister_alike 0 v h))

theorem hostBranch_alike (offset : Nat) (mask value : Word) (skip : Nat) {s u : State} (h : Alike s u) :
    sameButUnread (hostBranch offset mask value skip s) (hostBranch offset mask value skip u) := by
  have hread : u.readRegister (offset / 4) = s.readRegister (offset / 4) := by obtain ⟨n, x, rfl⟩ := h; rfl
  unfold hostBranch
  rw [hread]
  refine sameButUnread_ite (sameButUnread_next ?_) rfl
  split
  · exact h
  · obtain ⟨n, x, rfl⟩ := h
    exact ⟨n, x, rfl⟩

theorem settle_alike {s u : State} (h : Alike s u) : sameButUnread (settle s) (settle u) := by
  have hd : u.deliverable = s.deliverable := by obtain ⟨n, x, rfl⟩ := h; rfl
  unfold settle
  rw [hd]
  split
  · exact sameButUnread_next h
  · obtain ⟨n, x, rfl⟩ := h
    exact takeInterrupt_alike _ ⟨n, x, rfl⟩

theorem serviceTest_alike {s u : State} (h : Alike s u) : Alike (serviceTest s) (serviceTest u) := by
  obtain ⟨n, x, rfl⟩ := h
  unfold serviceTest
  dsimp only
  split <;> exact ⟨n, x, rfl⟩

theorem delayTest_alike (t0 k : Word) {s u : State} (h : Alike s u) :
    Alike (delayTest t0 k s) (delayTest t0 k u) := by
  obtain ⟨n, x, rfl⟩ := h
  unfold delayTest
  dsimp only
  split <;> exact ⟨n, x, rfl⟩

theorem advance_alike (k : Nat) {s u : State} (h : Alike s u) : Alike (advance k s) (advance k u) := by
  obtain ⟨n, x, rfl⟩ := h
  cases k <;> exact ⟨n, x, rfl⟩

theorem hostMove_alike (m : HostMove) {s u : State} (h : Alike s u) :
    sameButUnread (hostMove m s) (hostMove m u) := by
  cases m with
  | write offset size v => exact hostWrite_alike offset size v h
  | branch offset mask value skip => exact hostBranch_alike offset mask value skip h
  | settle => exact settle_alike h
  | serviceTest => exact sameButUnread_next (serviceTest_alike h)
  | delayTest t0 k => exact sameButUnread_next (delayTest_alike t0 k h)
  | advance k => exact sameButUnread_next (advance_alike k h)
  | read | irqEnable | irqDisable | iret =>
    obtain ⟨n, x, rfl⟩ := h
    exact sameButUnread_ite (sameButUnread_next ⟨n, x, rfl⟩) rfl
  | invoke | service | servicePop | delay | delayStart =>
    obtain ⟨n, x, rfl⟩ := h
    exact sameButUnread_next ⟨n, x, rfl⟩

theorem hostTurn_alike {s u : State} (h : Alike s u) : sameButUnread (hostTurn s) (hostTurn u) := by
  obtain ⟨n, x, rfl⟩ := h
  have hd : ({ s with runCount := n, hpExpiry := x } : State).deliverable = s.deliverable := rfl
  unfold hostTurn
  rw [hd]
  dsimp only
  split
  · exact sameButUnread_next ⟨n, x, rfl⟩
  · split
    · exact takeInterrupt_alike _ ⟨n, x, rfl⟩
    · exact hostMove_alike _ ⟨n, x, rfl⟩

theorem irqTurn_alike {s u : State} (h : Alike s u) : sameButUnread (irqTurn s) (irqTurn u) := by
  have hd : u.deliverable = s.deliverable := by obtain ⟨n, x, rfl⟩ := h; rfl
  unfold irqTurn
  rw [hd]
  obtain ⟨n, x, rfl⟩ := h
  split
  · exact sameButUnread_next ⟨n, x, rfl⟩
  · exact takeInterrupt_alike _ ⟨n, x, rfl⟩

theorem agentTurn_alike (t : Turn) {s u : State} (h : Alike s u) :
    sameButUnread (agentTurn t s) (agentTurn t u) := by
  cases t with
  | host => exact hostTurn_alike h
  | irq => exact irqTurn_alike h
  | clk =>
    obtain ⟨n, x, rfl⟩ := h
    exact sameButUnread_next ⟨n, x, rfl⟩
  | reset program =>
    obtain ⟨n, x, rfl⟩ := h
    exact rfl

/-- Settles O60: the turn, the parameters and the fault register are the same, and each agent's turn goes
alike. -/
theorem runCountAndHpExpiryAreNeverRead : Obligations.RunCountAndHpExpiryAreNeverRead := by
  intro s u h
  have halike : Alike s u := alike_iff.2 h
  obtain ⟨hcfg, hfault, hturn⟩ : u.cfg = s.cfg ∧ u.fault = s.fault ∧ u.turn = s.turn := by
    obtain ⟨n, x, rfl⟩ := halike
    exact ⟨rfl, rfl, rfl⟩
  by_cases hwf : s.cfg.wellFormed = true
  · by_cases ht : ∃ program, s.turn = .reset program
    · obtain ⟨program, ht⟩ := ht
      rw [step_of_reset hwf ht, step_of_reset (hcfg ▸ hwf) (hturn.trans ht)]
      exact agentTurn_alike (.reset program) halike
    · rw [step_of_agent hwf (not_exists.1 ht), step_of_agent (hcfg ▸ hwf) (hturn ▸ not_exists.1 ht), hfault, hturn]
      split
      · exact agentTurn_alike s.turn halike
      · exact rfl
      · exact rfl
  · rw [step_of_not_wellFormed hwf, step_of_not_wellFormed (hcfg ▸ hwf)]
    exact rfl

end Sys2Proof.Machine
end

section
/-! PROOFS. The turns of the host and of the `IRQ` agent (20_memory.md R60 to R64), what a handler leaves
unchanged (R73), and what a number of ticks does (R63, 60_exceptions.md R240). -/

namespace Sys2Proof.Machine

/-! ### What an interrupt leaves unchanged -/

/-- Everything that a handler can write: no queue, slot or interface register (20_memory.md R73). -/
theorem InterruptEnd.frame {src : Source} {s t : State} (h : InterruptEnd s src t) :
    t = { s with
      expiredFlag := t.expiredFlag, ocrAuth := t.ocrAuth, sysHigh := t.sysHigh
      cnt := t.cnt, ocr := t.ocr, cmpIe := t.cmpIe, cmpIf := t.cmpIf, ovfIf := t.ovfIf
      hpCb := t.hpCb, hpIe := t.hpIe, hpIf := t.hpIf
      gie := t.gie, ctx := t.ctx, fault := t.fault, host := t.host, draws := t.draws } := by
  cases h with
  | ovf h => rw [(progCompare_done h).1]; rfl
  | hp => simp only [State.pushHost, State.hpClear, State.takeHpMatch, State.interruptEntry]
  | ovfRaised | hpFatal | cmp => rfl

/-- The time, the compare register and its enable are the overflow handler's to write, through
`prog_compare` (60_exceptions.md R232). -/
theorem InterruptEnd.keeps_clock {src : Source} {s t : State} (h : InterruptEnd s src t) (hsrc : src ≠ .ovf) :
    t.sysHigh = s.sysHigh ∧ t.cnt = s.cnt ∧ t.ocr = s.ocr ∧ t.cmpIe = s.cmpIe := by
  cases h with
  | ovf | ovfRaised => exact absurd rfl hsrc
  | hp | hpFatal | cmp => simp

/-- The high-priority timer and the host's list are the high-priority delivery's to write (R234). -/
theorem InterruptEnd.keeps_hp_and_host {src : Source} {s t : State} (h : InterruptEnd s src t)
    (hsrc : src ≠ .hp) : t.hpCb = s.hpCb ∧ t.hpIe = s.hpIe ∧ t.host = s.host := by
  cases h with
  | ovf h => rw [(progCompare_done h).1]; exact ⟨rfl, rfl, rfl⟩
  | hp | hpFatal => exact absurd rfl hsrc
  | ovfRaised | cmp => simp

/-- Only a delivery with a registered callback puts something before the host's next move. -/
theorem InterruptEnd.keeps_host {src : Source} {s t : State} (h : InterruptEnd s src t)
    (hsrc : src ≠ .hp ∨ s.hpCb = null) : t.host = s.host := by
  by_cases hhp : src = .hp
  · subst hhp
    cases h with
    | hp callback => exact absurd (hsrc.resolve_left (absurd rfl ·)) callback
    | hpFatal => rfl
  · obtain ⟨-, -, hhost⟩ := h.keeps_hp_and_host hhp
    exact hhost

/-- A delivery with a registered callback puts its invocation there (R234). -/
theorem InterruptEnd.invokes {s t : State} (h : InterruptEnd s .hp t) (hcb : s.hpCb ≠ null) :
    t.host = .invoke s.hpCb s.hpArg :: s.host := by
  cases h with
  | hp => rfl
  | hpFatal callback => exact absurd callback hcb

/-- Settles O38: the frame of each handler's end, and what the other handlers leave of it. -/
theorem handlersNeverWriteQueuesOrInterface : Obligations.HandlersNeverWriteQueuesOrInterface := by
  intro src s t h
  have hend := takeInterrupt_end h
  exact ⟨hend.frame, hend.keeps_clock, hend.keeps_hp_and_host, hend.queuesUntouched.flag⟩

/-! ### Turns -/

/-- Nothing is deliverable in a faulted state (60_exceptions.md R231). -/
theorem fault_of_deliverable {s : State} {src : Source} (h : s.deliverable = some src) : s.fault = .none := by
  by_contra hf
  have hnot : ∀ x, s.isDeliverable x = false := fun x => by simp [State.isDeliverable, hf]
  simp [State.deliverable, hnot] at h

/-- With nothing faulted, a step on the host's turn is the host's. -/
theorem step_of_host {s : State} (hwf : s.cfg.wellFormed = true) (hf : s.fault = .none) (ht : s.turn = .host) :
    step s = hostTurn s := by
  rw [step_of_agent hwf (by simp [ht]), hf, ht]
  rfl

/-- With nothing faulted, a step on the `IRQ` agent's turn is that agent's. -/
theorem step_of_irq {s : State} (hwf : s.cfg.wellFormed = true) (hf : s.fault = .none) (ht : s.turn = .irq) :
    step s = irqTurn s := by
  rw [step_of_agent hwf (by simp [ht]), hf, ht]
  rfl

/-- The host makes its next move, unless that move issues a command while an interrupt is deliverable. -/
theorem hostTurn_of_move {s : State} {m : HostMove} {rest : List HostMove} (hhost : s.host = m :: rest)
    (hmove : m.issues = true → s.deliverable = none) : hostTurn s = hostMove m (s.takeMove rest) := by
  unfold hostTurn
  rw [hhost]
  dsimp only
  split
  · next hissues hsrc => exact nomatch (hmove hissues).symm.trans hsrc
  · rfl

/-- In that case the interrupt is taken in the host's place (20_memory.md R64). -/
theorem hostTurn_of_deliverable {s : State} {m : HostMove} {rest : List HostMove} {src : Source}
    (hhost : s.host = m :: rest) (hissues : m.issues = true) (hsrc : s.deliverable = some src) :
    hostTurn s = takeInterrupt src s := by
  unfold hostTurn
  rw [hhost, hsrc]
  dsimp only
  rw [hissues]

/-- Settles O8: the host's turn, with the move that stands first on its list. -/
theorem stepTakesTheHostsNextMove : Obligations.StepTakesTheHostsNextMove := by
  intro s m rest hwf hf ht hhost hmove
  rw [step_of_host hwf hf ht, hostTurn_of_move hhost hmove]
  rfl

/-- Settles O9: the host's turn falls to the interrupt, whose handler leaves `CMD`, the schedule and, but for
an invocation, the host's list. -/
theorem deliverableInterruptComesBeforeTheCommand :
    Obligations.DeliverableInterruptComesBeforeTheCommand := by
  intro s w rest src hwf ht hhost hsrc
  obtain ⟨t, hnext⟩ := takeInterrupt_next src s
  have hend := takeInterrupt_end hnext
  have hcmd : t.cmd = s.cmd := by rw [hend.frame]
  have hsched : t.sched = s.sched := by rw [hend.frame]
  refine ⟨?_, t, hnext, hcmd, hsched, fun hkeep => ?_, ?_⟩
  · rw [step_of_host hwf (fault_of_deliverable hsrc) ht]
    exact hostTurn_of_deliverable hhost rfl hsrc
  · exact (hend.keeps_host hkeep).trans hhost
  · rintro ⟨rfl, hcb⟩
    rw [hend.invokes hcb, hhost]

/-- Settles O10: the two branches of the `IRQ` agent's turn. -/
theorem irqTurnTakesTheFirstSource : Obligations.IrqTurnTakesTheFirstSource := by
  intro s hwf hf ht
  rw [step_of_irq hwf hf ht, irqTurn]
  constructor
  · intro src hsrc
    rw [hsrc]
    rfl
  · intro hnone
    rw [hnone]
    rfl

/-! ### Ticks -/

/-- The count after one more tick, as a number (60_exceptions.md R240). -/
theorem cntNext_toNat {s : State} (h : s.cfg.hw ≤ 32) :
    s.cntNext.toNat = (s.cnt.toNat + 1) % 2 ^ s.cfg.hw := by
  rw [State.cntNext, lowBits_toNat, BitVec.toNat_add, Nat.mod_mod_of_dvd _ (two_pow_dvd h)]
  rfl

/-- The test that a latch makes of the new count, on numbers. -/
theorem cntNext_beq_iff {s : State} (h : s.cfg.hw ≤ 32) (v : Word) :
    (s.cntNext == v) = true ↔ (s.cnt.toNat + 1) % 2 ^ s.cfg.hw = v.toNat := by
  rw [beq_iff_eq, ← cntNext_toNat h, BitVec.toNat_inj]

/-- Of `n + 1` counts modulo `m` one is `x` when the first is, or one of the `n` that follow it. -/
theorem exists_count_succ {m c n x : Nat} :
    (∃ k, 1 ≤ k ∧ k ≤ n + 1 ∧ (c + k) % m = x) ↔
      (c + 1) % m = x ∨ ∃ k, 1 ≤ k ∧ k ≤ n ∧ ((c + 1) % m + k) % m = x := by
  have shift : ∀ k, ((c + 1) % m + k) % m = (c + (k + 1)) % m := fun k => by
    rw [Nat.mod_add_mod, Nat.add_assoc, Nat.add_comm 1 k]
  constructor
  · rintro ⟨k, hpos, hle, hx⟩
    obtain ⟨j, rfl⟩ := Nat.exists_eq_add_of_le' hpos
    by_cases hj : j = 0
    · subst hj
      exact .inl hx
    · exact .inr ⟨j, by omega, by omega, (shift j).trans hx⟩
  · rintro (hx | ⟨k, -, hle, hx⟩)
    · exact ⟨1, le_rfl, by omega, hx⟩
    · exact ⟨k + 1, by omega, by omega, (shift k).symm.trans hx⟩

/-- No tick changes nothing, and meets no count. -/
theorem Ticked.zero {s : State} (h : s.cnt.toNat < 2 ^ s.cfg.hw) : Ticked 0 s s where
  frame := rfl
  cnt := (Nat.mod_eq_of_lt h).symm
  ovf := ⟨.inl, fun h => h.resolve_right fun ⟨_, hpos, hle, _⟩ => absurd hpos (by omega)⟩
  cmp := ⟨.inl, fun h => h.resolve_right fun ⟨_, _, hpos, hle, _⟩ => absurd hpos (by omega)⟩
  hp := ⟨.inl, fun h => h.resolve_right fun ⟨_, _, _, hpos, hle, _⟩ => absurd hpos (by omega)⟩

/-- One tick before `n` others: its new count is the first of the `n + 1`, for each latch. -/
theorem Ticked.of_tick {n : Nat} {s t : State} (hw : s.cfg.hw ≤ 32) (h : Ticked n s.tick t) :
    Ticked (n + 1) s t where
  frame := h.frame
  cnt := by
    rw [h.cnt, State.tick_cnt, State.tick_cfg, cntNext_toNat hw, Nat.mod_add_mod, Nat.add_assoc, Nat.add_comm 1 n]
  ovf := by
    rw [h.ovf, State.tick_ovfIf, State.tick_cnt, State.tick_cfg, cntNext_toNat hw, Bool.or_eq_true,
      cntNext_beq_iff hw, exists_count_succ, or_assoc]
    rfl
  cmp := by
    rw [h.cmp, State.tick_cmpIf, State.tick_cmpIe, State.tick_ocr, State.tick_cnt, State.tick_cfg,
      cntNext_toNat hw, Bool.or_eq_true, Bool.and_eq_true, cntNext_beq_iff hw, exists_count_succ, or_assoc,
      ← and_or_left]
  hp := by
    rw [h.hp, State.tick_hpIf, State.tick_hpIe, State.tick_ocrHp, State.tick_cnt, State.tick_cfg,
      cntNext_toNat hw, Bool.or_eq_true, Bool.and_eq_true, Bool.and_eq_true, cntNext_beq_iff hw,
      exists_count_succ, or_assoc, and_assoc, ← and_or_left, ← and_or_left]

/-- Settles O30, by induction on the number of ticks, one tick before the others. -/
theorem ticksAdvanceTheCounterAndLatch : Obligations.TicksAdvanceTheCounterAndLatch := by
  intro n s hwf hs
  have hw : s.cfg.hw ≤ 32 := by
    obtain ⟨-, hw, -, hhw, -⟩ := Params.wellFormed_bounds hwf
    exact hhw.trans hw
  induction n generalizing s with
  | zero => exact Ticked.zero hs.cnt
  | succ n ih => exact Ticked.of_tick hw (ih s.tick hwf hs.tick hw)

end Sys2Proof.Machine
end

section
/-! PROOFS. The opcode map by fields (30_encoding.md R81, R84): which frames select a row, what they decode
to, and which frames are illegal (R87 to R89). -/

namespace Sys2Proof

open Sys2Proof.Laws.RowMatch (opcodeOf)

/-! ### The fields of a word -/

/-- The four fields are the whole word. -/
theorem word_eq_fields (c : Word) : c = fieldOpc c ++ fieldMode c ++ fieldRsv c ++ fieldId c := by
  have opcMode : fieldOpc c ++ fieldMode c = c.extractLsb' 24 8 :=
    BitVec.extractLsb'_append_extractLsb'_eq_extractLsb' rfl
  have opcModeRsv : c.extractLsb' 24 8 ++ fieldRsv c = c.extractLsb' 8 24 :=
    BitVec.extractLsb'_append_extractLsb'_eq_extractLsb' rfl
  have all : c.extractLsb' 8 24 ++ fieldId c = c.extractLsb' 0 32 :=
    BitVec.extractLsb'_append_extractLsb'_eq_extractLsb' rfl
  rw [opcMode, opcModeRsv, all, BitVec.extractLsb'_eq_self]

/-- Two words with the same fields are the same. -/
theorem word_eq_iff {c d : Word} :
    c = d ↔ fieldOpc c = fieldOpc d ∧ fieldMode c = fieldMode d ∧ fieldRsv c = fieldRsv d ∧
      fieldId c = fieldId d := by
  constructor
  · rintro rfl
    exact ⟨rfl, rfl, rfl, rfl⟩
  · rintro ⟨hopc, hmode, hrsv, hid⟩
    rw [word_eq_fields c, hopc, hmode, hrsv, hid, ← word_eq_fields d]

@[simp] theorem fieldOpc_and (c d : Word) : fieldOpc (c &&& d) = fieldOpc c &&& fieldOpc d :=
  BitVec.extractLsb'_and

@[simp] theorem fieldMode_and (c d : Word) : fieldMode (c &&& d) = fieldMode c &&& fieldMode d :=
  BitVec.extractLsb'_and

@[simp] theorem fieldRsv_and (c d : Word) : fieldRsv (c &&& d) = fieldRsv c &&& fieldRsv d :=
  BitVec.extractLsb'_and

@[simp] theorem fieldId_and (c d : Word) : fieldId (c &&& d) = fieldId c &&& fieldId d :=
  BitVec.extractLsb'_and

section CmdWord

variable (opc mode : BitVec 4) (id : TimerId)

@[simp] theorem fieldOpc_cmdWord : fieldOpc (cmdWord opc mode id) = opc := by
  rw [fieldOpc, cmdWord, BitVec.extractLsb'_append_eq_of_le (by decide),
    BitVec.extractLsb'_append_eq_of_le (by decide)]
  exact BitVec.extractLsb'_append_eq_left

@[simp] theorem fieldMode_cmdWord : fieldMode (cmdWord opc mode id) = mode := by
  rw [fieldMode, cmdWord, BitVec.extractLsb'_append_eq_of_le (by decide),
    BitVec.extractLsb'_append_eq_of_le (by decide)]
  exact BitVec.extractLsb'_append_eq_right

@[simp] theorem fieldRsv_cmdWord : fieldRsv (cmdWord opc mode id) = 0 := by
  rw [fieldRsv, cmdWord, BitVec.extractLsb'_append_eq_of_le (by decide)]
  exact BitVec.extractLsb'_append_eq_right

@[simp] theorem fieldId_cmdWord : fieldId (cmdWord opc mode id) = id := BitVec.extractLsb'_append_eq_right

end CmdWord

/-! ### The rows -/

/-- The `OPC` value of an operation's row (30_encoding.md R84). -/
def Opcode.code : Opcode → BitVec 4
  | .start => 0x1
  | .stop => 0x2
  | .isRunning => 0x3
  | .reconcile => 0x4
  | .popExpired => 0x5
  | .now => 0x6
  | .hpStart => 0x8
  | .hpStop => 0x9
  | .hpIsRunning => 0xA

/-- The operations that use the `MODE` field (R84). -/
def Opcode.usesMode (op : Opcode) : Bool := op == .start || op == .hpStart

/-- The operations that use the `ID` field (R84). -/
def Opcode.usesId (op : Opcode) : Bool := op == .start || op == .stop || op == .isRunning

/-- The operations whose row exists only when `HP_PRESENT` (R89). -/
def Opcode.needsHp (op : Opcode) : Bool := op == .hpStart || op == .hpStop || op == .hpIsRunning

/-- What the opcode map holds, by fields: a row compares `OPC`, `RSV` and the fields that its operation does
not use, with `OPC` and with zeros (R84). -/
theorem opcodeMap_fields : ∀ r ∈ opcodeMap,
    r.pattern = cmdWord r.op.code 0 0 ∧ r.hpOnly = r.op.needsHp ∧
    fieldOpc r.mask = BitVec.allOnes 4 ∧ fieldRsv r.mask = BitVec.allOnes 16 ∧
    fieldMode r.mask = (if r.op.usesMode then 0 else BitVec.allOnes 4) ∧
    fieldId r.mask = (if r.op.usesId then 0 else BitVec.allOnes 8) := by
  decide

/-- Every operation has a row. -/
theorem exists_row (op : Opcode) : ∃ r ∈ opcodeMap, r.op = op := by
  cases op <;> decide

/-- Two rows of the map with the same `OPC` are the same row. -/
theorem row_eq_of_code_eq : ∀ r ∈ opcodeMap, ∀ q ∈ opcodeMap, r.op.code = q.op.code → r = q := by
  decide

/-- The frames of an operation: its `OPC`, zeros in `RSV` and in the fields it does not use, and the row
exists (R84, R88, R89). -/
structure Opcode.Frames (op : Opcode) (hp : Bool) (c : Word) : Prop where
  present : hp = true ∨ op.needsHp = false
  opc : fieldOpc c = op.code
  rsv : fieldRsv c = 0
  mode : op.usesMode = true ∨ fieldMode c = 0
  id : op.usesId = true ∨ fieldId c = 0

/-- A field that a row masks out unless it uses it. -/
theorem masked_eq_zero_iff {n : Nat} {used : Bool} {x : BitVec n} :
    x &&& (if used then 0 else BitVec.allOnes n) = 0 ↔ used = true ∨ x = 0 := by
  cases used <;> simp

/-- A row selects the frames of its operation. -/
theorem selects_iff {hp : Bool} {c : Word} {r : OpcodeRow} (hr : r ∈ opcodeMap) :
    r.selects hp c = true ↔ r.op.Frames hp c := by
  obtain ⟨hpattern, hpOnly, hopc, hrsv, hmode, hid⟩ := opcodeMap_fields r hr
  have matching : c &&& r.mask = r.pattern ↔
      fieldOpc c = r.op.code ∧ (r.op.usesMode = true ∨ fieldMode c = 0) ∧ fieldRsv c = 0 ∧
        (r.op.usesId = true ∨ fieldId c = 0) := by
    rw [word_eq_iff, hpattern, fieldOpc_and, fieldMode_and, fieldRsv_and, fieldId_and, hopc, hrsv, hmode, hid,
      fieldOpc_cmdWord, fieldMode_cmdWord, fieldRsv_cmdWord, fieldId_cmdWord, BitVec.and_allOnes,
      BitVec.and_allOnes, masked_eq_zero_iff, masked_eq_zero_iff]
  rw [OpcodeRow.selects, Bool.and_eq_true, Bool.or_eq_true, Bool.not_eq_true', beq_iff_eq, matching, hpOnly]
  exact ⟨fun ⟨present, opc, mode, rsv, id⟩ => ⟨present, opc, rsv, mode, id⟩,
    fun ⟨present, opc, rsv, mode, id⟩ => ⟨present, opc, mode, rsv, id⟩⟩

/-- Settles O3: the rows that select a word have its `OPC`, and no two rows have the same. -/
theorem opcodeRowsAreDisjoint : Obligations.OpcodeRowsAreDisjoint := by
  intro hp c r q hr hq hrc hqc
  have hrf := (selects_iff hr).1 hrc
  have hqf := (selects_iff hq).1 hqc
  exact row_eq_of_code_eq r hr q hq (hrf.opc.symm.trans hqf.opc)

/-! ### The decoder -/

/-- A word decodes to an instruction exactly when some row selects it and builds that instruction. -/
theorem decode_eq_instr {hp : Bool} {c : Word} {i : Instr} :
    decode hp c = .instr i ↔ ∃ r ∈ opcodeMap, r.selects hp c = true ∧ r.op.build c = i := by
  unfold decode
  cases hfind : opcodeMap.find? (OpcodeRow.selects hp c) with
  | none =>
    have hnone := List.find?_eq_none.1 hfind
    exact ⟨nofun, fun ⟨r, hr, hsel, _⟩ => absurd hsel (hnone r hr)⟩
  | some q =>
    have hq := List.mem_of_find?_eq_some hfind
    have hqc := List.find?_some hfind
    constructor
    · intro h
      cases h
      exact ⟨q, hq, hqc, rfl⟩
    · rintro ⟨r, hr, hsel, rfl⟩
      rw [opcodeRowsAreDisjoint hp c r q hr hq hsel hqc]

/-- A word is illegal exactly when it is a frame of no operation. -/
theorem decode_illegal_iff {hp : Bool} {c : Word} :
    (∃ why, decode hp c = .illegal why) ↔ ∀ op : Opcode, ¬op.Frames hp c := by
  constructor
  · rintro ⟨why, h⟩ op hop
    obtain ⟨r, hr, rfl⟩ := exists_row op
    have hi := decode_eq_instr.2 ⟨r, hr, (selects_iff hr).2 hop, rfl⟩
    exact nomatch h.symm.trans hi
  · intro hnone
    cases h : decode hp c with
    | instr i =>
      obtain ⟨r, hr, hsel, -⟩ := decode_eq_instr.1 h
      exact absurd ((selects_iff hr).1 hsel) (hnone r.op)
    | illegal why => exact ⟨why, rfl⟩

/-! ### Encoding a decoded word, and decoding an encoded one -/

/-- Encoding what a row builds keeps the fields that its operation uses (R90). -/
theorem encode_build (op : Opcode) (c : Word) :
    encode (op.build c) =
      cmdWord op.code (if op.usesMode then fieldMode c else 0) (if op.usesId then fieldId c else 0) := by
  cases op <;> rfl

theorem needsHp_build (op : Opcode) (c : Word) : (op.build c).needsHp = op.needsHp := by
  cases op <;> rfl

theorem needsHp_opcodeOf (i : Instr) : (opcodeOf i).needsHp = i.needsHp := by
  cases i <;> rfl

/-- A row builds an instruction that is well formed, and whose word is the frame itself. -/
theorem Opcode.Frames.build_wellFormed_and_eq_encode {op : Opcode} {hp : Bool} {c : Word} (h : op.Frames hp c) :
    (op.build c).wellFormed hp = true ∧ c = encode (op.build c) := by
  constructor
  · rw [Instr.wellFormed, Bool.or_eq_true, Bool.not_eq_true', needsHp_build]
    exact h.present
  · have kept : ∀ {n : Nat} {used : Bool} {x : BitVec n}, used = true ∨ x = 0 →
        x = if used then x else 0 := by
      rintro n (_ | _) x hx
      · exact hx.resolve_left nofun
      · rfl
    rw [encode_build, word_eq_iff, fieldOpc_cmdWord, fieldMode_cmdWord, fieldRsv_cmdWord,
      fieldId_cmdWord]
    exact ⟨h.opc, kept h.mode, h.rsv, kept h.id⟩

/-- The row of an instruction builds it from its word (R87, R90). -/
theorem build_encode (i : Instr) : (opcodeOf i).build (encode i) = i := by
  cases i <;> simp [opcodeOf, Opcode.build, encode]

/-- Every instruction's word selects its row (R84). -/
theorem rowMatch (i : Instr) : Laws.RowMatch.Statement i :=
  match i with
  | .start mode id => Laws.RowMatch.start mode id
  | .stop id => Laws.RowMatch.stop id
  | .isRunning id => Laws.RowMatch.isRunning id
  | .reconcile => Laws.RowMatch.reconcile
  | .popExpired => Laws.RowMatch.popExpired
  | .now => Laws.RowMatch.now
  | .hpStart mode => Laws.RowMatch.hpStart mode
  | .hpStop => Laws.RowMatch.hpStop
  | .hpIsRunning => Laws.RowMatch.hpIsRunning

/-- The word of a well-formed instruction is a frame of its operation. -/
theorem encode_frames {hp : Bool} {i : Instr} (h : i.wellFormed hp = true) :
    (opcodeOf i).Frames hp (encode i) := by
  obtain ⟨r, hr, hop⟩ := exists_row (opcodeOf i)
  have hsel : (opcodeOf i).Frames true (encode i) := hop ▸ (selects_iff hr).1 ((rowMatch i r hr).2 hop)
  refine { hsel with present := ?_ }
  rw [needsHp_opcodeOf]
  rwa [Instr.wellFormed, Bool.or_eq_true, Bool.not_eq_true'] at h

/-- Settles O2: what a row builds from a frame it selects has that frame as its word, and the word of a
well-formed instruction selects the row that builds it. -/
theorem decodeIsTheInverseOfEncode : Obligations.DecodeIsTheInverseOfEncode := by
  intro hp c i
  rw [decode_eq_instr]
  constructor
  · rintro ⟨r, hr, hsel, rfl⟩
    exact ((selects_iff hr).1 hsel).build_wellFormed_and_eq_encode
  · rintro ⟨hwf, rfl⟩
    obtain ⟨r, hr, hop⟩ := exists_row (opcodeOf i)
    refine ⟨r, hr, (selects_iff hr).2 ?_, ?_⟩
    · rw [hop]
      exact encode_frames hwf
    · rw [hop]
      exact build_encode i

/-! ### Illegal frames -/

/-- An `OPC` value is a row's, or it is unassigned (R84). -/
theorem opc_cases : ∀ o : BitVec 4,
    (∃ r ∈ opcodeMap, o = r.op.code) ∨ o = 0x0 ∨ o = 0x7 ∨ 0xB ≤ o.toNat := by
  decide

/-- No two operations have the same `OPC`. -/
theorem Opcode.code_injective : Function.Injective Opcode.code := by
  intro op op' h
  obtain ⟨r, hr, rfl⟩ := exists_row op
  obtain ⟨q, hq, rfl⟩ := exists_row op'
  rw [row_eq_of_code_eq r hr q hq h]

/-- No operation has an unassigned `OPC` value. -/
theorem Opcode.code_assigned (op : Opcode) : ¬(op.code = 0x0 ∨ op.code = 0x7 ∨ 0xB ≤ op.code.toNat) := by
  cases op <;> decide

theorem Opcode.usesMode_iff (op : Opcode) : op.usesMode = true ↔ op.code = 0x1 ∨ op.code = 0x8 := by
  cases op <;> decide

theorem Opcode.usesId_iff (op : Opcode) :
    op.usesId = true ↔ op.code = 0x1 ∨ op.code = 0x2 ∨ op.code = 0x3 := by
  cases op <;> decide

theorem Opcode.needsHp_iff (op : Opcode) :
    op.needsHp = true ↔ op.code = 0x8 ∨ op.code = 0x9 ∨ op.code = 0xA := by
  cases op <;> decide

/-- A word with an operation's `OPC` is no frame of it exactly when a reserved field is not zero, or the
operation's row does not exist. -/
theorem Opcode.not_frames_iff {op : Opcode} {hp : Bool} {c : Word} (hop : fieldOpc c = op.code) :
    ¬op.Frames hp c ↔ fieldRsv c ≠ 0 ∨ (fieldMode c ≠ 0 ∧ ¬op.usesMode = true) ∨
      (fieldId c ≠ 0 ∧ ¬op.usesId = true) ∨ (hp = false ∧ op.needsHp = true) := by
  have hframes : op.Frames hp c ↔ (hp = true ∨ op.needsHp = false) ∧ fieldRsv c = 0 ∧
      (op.usesMode = true ∨ fieldMode c = 0) ∧ (op.usesId = true ∨ fieldId c = 0) :=
    ⟨fun ⟨present, _, rsv, mode, id⟩ => ⟨present, rsv, mode, id⟩,
      fun ⟨present, rsv, mode, id⟩ => ⟨present, hop, rsv, mode, id⟩⟩
  rw [hframes, ← Bool.not_eq_true hp, ← Bool.not_eq_true op.needsHp]
  tauto

/-- Settles O4: with an unassigned `OPC` a word is no operation's frame; with an operation's it can only be
that one's, and fails to be by a reserved field or by the missing timer. -/
theorem illegalFramesAreTheReservedOnes : Obligations.IllegalFramesAreTheReservedOnes := by
  intro hp c
  rw [decode_illegal_iff]
  rcases opc_cases (fieldOpc c) with ⟨r, -, hop⟩ | hun
  · have hassigned := r.op.code_assigned
    have honly : (∀ op : Opcode, ¬op.Frames hp c) ↔ ¬r.op.Frames hp c :=
      ⟨fun h => h r.op, fun h op hf => h (Opcode.code_injective (hop.symm.trans hf.opc) ▸ hf)⟩
    rw [honly, Opcode.not_frames_iff hop, Opcode.usesMode_iff, Opcode.usesId_iff, Opcode.needsHp_iff, hop]
    tauto
  · have hnone : ∀ op : Opcode, ¬op.Frames hp c := fun op hf => op.code_assigned (hf.opc ▸ hun)
    exact iff_of_true hnone (by tauto)

/-! ### Sample words -/

/-- A word that decodes to an illegal frame decodes to no instruction. -/
theorem decode_ne_instr {hp : Bool} {c : Word} {why : IllegalFrame} (h : decode hp c = .illegal why) (i : Instr) :
    decode hp c ≠ .instr i := by
  rw [h]
  exact nofun

/-- Settles O1: each word is decoded; four of them give a reason why they are illegal. -/
theorem sampleWordsDecodeToTheirCommands : Obligations.SampleWordsDecodeToTheirCommands := by
  have hzero : decode true 0x00000000#32 = .illegal .unassignedOpcode := by decide
  have hrsv : decode true 0x10000100#32 = .illegal .nonZeroField := by decide
  have hid : decode true 0x40000001#32 = .illegal .nonZeroField := by decide
  have hhp : decode false 0x81000000#32 = .illegal .hpAbsent := by decide
  exact ⟨by decide, by decide, by decide, by decide, by decide, by decide, by decide, by decide, by decide,
    by decide, decode_ne_instr hzero, decode_ne_instr hrsv, decode_ne_instr hid, decode_ne_instr hhp⟩

end Sys2Proof
end

section
/-! PROOFS. What a command answers (30_encoding.md R83, R86), that it is what a step runs (R80, R87), and the
host's moves (R91, R92). -/

namespace Sys2Proof.Machine

/-! ### Replies -/

/-- A status of the list and no results (00_scope.md R9). -/
def Reply.StatusIn (l : List Status) (r : Reply) : Prop := ∃ st ∈ l, r = Reply.only st

/-- A procedure that is done has answered this. -/
def Proc.Replies (P : Reply → Prop) (r : Proc Reply) : Prop := ∀ a t, r = .done a t → P a

theorem done_replies {P : Reply → Prop} {a : Reply} {s : State} (h : P a) : (Proc.done a s).Replies P := by
  intro b t hd
  cases hd
  exact h

theorem raised_replies {P : Reply → Prop} {s : State} : (Proc.raised s).Replies P := by
  intro b t hd
  cases hd

theorem only_replies {l : List Status} {st : Status} {s : State} (h : st ∈ l) :
    (Proc.done (Reply.only st) s).Replies (Reply.StatusIn l) := done_replies ⟨st, h, rfl⟩

theorem andThen_replies {α : Type} {P : Reply → Prop} {r : Proc α} {f : α → State → Proc Reply}
    (hf : ∀ a t, (f a t).Replies P) : (r.andThen f).Replies P := by
  intro b t hd
  obtain ⟨a, u, -, hd⟩ := Proc.andThen_eq_done.1 hd
  exact hf a u b t hd

theorem withSlot_replies {P : Reply → Prop} {s : State} {id : TimerId} {f : Slot → Proc Reply}
    (hf : ∀ sl, (f sl).Replies P) : (s.withSlot id f).Replies P := by
  intro b t hd
  obtain ⟨sl, -, hd⟩ := State.withSlot_eq_done.1 hd
  exact hf sl b t hd

/-- `START` (41_slot_table_commands.md R130). -/
theorem startBody_replies (mode : BitVec 4) (id : TimerId) (s : State) :
    (startBody mode id s).Replies
      (Reply.StatusIn [.success, .invalidId, .invalidParameter, .alreadyRunning, .invalidTimeout]) := by
  unfold startBody
  split
  · exact only_replies (by decide)
  · split
    · exact only_replies (by decide)
    · refine withSlot_replies fun sl => ?_
      split
      · exact only_replies (by decide)
      · split
        · exact only_replies (by decide)
        · exact andThen_replies fun _ t => only_replies (by decide)

/-- `STOP` (R133). -/
theorem stopBody_replies (id : TimerId) (s : State) :
    (stopBody id s).Replies (Reply.StatusIn [.success, .invalidId, .notRunning]) := by
  unfold stopBody
  split
  · exact only_replies (by decide)
  · exact andThen_replies fun _ t => andThen_replies fun r u => match r with
      | .notFound => only_replies (by decide)
      | .removed => only_replies (by decide)
      | .removedRunningHead => andThen_replies fun _ v => only_replies (by decide)

/-- `POP_EXPIRED` succeeds, with an entry or without one (43_expired_queue.md R166). -/
theorem popExpired_replies (s : State) : (popExpired s).Replies (·.status = .success) := by
  unfold popExpired
  split
  · exact done_replies rfl
  · refine withSlot_replies fun sl => ?_
    dsimp only
    split
    · exact raised_replies
    · exact done_replies rfl

/-- `HP_START` (46_high_priority.md R205). -/
theorem hpStartBody_replies (mode : BitVec 4) (s : State) :
    (hpStartBody mode s).Replies
      (Reply.StatusIn [.success, .invalidParameter, .alreadyRunning, .invalidTimeout]) := by
  unfold hpStartBody
  split
  · exact only_replies (by decide)
  · split
    · exact only_replies (by decide)
    · split
      · exact only_replies (by decide)
      · exact only_replies (by decide)

/-- `HP_STOP` (R206). -/
theorem hpStopBody_replies (s : State) : (hpStopBody s).Replies (Reply.StatusIn [.success, .notRunning]) := by
  unfold hpStopBody
  split
  · exact only_replies (by decide)
  · exact only_replies (by decide)

/-- A boolean answer is 0 or 1 (30_encoding.md R83). -/
theorem bool_res0_le (b : Bool) : (Reply.bool b).res0.toNat ≤ 1 := by
  cases b <;> decide

/-- `RECONCILE` answers success only (45_reconcile_dispatch.md R191). -/
theorem reconcileBody_replies (s : State) :
    (commandBody .reconcile s).Replies (· = Reply.only .success) :=
  andThen_replies fun _ _ => done_replies rfl

/-- `IS_RUNNING` and `HP_IS_RUNNING` answer a boolean (R83). -/
theorem boolReply_replies (b : Bool) (s : State) :
    (Proc.done (Reply.bool b) s).Replies (fun r => ∃ b, r = Reply.bool b) := done_replies ⟨b, rfl⟩

/-- `NOW` answers a time and no other result (40_comparator_clock.md R115). -/
theorem nowBody_replies (s : State) :
    (commandBody .now s).Replies (fun r => ∃ time, r = ⟨.success, time, 0, 0⟩) := done_replies ⟨_, rfl⟩

/-- A command that has its meaning here and ends without a fault writes its body's reply. -/
theorem exec_replies {P : Reply → Prop} {i : Instr} {s t : State}
    (h : exec i s = .next t) (hf : t.fault = .none) (hlegal : s.answersIllegal i = false)
    (hP : (commandBody i (s.setGie false)).Replies P) : ∃ r u, P r ∧ t = State.writeReply u r := by
  rw [exec_eq, hlegal, if_neg Bool.false_ne_true] at h
  rcases criticalRegion_cases h with ⟨r, u, hd, rfl⟩ | hr
  · exact ⟨r, _, hP r u hd, rfl⟩
  · have hw : (commandBody i (s.setGie false)).Wrote (s.setGie false) :=
      commandBody_wrote i (by cases i <;> exact hlegal)
    rw [hr] at hw
    exact absurd hf hw.2

/-- A command that has no meaning here is answered `IllegalCommand`. -/
theorem exec_illegal {i : Instr} {s : State} (h : s.answersIllegal i = true) :
    exec i s = .next s.illegalCommand := by
  rw [exec_eq, if_pos h]

/-- The registers after a reply without results. -/
theorem Reply.StatusIn.registers {l : List Status} {r : Reply} (h : r.StatusIn l) (s : State) :
    (s.writeReply r).status ∈ l.map Status.code ∧ (s.writeReply r).res0 = 0 ∧ (s.writeReply r).res1 = 0 ∧
      (s.writeReply r).res2 = 0 := by
  obtain ⟨st, hst, rfl⟩ := h
  exact ⟨List.mem_map_of_mem hst, rfl, rfl, rfl⟩

/-- Settles O14: a command that has its meaning answers its body's reply, and `RECONCILE` and `POP_EXPIRED`
have none exactly in interrupt context. -/
theorem statusCodesOfEachCommand : Obligations.StatusCodesOfEachCommand := by
  intro i s t _ hp h hf
  have hpLegal : (!s.cfg.hpPresent) = false := by rw [hp]; rfl
  cases i with
  | start mode id =>
    obtain ⟨r, u, hr, rfl⟩ := exec_replies h hf rfl (startBody_replies mode id _)
    exact hr.registers u
  | stop id =>
    obtain ⟨r, u, hr, rfl⟩ := exec_replies h hf rfl (stopBody_replies id _)
    exact hr.registers u
  | isRunning id =>
    obtain ⟨r, u, ⟨b, rfl⟩, rfl⟩ := exec_replies h hf rfl (boolReply_replies _ _)
    exact ⟨rfl, bool_res0_le b, rfl, rfl⟩
  | reconcile =>
    by_cases hctx : s.ctx = .irq
    · have hirq : s.answersIllegal .reconcile = true := beq_iff_eq.2 hctx
      rw [exec_illegal hirq] at h
      cases h
      exact ⟨(if_pos hctx).symm, rfl, rfl, rfl⟩
    · obtain ⟨r, u, rfl, rfl⟩ := exec_replies h hf (beq_eq_false_iff_ne.2 hctx) (reconcileBody_replies _)
      exact ⟨(if_neg hctx).symm, rfl, rfl, rfl⟩
  | popExpired =>
    by_cases hctx : s.ctx = .irq
    · have hirq : s.answersIllegal .popExpired = true := beq_iff_eq.2 hctx
      rw [exec_illegal hirq] at h
      cases h
      exact (if_pos hctx).symm
    · obtain ⟨r, u, hr, rfl⟩ := exec_replies h hf (beq_eq_false_iff_ne.2 hctx) (popExpired_replies _)
      exact (congrArg Status.code hr).trans (if_neg hctx).symm
  | now =>
    obtain ⟨r, u, ⟨time, rfl⟩, rfl⟩ := exec_replies h hf rfl (nowBody_replies _)
    exact ⟨rfl, rfl, rfl⟩
  | hpStart mode =>
    obtain ⟨r, u, hr, rfl⟩ := exec_replies h hf hpLegal (hpStartBody_replies mode _)
    exact hr.registers u
  | hpStop =>
    obtain ⟨r, u, hr, rfl⟩ := exec_replies h hf hpLegal (hpStopBody_replies _)
    exact hr.registers u
  | hpIsRunning =>
    obtain ⟨r, u, ⟨b, rfl⟩, rfl⟩ := exec_replies h hf hpLegal (boolReply_replies _ _)
    exact ⟨rfl, bool_res0_le b, rfl, rfl⟩

/-- Settles O11: every command's outcome is a next state, whether its body is done or raises. -/
theorem everyCommandAnswersANextState : Obligations.EveryCommandAnswersANextState := exec_next

/-! ### The host issues a command -/

/-- When the host's write of `CMD` comes next, the step issues the word (20_memory.md R61, R64). -/
theorem step_of_issues {s : State} {w : Word} {rest : List HostMove} (h : Issues s w rest) :
    step s = issueCommand w (s.takeMove rest) := by
  rw [step_of_host h.parameters h.noFault h.turn, hostTurn_of_move h.host fun _ => h.quiet]
  rfl

/-- A word that decodes to an instruction runs it (30_encoding.md R80, R87). -/
theorem step_of_issues_instr {s : State} {w : Word} {rest : List HostMove} {i : Instr}
    (h : Issues s w rest) (hdec : decode s.cfg.hpPresent w = .instr i) :
    step s = exec i { s with host := rest, sched := s.sched.tail, cmd := w } := by
  have hdec' : decode (s.takeMove rest).cfg.hpPresent w = .instr i := hdec
  rw [step_of_issues h, issueCommand, hdec']
  rfl

/-- A word that decodes to none is answered `IllegalCommand` (R88). -/
theorem step_of_issues_illegal {s : State} {w : Word} {rest : List HostMove} {why : IllegalFrame}
    (h : Issues s w rest) (hdec : decode s.cfg.hpPresent w = .illegal why) :
    step s = .next { s with
      host := rest, sched := s.sched.tail, cmd := w
      status := 0xFF, res0 := 0, res1 := 0, res2 := 0 } := by
  have hdec' : decode (s.takeMove rest).cfg.hpPresent w = .illegal why := hdec
  rw [step_of_issues h, issueCommand, hdec']
  rfl

/-- `withFetchWord` puts the word where the host issues it next (log 6). -/
theorem withFetchWord_issues {s : State} (nbits w : Nat) (hwf : s.cfg.wellFormed = true)
    (hf : s.fault = .none) (hquiet : s.deliverable = none) :
    Issues (s.withFetchWord nbits w) (tableWord nbits w) s.host :=
  ⟨hwf, hf, rfl, rfl, hquiet⟩

/-- Settles O7: a word that is issued and decodes runs its instruction, and `withFetchWord` makes the word the
next one issued. -/
theorem stepRunsTheDecodedCommand : Obligations.StepRunsTheDecodedCommand := by
  constructor
  · intro s w rest i h hdec
    exact step_of_issues_instr h hdec
  · intro s nbits w i hwf hf hquiet hdec
    exact step_of_issues_instr (withFetchWord_issues nbits w hwf hf hquiet) hdec

/-- Settles O5: a row that selects a word with one of the three codes exists only with the timer. -/
theorem highPriorityCommandsNeedTheTimer : Obligations.HighPriorityCommandsNeedTheTimer := by
  intro s w rest h hp hopc
  have hnone : opcodeMap.find? (OpcodeRow.selects false w) = none := by
    refine List.find?_eq_none.2 fun r hr hsel => ?_
    have hframe := (selects_iff hr).1 hsel
    have hneeds : r.op.needsHp = true := r.op.needsHp_iff.2 (hframe.opc ▸ hopc)
    rcases hframe.present with hpresent | habsent
    · exact nomatch hpresent
    · exact nomatch hneeds.symm.trans habsent
  refine ⟨hnone, step_of_issues_illegal h (why := illegalReason false w) ?_⟩
  rw [hp, decode, hnone]

/-! ### The host's moves -/

/-- Settles O15: the context guard of each of the three actions. -/
theorem hostActionsWriteGieAndContext : Obligations.HostActionsWriteGieAndContext := by
  intro s
  constructor
  · intro hmain
    have hnot : ¬s.ctx = .irq := by rw [hmain]; decide
    exact ⟨if_pos hmain, if_pos hmain, if_neg hnot⟩
  · intro hirq
    have hnot : ¬s.ctx = .main := by rw [hirq]; decide
    exact ⟨if_neg hnot, if_neg hnot, if_pos hirq⟩

/-- Bit 0 of `RES0`, the pop's `valid`, as `SERVICE` tests it (30_encoding.md R83). -/
theorem and_one_eq_zero_iff (x : Word) : x &&& 1 = 0 ↔ x.getLsbD 0 = false := by
  have hbit : x &&& 1 = BitVec.setWidth 32 (BitVec.ofBool (x.getLsbD 0)) :=
    BitVec.and_one_eq_setWidth_ofBool_getLsbD
  rw [hbit]
  cases x.getLsbD 0 <;> decide

/-- `SERVICE` ends at a pop that is not valid (45_reconcile_dispatch.md R192). -/
theorem serviceTest_of_invalid {s : State} (h : s.res0.getLsbD 0 = false) : serviceTest s = s :=
  if_pos ((and_one_eq_zero_iff _).2 h)

/-- `SERVICE` invokes a valid pop's callback before its next pop (R192). -/
theorem serviceTest_of_valid {s : State} (h : s.res0.getLsbD 0 = true) :
    serviceTest s = s.pushHost [.invoke s.res1 s.res2, .servicePop] :=
  if_neg fun h0 => nomatch h.symm.trans ((and_one_eq_zero_iff _).1 h0)

/-- The body of a reference that has an entry (60_exceptions.md R236). -/
theorem callbackBody_of_find {s : State} {cb arg : Word} {c : Callback}
    (h : s.callbacks.find? (fun c => c.cb == cb && c.arg == arg) = some c) : s.callbackBody cb arg = c.body := by
  rw [State.callbackBody, h]

/-- Settles O16: the moves that replace each pseudo-command, and the two outcomes of each loop's test. -/
theorem pseudoCommandsAreTheirSequences : Obligations.PseudoCommandsAreTheirSequences := by
  intro s
  refine ⟨rfl, rfl, fun hinvalid => ?_, fun hvalid => ?_, fun cb arg body hbody => ?_, fun n => rfl,
    fun n => rfl, fun t0 n hge => ?_, fun t0 n hlt => ?_⟩
  · rw [hostMove, serviceTest_of_invalid hinvalid]
  · rw [hostMove, serviceTest_of_valid hvalid]
    rfl
  · rw [hostMove, callbackBody_of_find hbody]
    rfl
  · rw [hostMove, delayTest, if_pos hge]
  · rw [hostMove, delayTest, if_neg (Nat.not_le.2 hlt)]
    rfl

/-- Settles O17: the two cases of the count, and the two of what is deliverable. -/
theorem advanceTicksAndSettles : Obligations.AdvanceTicksAndSettles := by
  intro s n
  refine ⟨rfl, rfl, fun hnone => ?_, fun src hsrc => ?_⟩
  · rw [hostMove, settle, hnone]
  · rw [hostMove, settle, hsrc]
    rfl

end Sys2Proof.Machine
end

section
/-! PROOFS. The comparator is a test on the forward distance of two times (40_comparator_clock.md R110, R111),
a time and the extended clock are a high and a low part joined (R112, R113), and a tick with its overflow
handler adds one to the clock (R114). -/

namespace Sys2Proof.Machine

/-! ### The forward distance of two times (40_comparator_clock.md R110) -/

/-- The forward distance is the only `W`-bit value that leads from `t1` to `t2`. -/
theorem timeSub_toNat_eq_iff {p : Params} (hw : p.w ≤ 32) {t1 t2 : Word} {d : Nat} (hd : d < 2 ^ p.w) :
    (timeSub p t2 t1).toNat = d ↔ (t1.toNat + d) % 2 ^ p.w = t2.toNat % 2 ^ p.w := by
  constructor
  · rintro rfl
    exact timeSub_spec hw t2 t1
  · intro h
    have hmod : (timeSub p t2 t1).toNat ≡ d [MOD 2 ^ p.w] :=
      Nat.ModEq.add_left_cancel' t1.toNat ((timeSub_spec hw t2 t1).trans h.symm)
    exact hmod.eq_of_lt_of_lt (timeSub_lt p t2 t1) hd

/-- The forward distance as a remainder of naturals, as the laws of R111 write it. -/
theorem timeSub_toNat {p : Params} (hw : p.w ≤ 32) {t1 : Word} (h1 : t1.toNat < 2 ^ p.w) (t2 : Word) :
    (timeSub p t2 t1).toNat = (t2.toNat + 2 ^ p.w - t1.toNat) % 2 ^ p.w := by
  refine (timeSub_toNat_eq_iff hw (Nat.mod_lt _ (Nat.two_pow_pos _))).2 ?_
  rw [Nat.add_mod_mod, Nat.add_sub_cancel' (by omega), Nat.add_mod_right]

/-- The forward distance as a remainder of integers, as R110 writes it. -/
theorem timeSub_toInt {p : Params} (hw : p.w ≤ 32) (t1 t2 : Word) :
    ((timeSub p t2 t1).toNat : Int) = ((t2.toNat : Int) - t1.toNat) % 2 ^ p.w := by
  have hspec : ((t1.toNat : Int) + (timeSub p t2 t1).toNat) % 2 ^ p.w = t2.toNat % 2 ^ p.w := by
    exact_mod_cast timeSub_spec hw t2 t1
  have hlt : ((timeSub p t2 t1).toNat : Int) < 2 ^ p.w := by exact_mod_cast timeSub_lt p t2 t1
  rw [← Int.emod_sub_emod, ← hspec, Int.emod_sub_emod, add_sub_cancel_left,
    Int.emod_eq_of_lt (Int.natCast_nonneg _) hlt]

/-- Up to a later time the distance is the plain difference. -/
theorem timeSub_toNat_of_le {p : Params} (hw : p.w ≤ 32) {t1 t2 : Word} (h2 : t2.toNat < 2 ^ p.w)
    (hle : t1.toNat ≤ t2.toNat) : (timeSub p t2 t1).toNat = t2.toNat - t1.toNat :=
  (timeSub_toNat_eq_iff hw (by omega)).2 (by rw [Nat.add_sub_cancel' hle])

/-- From `t2` back to `t1` the circle's remaining part is left to go. -/
theorem timeSub_swap {p : Params} (hw : p.w ≤ 32) (t1 t2 : Word) :
    (timeSub p t1 t2).toNat = (2 ^ p.w - (timeSub p t2 t1).toNat) % 2 ^ p.w := by
  have hlt := timeSub_lt p t2 t1
  refine (timeSub_toNat_eq_iff hw (Nat.mod_lt _ (Nat.two_pow_pos _))).2 ?_
  rw [Nat.add_mod_mod, ← Nat.mod_add_mod, ← timeSub_spec hw t2 t1, Nat.mod_add_mod, Nat.add_assoc,
    Nat.add_sub_cancel' hlt.le, Nat.add_mod_right]

/-- The distance depends on the times modulo `2^W` only. -/
theorem timeSub_lowBits {p : Params} (hw : p.w ≤ 32) (x y : Word) :
    timeSub p (lowBits p.w x) (lowBits p.w y) = timeSub p x y := by
  refine BitVec.eq_of_toNat_eq ((timeSub_toNat_eq_iff hw (timeSub_lt p x y)).2 ?_)
  rw [lowBits_toNat, lowBits_toNat, Nat.mod_add_mod, Nat.mod_mod, timeSub_spec hw]

/-- Moving both times by `c` keeps their distance (R111 (f)). -/
theorem timeSub_timeAdd {p : Params} (hw : p.w ≤ 32) (t1 t2 c : Word) :
    timeSub p (timeAdd p t2 c) (timeAdd p t1 c) = timeSub p t2 t1 := by
  rw [timeAdd, timeAdd, timeSub_lowBits hw, timeSub, timeSub, add_sub_add_right_eq_sub]

/-- Two times are as far apart as their offsets from a common base. -/
theorem timeSub_timeSub {p : Params} (hw : p.w ≤ 32) (t1 t2 base : Word) :
    timeSub p (timeSub p t2 base) (timeSub p t1 base) = timeSub p t2 t1 :=
  calc timeSub p (timeSub p t2 base) (timeSub p t1 base)
      = timeSub p (t2 - base) (t1 - base) := timeSub_lowBits hw _ _
    _ = timeSub p t2 t1 := by rw [timeSub, timeSub, sub_sub_sub_cancel_right]

/-! ### The comparator (R110, R111) -/

theorem isBefore_iff {p : Params} {t1 t2 : Word} :
    isBefore p t1 t2 = true ↔ (timeSub p t2 t1).toNat < 2 ^ (p.w - 1) := decide_eq_true_iff

theorem isBefore_eq_false_iff {p : Params} {t1 t2 : Word} :
    isBefore p t1 t2 = false ↔ 2 ^ (p.w - 1) ≤ (timeSub p t2 t1).toNat :=
  decide_eq_false_iff_not.trans Nat.not_lt

/-- The modulus is two halves (00_scope.md R6: `W` is at least 28). -/
theorem Params.modulus_eq {p : Params} (h : p.wellFormed = true) : 2 ^ p.w = 2 * 2 ^ (p.w - 1) := by
  obtain ⟨hmin, -⟩ := Params.wellFormed_bounds h
  rw [← Nat.pow_succ', Nat.succ_eq_add_one, Nat.sub_add_cancel (by omega)]

theorem Params.w_le {p : Params} (h : p.wellFormed = true) : p.w ≤ 32 := by
  obtain ⟨-, hw, -⟩ := Params.wellFormed_bounds h
  exact hw

/-- A time is at or before itself (R110). -/
theorem isBefore_refl {p : Params} (h : p.wellFormed = true) (t : Word) : isBefore p t t = true := by
  have hzero : (timeSub p t t).toNat = 0 :=
    (timeSub_toNat_eq_iff (Params.w_le h) (Nat.two_pow_pos _)).2 rfl
  rw [isBefore_iff, hzero]
  exact Nat.two_pow_pos _

/-- Settles O24: the three ways to write the forward distance. -/
theorem comparatorIsTheHalfModulusTest : Obligations.ComparatorIsTheHalfModulusTest := by
  refine ⟨fun p t1 t2 hwf _ h2 => ⟨?_, ?_, isBefore_refl hwf t1⟩, by decide⟩
  · rw [isBefore_iff, ← timeSub_toInt (Params.w_le hwf)]
    exact_mod_cast Iff.rfl
  · have hhalf : ∀ {k}, k < 2 ^ (p.w - 1) → k < 2 ^ p.w := fun hk => by
      rw [Params.modulus_eq hwf]
      omega
    have hstep : ∀ {k}, k < 2 ^ (p.w - 1) →
        ((timeSub p t2 t1).toNat = k ↔ t2.toNat = (t1.toNat + k) % 2 ^ p.w) := fun hk => by
      rw [timeSub_toNat_eq_iff (Params.w_le hwf) (hhalf hk), Nat.mod_eq_of_lt h2, eq_comm]
    rw [isBefore_iff]
    constructor
    · exact fun hlt => ⟨_, hlt, (hstep hlt).1 rfl⟩
    · rintro ⟨k, hk, ht⟩
      rw [(hstep hk).2 ht]
      exact hk

/-- Settles O25: the distance back is the rest of the circle, and both distances are compared with its half. -/
theorem comparatorByDistance : Obligations.ComparatorByDistance := by
  intro p t1 t2 c hwf h1 _ d
  have hw := Params.w_le hwf
  have hforward : (timeSub p t2 t1).toNat = d := timeSub_toNat hw h1 t2
  have hback : (timeSub p t1 t2).toNat = (2 ^ p.w - d) % 2 ^ p.w := hforward ▸ timeSub_swap hw t1 t2
  have hmod := Params.modulus_eq hwf
  have hpos : 0 < 2 ^ (p.w - 1) := Nat.two_pow_pos _
  have hrest : 0 < d → (timeSub p t1 t2).toNat = 2 ^ p.w - d := fun hd => by
    rw [hback, Nat.mod_eq_of_lt (by omega)]
  simp only [isBefore_iff, isBefore_eq_false_iff, hforward]
  refine ⟨fun hd => ?_, fun ⟨hd, hlt⟩ => ?_, fun hd => ?_, fun hlt => ?_, ?_⟩
  · rw [hback, hd, Nat.sub_zero, Nat.mod_self]
    exact ⟨hpos, hpos⟩
  · have := hrest hd
    omega
  · have := hrest (by omega)
    omega
  · have := hrest (by omega)
    omega
  · rw [isBefore, isBefore, timeSub_timeAdd hw]

/-- On an arc shorter than half the modulus the comparator compares the offsets from the arc's base. -/
theorem isBefore_iff_offset_le {p : Params} (hwf : p.wellFormed = true) {a b base : Word}
    (ha : (timeSub p a base).toNat < 2 ^ (p.w - 1)) (hb : (timeSub p b base).toNat < 2 ^ (p.w - 1)) :
    isBefore p a b = true ↔ (timeSub p a base).toNat ≤ (timeSub p b base).toNat := by
  have hw := Params.w_le hwf
  have hmod := Params.modulus_eq hwf
  rw [isBefore_iff, ← timeSub_timeSub hw a b base]
  by_cases hle : (timeSub p a base).toNat ≤ (timeSub p b base).toNat
  · rw [timeSub_toNat_of_le hw (timeSub_lt _ _ _) hle]
    omega
  · have hback := timeSub_toNat_of_le hw (timeSub_lt _ _ _) (Nat.le_of_not_le hle)
    rw [timeSub_swap hw, hback, Nat.mod_eq_of_lt (by omega)]
    omega

/-- The comparator goes in two steps half around the circle, and never in one (R111 (c)). -/
theorem isBefore_not_transitive {p : Params} (hwf : p.wellFormed = true) :
    ∃ a b c : Word, isBefore p a b = true ∧ isBefore p b c = true ∧ isBefore p a c = false := by
  have hw := Params.w_le hwf
  have hmod := Params.modulus_eq hwf
  have hpos : 1 < 2 ^ (p.w - 1) := by
    obtain ⟨hmin, -⟩ := Params.wellFormed_bounds hwf
    exact Nat.one_lt_two_pow (by omega)
  have hcap : 2 ^ p.w ≤ 2 ^ 32 := Nat.pow_le_pow_right two_pos hw
  have hword : ∀ {n}, n < 2 ^ p.w → (BitVec.ofNat 32 n).toNat = n := fun hn => by
    rw [BitVec.toNat_ofNat, Nat.mod_eq_of_lt (by omega)]
  have hnear := hword (n := 2 ^ (p.w - 1) - 1) (by omega)
  have hfar := hword (n := 2 ^ (p.w - 1)) (by omega)
  have hzero : (0 : Word).toNat = 0 := rfl
  refine ⟨0, BitVec.ofNat 32 (2 ^ (p.w - 1) - 1), BitVec.ofNat 32 (2 ^ (p.w - 1)), ?_, ?_, ?_⟩
  · rw [isBefore_iff, timeSub_toNat_of_le hw (by omega) (by omega)]
    omega
  · rw [isBefore_iff, timeSub_toNat_of_le hw (by omega) (by omega)]
    omega
  · rw [isBefore_eq_false_iff, timeSub_toNat_of_le hw (by omega) (by omega)]
    omega

/-- Settles O26: on a short arc the order is that of the offsets; half around the circle transitivity fails. -/
theorem comparatorOrdersEveryShortArc : Obligations.ComparatorOrdersEveryShortArc := by
  refine ⟨fun p ts hwf ⟨base, harc⟩ => ?_, fun p hwf => isBefore_not_transitive hwf⟩
  have hoffset : ∀ a ∈ ts, ∀ b ∈ ts,
      (isBefore p a b = true ↔ (timeSub p a base).toNat ≤ (timeSub p b base).toNat) := fun a ha b hb =>
    isBefore_iff_offset_le hwf (harc a ha).2 (harc b hb).2
  constructor
  · intro a ha b hb
    rw [hoffset a ha b hb, hoffset b hb a ha]
    exact Nat.le_total _ _
  · intro a ha b hb c hc hab hbc
    rw [hoffset a ha b hb] at hab
    rw [hoffset b hb c hc] at hbc
    rw [hoffset a ha c hc]
    exact hab.trans hbc

/-! ### The high and the low part of a time (R112) -/

/-- `(hi << HW) | lo` is an addition when `lo` has `HW` bits and `hi` is not shifted out of the word. -/
theorem join_toNat {n : Nat} {hi lo : Word} (hlo : lo.toNat < 2 ^ n) (hhi : hi.toNat * 2 ^ n < 2 ^ 32) :
    (hi <<< n ||| lo).toNat = hi.toNat * 2 ^ n + lo.toNat := by
  rw [BitVec.toNat_or, BitVec.toNat_shiftLeft, Nat.mod_eq_of_lt (by rwa [Nat.shiftLeft_eq]),
    ← Nat.shiftLeft_add_eq_or_of_lt hlo, Nat.shiftLeft_eq]

/-- `2^W = 2^SHW * 2^HW` (00_scope.md R6). -/
theorem Params.modulus_split {p : Params} (h : p.wellFormed = true) : 2 ^ p.w = 2 ^ p.shw * 2 ^ p.hw := by
  obtain ⟨-, -, -, hhw, -⟩ := Params.wellFormed_bounds h
  rw [← Nat.pow_add, Params.shw, Nat.sub_add_cancel hhw]

/-- Settles O27: the parts are the quotient and the remainder by `2^HW`. -/
theorem timesSplitIntoHighAndLowParts : Obligations.TimesSplitIntoHighAndLowParts := by
  intro p t hwf ht
  have hhi : (timeHi p t).toNat = t.toNat / 2 ^ p.hw := by rw [timeHi_toNat, Nat.mod_eq_of_lt ht]
  have hlo := timeLo_toNat p t
  have hjoin : (timeHi p t).toNat * 2 ^ p.hw + (timeLo p t).toNat = t.toNat := by
    rw [hhi, hlo, Nat.div_add_mod']
  refine ⟨BitVec.eq_of_toNat_eq ?_, hlo, BitVec.eq_of_toNat_eq ?_, ?_, fun heq => BitVec.eq_of_toNat_eq ?_⟩
  · rw [hhi, BitVec.toNat_ushiftRight, Nat.shiftRight_eq_div_pow]
  · rw [join_toNat (timeLo_lt p t) (by omega), hjoin]
  · rw [hhi]
    exact Nat.div_lt_of_lt_mul (by rwa [Nat.mul_comm, ← Params.modulus_split hwf])
  · rw [hhi, heq, Nat.div_eq_of_lt ht]
    rfl

/-! ### The extended clock (R113 to R115) -/

/-- An epoch of `SHW` bits joined with a count of `HW` bits is a `W`-bit time. -/
theorem clock_lt {p : Params} (hwf : p.wellFormed = true) {epoch count : Nat} (he : epoch < 2 ^ p.shw)
    (hc : count < 2 ^ p.hw) : epoch * 2 ^ p.hw + count < 2 ^ p.w := by
  calc epoch * 2 ^ p.hw + count < (epoch + 1) * 2 ^ p.hw := by rw [Nat.succ_mul]; omega
    _ ≤ 2 ^ p.shw * 2 ^ p.hw := Nat.mul_le_mul_right _ he
    _ = 2 ^ p.w := (Params.modulus_split hwf).symm

/-- The sample of the time as a number (R113). -/
theorem nowTime_toNat {s : State} (hwf : s.cfg.wellFormed = true) (henv : EnvInv s) :
    s.nowTime.toNat = s.sysHigh.toNat * 2 ^ s.cfg.hw + s.cnt.toNat := by
  have hlt := clock_lt hwf henv.sysHigh henv.cnt
  have hcap : 2 ^ s.cfg.w ≤ 2 ^ 32 := Nat.pow_le_pow_right two_pos (Params.w_le hwf)
  rw [State.nowTime, lowBits_toNat, join_toNat henv.cnt (by omega), Nat.mod_eq_of_lt hlt]

/-- `NOW` writes the sample into `RES0` (R115). -/
theorem exec_now (s : State) :
    exec .now s = .next { s with status := 0, res0 := s.nowTime, res1 := 0, res2 := 0 } := rfl

/-- Settles O28: the sample's number is the joined one, which fits in a word. -/
theorem nowAnswersTheExtendedClock : Obligations.NowAnswersTheExtendedClock := by
  intro s hwf henv
  refine ⟨?_, clock_lt hwf henv.sysHigh henv.cnt⟩
  rw [exec_now, ← nowTime_toNat hwf henv, BitVec.ofNat_toNat, BitVec.setWidth_eq]

/-- Arming and disarming write the compare unit's registers, nothing else (44_compare_programmer.md R177, R178). -/
theorem armCompare_frame (s : State) (e : Word) :
    s.armCompare e = { s with
      ocr := (s.armCompare e).ocr
      cmpIe := (s.armCompare e).cmpIe
      cmpIf := (s.armCompare e).cmpIf
      ocrAuth := (s.armCompare e).ocrAuth } := by
  unfold State.armCompare
  split <;> rfl

/-- With no tick at its `yield`, `prog_compare` leaves the counter and the overflow latch as they were. -/
theorem progCompare_keeps_clock {s t : State} {a : Unit} (hdraw : s.draws.headD 0 = 0)
    (h : progCompare s = .done a t) :
    t.cfg = s.cfg ∧ t.sysHigh = s.sysHigh ∧ t.cnt = s.cnt ∧ t.ovfIf = s.ovfIf := by
  by_cases hn : s.runHead = noTimer
  · rw [progCompare_empty hn] at h
    cases h
    exact ⟨rfl, rfl, rfl, rfl⟩
  · rw [progCompare, if_neg hn] at h
    obtain ⟨sl, -, h⟩ := State.withSlot_eq_done.1 h
    cases h
    rw [State.yield_of_zero _ (by rw [armCompare_frame]; exact hdraw), armCompare_frame]
    exact ⟨rfl, rfl, rfl, rfl⟩

/-- With no tick at its `yield`, the overflow handler advances the epoch, clears the latch and leaves the
counter as it was (60_exceptions.md R232). -/
theorem takeInterrupt_ovf_clock {s : State} {run exp : List TimerId} (hq : QueueWF s run exp)
    (hN : s.cfg.nTimers ≤ 255) (hdraw : s.draws.headD 0 = 0) :
    ∃ t, takeInterrupt .ovf s = .next t ∧
      t.cfg = s.cfg ∧ t.sysHigh = s.sysHighNext ∧ t.cnt = s.cnt ∧ t.ovfIf = false := by
  have hm : QueueWF s.interruptEntry.takeOverflow run exp := hq.congr rfl rfl rfl rfl rfl rfl
  obtain ⟨u, hdone, -, -⟩ := progCompare_kept hm hN rfl rfl
  have hclock := progCompare_keeps_clock (s := s.interruptEntry.takeOverflow) hdraw hdone
  exact ⟨u.interruptReturn, by rw [takeInterrupt, handler, irqOvf, hdone]; rfl, hclock⟩

/-- A tick sets a clear overflow latch exactly when it wraps the counter (60_exceptions.md R240). -/
theorem tick_ovfIf_iff {s : State} (hhw : s.cfg.hw ≤ 32) (hlt : s.cnt.toNat < 2 ^ s.cfg.hw)
    (hclear : s.ovfIf = false) : s.tick.ovfIf = true ↔ s.cnt.toNat + 1 = 2 ^ s.cfg.hw := by
  rw [State.tick_ovfIf, hclear, Bool.false_or, cntNext_beq_iff hhw]
  constructor
  · intro hzero
    by_contra hne
    rw [Nat.mod_eq_of_lt (by omega)] at hzero
    exact Nat.succ_ne_zero _ hzero
  · intro hwrap
    rw [hwrap, Nat.mod_self]
    rfl

/-- Settles O31: the tick adds one to the count, or wraps it and leaves its carry to the handler. -/
theorem extendedClockCountsEveryTick : Obligations.ExtendedClockCountsEveryTick := by
  intro s run exp hwf henv hq hclear
  obtain ⟨-, hw, -, hhw, hN, -⟩ := Params.wellFormed_bounds hwf
  have hcnt : s.tick.cnt.toNat = (s.cnt.toNat + 1) % 2 ^ s.cfg.hw := cntNext_toNat (hhw.trans hw)
  have hlatch := tick_ovfIf_iff (hhw.trans hw) henv.cnt hclear
  rw [nowTime_toNat hwf henv]
  constructor
  · intro hno
    have hinside : s.cnt.toNat + 1 < 2 ^ s.cfg.hw :=
      lt_of_le_of_ne henv.cnt fun hwrap => nomatch hno.symm.trans (hlatch.2 hwrap)
    calc s.tick.nowTime.toNat
        = s.sysHigh.toNat * 2 ^ s.cfg.hw + (s.cnt.toNat + 1) := by
          rw [nowTime_toNat (s := s.tick) hwf henv.tick, hcnt, Nat.mod_eq_of_lt hinside]
          rfl
      _ = (s.sysHigh.toNat * 2 ^ s.cfg.hw + s.cnt.toNat + 1) % 2 ^ s.cfg.w := by
          rw [Nat.add_assoc, Nat.mod_eq_of_lt (clock_lt hwf henv.sysHigh hinside)]
  · intro hovf hdraw
    have hwrap := hlatch.1 hovf
    have hqt : QueueWF s.tick run exp := hq.congr rfl rfl rfl rfl rfl rfl
    obtain ⟨t, hnext, hcfg, hhigh, hcount, hovfIf⟩ := takeInterrupt_ovf_clock hqt hN hdraw
    have henvt : EnvInv t := (takeInterrupt_end hnext).keeps_envInv henv.tick
    have hepoch : s.tick.sysHighNext.toNat = (s.sysHigh.toNat + 1) % 2 ^ s.cfg.shw := sysHighNext_toNat hw
    refine ⟨t, hnext, ?_, hovfIf⟩
    calc t.nowTime.toNat
        = (s.sysHigh.toNat + 1) % 2 ^ s.cfg.shw * 2 ^ s.cfg.hw := by
          rw [nowTime_toNat (hcfg ▸ hwf) henvt, hhigh, hepoch, hcount, hcnt, hwrap, Nat.mod_self, hcfg]
          rfl
      _ = (s.sysHigh.toNat + 1) * 2 ^ s.cfg.hw % 2 ^ s.cfg.w := by
          rw [Params.modulus_split hwf, Nat.mul_mod_mul_right]
      _ = (s.sysHigh.toNat * 2 ^ s.cfg.hw + s.cnt.toNat + 1) % 2 ^ s.cfg.w := by
          rw [Nat.add_assoc, hwrap, Nat.succ_mul]

end Sys2Proof.Machine
end

section
/-! PROOFS. `START`, `STOP` and `IS_RUNNING` (41_slot_table_commands.md): the checks in their order, the
insertion and the removal behind a reconciliation, and how far ahead an accepted deadline is. -/

namespace Sys2Proof.Machine

/-! ### A command whose body is done -/

/-- A body that is done with a bare status: `gie` is restored and the results are written (20_memory.md R66). -/
theorem exec_of_body_done {i : Instr} {s u : State} {st : Status} (hlegal : s.answersIllegal i = false)
    (h : commandBody i (s.setGie false) = .done (Reply.only st) u) :
    exec i s = .next ({ u with gie := s.gie }.withResults st.code 0 0 0) := by
  rw [exec_eq, hlegal, if_neg Bool.false_ne_true, criticalRegion, h]
  rfl

/-- A body that is done and has written nothing: only the results change. -/
theorem exec_of_body_unchanged {i : Instr} {s : State} {st : Status} (hlegal : s.answersIllegal i = false)
    (h : commandBody i (s.setGie false) = .done (Reply.only st) (s.setGie false)) :
    exec i s = .next (s.withResults st.code 0 0 0) :=
  exec_of_body_done (u := s.setGie false) hlegal h

/-! ### `IS_RUNNING` (41_slot_table_commands.md R134) -/

theorem exec_isRunning (s : State) (id : TimerId) : exec (.isRunning id) s =
    .next { s with status := 0, res0 := if s.timerRunning id then 1 else 0, res1 := 0, res2 := 0 } := rfl

theorem timerRunning_of_slot {s : State} {id : TimerId} {sl : Slot} (h : s.slot? id = some sl) :
    s.timerRunning id = (sl.callback != null) := by
  rw [State.timerRunning, h]

theorem timerRunning_outside {s : State} {id : TimerId} (h : s.cfg.nTimers ≤ id.toNat) :
    s.timerRunning id = false := by
  rw [State.timerRunning, State.slot?, if_neg (Nat.not_lt.2 h)]

/-- Settles O39: a slot with a callback, a slot without one, and an id outside the table. -/
theorem isRunningAnswersWhetherACallbackIsSet : Obligations.IsRunningAnswersWhetherACallbackIsSet := by
  intro s id hw
  refine ⟨fun sl hsl hcb => ?_, fun sl hsl hcb => ?_, fun hid => ?_, State.slot?_of_lt hw⟩
  · rw [exec_isRunning, timerRunning_of_slot hsl, bne_iff_ne.2 hcb, if_pos rfl]
  · rw [exec_isRunning, timerRunning_of_slot hsl, bne_eq_false_iff_eq.2 hcb, if_neg Bool.false_ne_true]
  · rw [exec_isRunning, timerRunning_outside hid, if_neg Bool.false_ne_true]

/-! ### The deadline of a timeout (R130 to R132) -/

theorem delayInRange_iff {lo hi delay : Word} :
    delayInRange lo hi delay = true ↔ lo.toNat ≤ delay.toNat ∧ delay.toNat ≤ hi.toNat := by
  rw [delayInRange, Bool.and_eq_true, decide_eq_true_iff, decide_eq_true_iff]

/-- The delay of an absolute deadline is the comparator's forward distance from now (R132, R110). -/
theorem delayTo_eq {s : State} (hwf : s.cfg.wellFormed = true) (target : Word) :
    s.delayTo target = (timeSub s.cfg target s.nowTime).toNat :=
  (timeSub_toNat (Params.w_le hwf) s.nowTime_lt target).symm

/-- A relative timeout within the maximum is the delay, and a longer one is clamped to the maximum (R131). -/
theorem relativeDelay_eq_some_iff {p : Params} (hwf : p.wellFormed = true) {timeout delay : Word} :
    relativeDelay p timeout = some delay ↔
      p.minTimeout.toNat ≤ timeout.toNat ∧ (timeout.toNat ≤ p.maxTimeout.toNat ∨ p.relClamp = true) ∧
      delay.toNat = min timeout.toNat p.maxTimeout.toNat := by
  obtain ⟨-, -, -, -, -, hbounds, -⟩ := Params.wellFormed_bounds hwf
  rw [relativeDelay, Option.ite_none_right_eq_some, delayInRange_iff, Option.some_inj, ← BitVec.toNat_inj]
  by_cases hle : timeout.toNat ≤ p.maxTimeout.toNat
  · rw [if_neg (by simp [hle])]
    omega
  · cases hclamp : p.relClamp with
    | false => simp [hle]
    | true =>
      rw [if_pos (by simpa using hle)]
      simp only [or_true, true_and]
      omega

/-- The deadline of a relative `START` (R130, R131). -/
theorem startTarget_relative_iff {p : Params} (hwf : p.wellFormed = true) {timeout now target : Word} :
    startTarget p 0 timeout now = some target ↔
      p.minTimeout.toNat ≤ timeout.toNat ∧ (timeout.toNat ≤ p.maxTimeout.toNat ∨ p.relClamp = true) ∧
      target.toNat = (now.toNat + min timeout.toNat p.maxTimeout.toNat) % 2 ^ p.w := by
  have hw := Params.w_le hwf
  rw [startTarget, if_pos (beq_self_eq_true _), Option.map_eq_some_iff]
  simp only [relativeDelay_eq_some_iff hwf]
  constructor
  · rintro ⟨delay, ⟨hmin, hmax, hdelay⟩, rfl⟩
    exact ⟨hmin, hmax, by rw [timeAdd_toNat hw, hdelay]⟩
  · rintro ⟨hmin, hmax, htarget⟩
    have hdelay : (BitVec.ofNat 32 (min timeout.toNat p.maxTimeout.toNat)).toNat =
        min timeout.toNat p.maxTimeout.toNat :=
      Nat.mod_eq_of_lt (lt_of_le_of_lt (Nat.min_le_left _ _) timeout.isLt)
    exact ⟨_, ⟨hmin, hmax, hdelay⟩, BitVec.eq_of_toNat_eq (by rw [timeAdd_toNat hw, hdelay, htarget])⟩

/-- An absolute deadline is the operand itself, when it is a time within the bounds (R132). -/
theorem absoluteTarget_eq_some_iff {p : Params} {hi timeout now target : Word} :
    absoluteTarget p hi timeout now = some target ↔
      timeout.toNat < 2 ^ p.w ∧ target = timeout ∧
      p.minTimeout.toNat ≤ (timeSub p target now).toNat ∧ (timeSub p target now).toNat ≤ hi.toNat := by
  rw [absoluteTarget, Option.ite_none_right_eq_some, Option.ite_none_right_eq_some, delayInRange_iff,
    Option.some_inj]
  constructor
  · rintro ⟨hlt, hrange, rfl⟩
    exact ⟨hlt, rfl, hrange⟩
  · rintro ⟨hlt, rfl, hrange⟩
    exact ⟨hlt, hrange, rfl⟩

/-- Every accepted deadline is `MIN_TIMEOUT` to `MAX_TIMEOUT` ticks ahead (R130 to R132). -/
theorem startTarget_delay {p : Params} (hwf : p.wellFormed = true) {mode : BitVec 4}
    {timeout now target : Word} (h : startTarget p mode timeout now = some target) :
    p.minTimeout.toNat ≤ (timeSub p target now).toNat ∧
      (timeSub p target now).toNat ≤ p.maxTimeout.toNat := by
  obtain ⟨-, hw, -, -, -, hbounds, hmax⟩ := Params.wellFormed_bounds hwf
  have hmod := Params.modulus_eq hwf
  have hpos : 0 < 2 ^ (p.w - 1) := Nat.two_pow_pos _
  unfold startTarget at h
  split at h
  · obtain ⟨delay, hdelay, rfl⟩ := Option.map_eq_some_iff.1 h
    obtain ⟨hmin, -, heq⟩ := (relativeDelay_eq_some_iff hwf).1 hdelay
    have hdist : (timeSub p (timeAdd p now delay) now).toNat = delay.toNat :=
      (timeSub_toNat_eq_iff hw (by omega)).2 (by rw [timeAdd_toNat hw, Nat.mod_mod])
    omega
  · obtain ⟨-, -, hrange⟩ := absoluteTarget_eq_some_iff.1 h
    exact hrange

/-! ### The checks of `START`, in their order (R130, 60_exceptions.md R230) -/

theorem startBody_outside {s : State} {mode : BitVec 4} {id : TimerId} (h : s.cfg.nTimers ≤ id.toNat) :
    startBody mode id s = .done (Reply.only .invalidId) s := if_pos h

/-- The operand check of `START` fails exactly on a `NULL` callback or a mode above 1 (R130, R85). -/
theorem startOperands_refused_iff {s : State} {mode : BitVec 4} :
    (decide (s.operandCb = null) || !modeValid mode) = true ↔
      ¬(s.opCb ≠ null ∧ (mode = 0 ∨ mode = 1)) := by
  rw [Bool.or_eq_true, decide_eq_true_iff, Bool.not_eq_true', modeValid, Bool.or_eq_false_iff,
    beq_eq_false_iff_ne, beq_eq_false_iff_ne, State.operandCb]
  tauto

theorem startBody_badOperands {s : State} {mode : BitVec 4} {id : TimerId} (hid : id.toNat < s.cfg.nTimers)
    (hop : ¬(s.opCb ≠ null ∧ (mode = 0 ∨ mode = 1))) :
    startBody mode id s = .done (Reply.only .invalidParameter) s := by
  rw [startBody, if_neg (Nat.not_le.2 hid), if_pos (startOperands_refused_iff.2 hop)]

section Checked

variable {s : State} {mode : BitVec 4} {id : TimerId} {sl : Slot}
  (hop : s.opCb ≠ null ∧ (mode = 0 ∨ mode = 1)) (hsl : s.slot? id = some sl)
include hop hsl

/-- With the id and the operands in order, the slot's callback is looked at, then the time. -/
theorem startBody_checked : startBody mode id s =
    if sl.callback ≠ null then .done (Reply.only .alreadyRunning) s
    else (startTarget s.cfg mode s.opTimeout s.nowTime).elim (.done (Reply.only .invalidTimeout) s) fun target =>
      (insertRunning id target s.opCb s.opArg s.yield).andThen fun _ t => .done (Reply.only .success) t := by
  rw [startBody, if_neg (Nat.not_le.2 (State.slot?_lt hsl)),
    if_neg (mt startOperands_refused_iff.1 (not_not.2 hop)), State.withSlot, hsl, State.operandTimeout]
  cases startTarget s.cfg mode s.opTimeout s.nowTime <;> rfl

theorem startBody_running (hrunning : sl.callback ≠ null) :
    startBody mode id s = .done (Reply.only .alreadyRunning) s := by
  rw [startBody_checked hop hsl, if_pos hrunning]

theorem startBody_badTimeout (hidle : sl.callback = null)
    (htime : startTarget s.cfg mode s.opTimeout s.nowTime = none) :
    startBody mode id s = .done (Reply.only .invalidTimeout) s := by
  rw [startBody_checked hop hsl, if_neg (not_not.2 hidle), htime, Option.elim_none]

theorem startBody_accepted {target : Word} {t : State} (hidle : sl.callback = null)
    (htime : startTarget s.cfg mode s.opTimeout s.nowTime = some target)
    (hins : insertRunning id target s.opCb s.opArg s.yield = .done () t) :
    startBody mode id s = .done (Reply.only .success) t := by
  rw [startBody_checked hop hsl, if_neg (not_not.2 hidle), htime, Option.elim_some, hins, Proc.andThen_done]

end Checked

/-- Settles O40: each check in its turn, with the time's two failures in each mode. -/
theorem startRejectionsChangeNothing : Obligations.StartRejectionsChangeNothing := by
  intro s mode id hwf hw inRange operandsOk idle lo hi
  have noTime : inRange → operandsOk → idle →
      (∀ target, startTarget s.cfg mode s.opTimeout s.nowTime ≠ some target) →
      exec (.start mode id) s = .next (s.withResults 0x04 0 0 0) := fun hid hop hidle hnone => by
    obtain ⟨sl, hsl⟩ := State.slot?_of_lt hw hid
    exact exec_of_body_unchanged (st := .invalidTimeout) rfl (startBody_badTimeout (s := s.setGie false) hop hsl
      (hidle sl hsl) (Option.eq_none_iff_forall_ne_some.2 hnone))
  refine ⟨fun hid => ?_, fun ⟨hid, hop⟩ => ?_, fun ⟨hid, hop, hbusy⟩ => ?_, ?_, ?_⟩
  · exact exec_of_body_unchanged (st := .invalidId) rfl
      (startBody_outside (s := s.setGie false) (Nat.not_lt.1 hid))
  · exact exec_of_body_unchanged (st := .invalidParameter) rfl
      (startBody_badOperands (s := s.setGie false) hid hop)
  · obtain ⟨sl, hsl, hcb⟩ : ∃ sl, s.slot? id = some sl ∧ sl.callback ≠ 0 := by
      simpa only [idle, not_forall, exists_prop] using hbusy
    exact exec_of_body_unchanged (st := .alreadyRunning) rfl
      (startBody_running (s := s.setGie false) hop hsl hcb)
  · rintro ⟨hid, hop, hidle, rfl, hbad⟩
    refine noTime hid hop hidle fun target htarget => ?_
    obtain ⟨hmin, hmax, -⟩ := (startTarget_relative_iff hwf).1 htarget
    rcases hbad with hlow | ⟨hhigh, hclamp⟩
    · exact absurd hmin (Nat.not_le.2 hlow)
    · rw [hclamp] at hmax
      exact absurd (hmax.resolve_right Bool.false_ne_true) (Nat.not_le.2 hhigh)
  · rintro ⟨hid, hop, hidle, rfl, hbad⟩
    refine noTime hid hop hidle fun target htarget => ?_
    obtain ⟨hlt, rfl, hmin, hmax⟩ := absoluteTarget_eq_some_iff.1 htarget
    rw [← delayTo_eq hwf] at hmin hmax
    omega

/-! ### The environment's invariants inside a command -/

/-- The critical region is entered with `gie = 0` (20_memory.md R66). -/
theorem EnvInv.enterRegion {s : State} (h : EnvInv s) : EnvInv (s.setGie false) :=
  { h with irqContext := fun _ => rfl }

theorem QueueFieldsOnly.keeps_envInv {s t : State} (h : QueueFieldsOnly s t) (hs : EnvInv s) : EnvInv t := by
  unfold QueueFieldsOnly at h
  rw [h]
  exact { hs with }

/-- A procedure that is done and has only made a command's writes keeps the invariants. -/
theorem Proc.Wrote.keeps_envInv {α : Type} {s t : State} {r : Proc α} {a : α} (hw : r.Wrote s)
    (hd : r = .done a t) (hs : EnvInv s) : EnvInv t := by
  subst hd
  exact Writes.keeps_envInv hw hs

/-! ### The compare programmer and reconciliation, as their rules write them -/

/-- The ticks of a `yield` are those drawn for it (20_memory.md R63). -/
theorem yield_ticked {s : State} (hwf : s.cfg.wellFormed = true) (henv : EnvInv s) :
    Ticked (s.draws.headD 0) { s with draws := s.draws.tail } s.yield :=
  ticksAdvanceTheCounterAndLatch _ _ hwf { henv with }

/-- A canonical table's deadlines are `W`-bit times. -/
theorem slot?_absExpiry_lt {s : State} (hw : Memory.wf s.cfg s.slots = true) {id : TimerId} {sl : Slot}
    (h : s.slot? id = some sl) : sl.absExpiry.toNat < 2 ^ s.cfg.w := by
  rw [State.slot?, if_pos (State.slot?_lt h)] at h
  exact ((Memory.wf_iff _ _).1 hw).2 sl (List.mem_of_getElem? h)

/-- `prog_compare` does what 44_compare_programmer.md R175 to R179 say. -/
theorem progCompare_programmed {s t : State} (hwf : s.cfg.wellFormed = true) (henv : EnvInv s)
    (hw : Memory.wf s.cfg s.slots = true) (h : progCompare s = .done () t) : CompareProgrammed s t := by
  by_cases hne : s.runHead = noTimer
  · rw [progCompare_empty hne] at h
    cases h
    rw [CompareProgrammed, if_pos hne]
    rfl
  · rw [progCompare, if_neg hne] at h
    obtain ⟨sl, hsl, hdone⟩ := State.withSlot_eq_done.1 h
    cases hdone
    have hhi : timeHi s.cfg sl.absExpiry = s.sysHigh ↔
        sl.absExpiry.toNat / 2 ^ s.cfg.hw = s.sysHigh.toNat := by
      rw [← BitVec.toNat_inj, timeHi_toNat, Nat.mod_eq_of_lt (slot?_absExpiry_lt hw hsl)]
    have hframe := armCompare_frame s sl.absExpiry
    have hcfg : (s.armCompare sl.absExpiry).cfg = s.cfg := by rw [hframe]
    have hdraws : (s.armCompare sl.absExpiry).draws = s.draws := by rw [hframe]
    have hflag : (s.armCompare sl.absExpiry).expiredFlag = s.expiredFlag := by rw [hframe]
    rw [CompareProgrammed, if_neg hne]
    refine ⟨sl, s.armCompare sl.absExpiry, (s.armCompare sl.absExpiry).yield, hsl,
      fun heq => armCompare_of_eq (hhi.2 heq), fun hdiff => armCompare_of_ne (mt hhi.1 hdiff), ?_, ?_⟩
    · have hticked := yield_ticked (hcfg ▸ hwf) ((Write.arm s sl.absExpiry).keeps_envInv henv)
      rwa [hdraws] at hticked
    · refine congrArg (State.setExpired _) ?_
      rw [State.isDue, State.yield_cfg, State.yield_expiredFlag, hcfg, hflag]

/-- `prog_compare` from well-formed queues is done, and does what its rules say. -/
theorem progCompare_total {s : State} {run exp : List TimerId} (hwf : s.cfg.wellFormed = true)
    (henv : EnvInv s) (hq : QueueWF s run exp) : ∃ t, progCompare s = .done () t ∧ CompareProgrammed s t := by
  obtain ⟨-, -, -, -, hN, -⟩ := Params.wellFormed_bounds hwf
  obtain ⟨t, hd, -, -⟩ := progCompare_kept hq hN rfl rfl
  exact ⟨t, hd, progCompare_programmed hwf henv hq.table hd⟩

/-- `reconcile()` from well-formed queues is done, does what 45_reconcile_dispatch.md R190 says, and leaves
well-formed queues. -/
theorem reconcile_total {s : State} {run exp : List TimerId} (hwf : s.cfg.wellFormed = true)
    (henv : EnvInv s) (hq : QueueWF s run exp) :
    ∃ t, reconcile s = .done () t ∧ ReconciledTo s t run exp ∧ t.cfg = s.cfg ∧ EnvInv t ∧
      QueueWF t (reconciledQueues s.expiredFlag run exp).1 (reconciledQueues s.expiredFlag run exp).2 := by
  obtain ⟨-, -, -, -, hN, -⟩ := Params.wellFormed_bounds hwf
  obtain ⟨t, hd, hqt, hkept⟩ := reconcile_kept hq hN
  refine ⟨t, hd, ?_, hkept.cfg, (reconcile_wrote s).keeps_envInv hd henv, hqt⟩
  rw [ReconciledTo]
  cases hflag : s.expiredFlag with
  | false =>
    rw [reconcile_clear hflag] at hd
    cases hd
    rfl
  | true =>
    have hclear : QueueWF (s.setExpired false) run exp := hq.congr rfl rfl rfl rfl rfl rfl
    obtain ⟨m, hm, hmoved⟩ := moveHead_lists hclear
    obtain ⟨hcfg, -⟩ := hmoved.frame.cfg_fault
    have hprog : progCompare m = .done () t := by
      rwa [reconcile, if_pos hflag, hm, Proc.andThen_done] at hd
    exact ⟨m, hmoved, progCompare_programmed (hcfg ▸ hwf) (hmoved.frame.keeps_envInv { henv with })
      hmoved.queues.table hprog⟩

/-! ### The insertion (42_running_queue.md R150, R151) -/

/-- The insertion places the slot and reprograms exactly for a new head. -/
theorem placeRunning_inserted {s : State} {run exp : List TimerId} {id : TimerId} {target cb arg : Word}
    (hwf : s.cfg.wellFormed = true) (henv : EnvInv s) (hq : QueueWF s run exp)
    (hid : id.toNat < s.cfg.nTimers) (hidle : id ∉ run ++ exp) (hcb : cb ≠ null)
    (ht : target.toNat < 2 ^ s.cfg.w) :
    ∃ c d, placeRunning id target cb arg s = .done () d ∧ InsertedInto s c run exp id target cb arg ∧
      (c.runHead = id → CompareProgrammed c d) ∧ (c.runHead ≠ id → d = c) := by
  obtain ⟨-, -, -, -, hN, -⟩ := Params.wellFormed_bounds hwf
  obtain ⟨c, hins, hplace⟩ := placeRunning_lists (arg := arg) hq hN hid hidle hcb ht
  by_cases hhead : c.runHead = id
  · obtain ⟨d, hd, hprog⟩ := progCompare_total (hins.frame.cfg_fault.1 ▸ hwf) (hins.frame.keeps_envInv henv)
      hins.queues
    exact ⟨c, d, by rw [hplace, if_pos hhead, hd], hins, fun _ => hprog, absurd hhead⟩
  · exact ⟨c, c, by rw [hplace, if_neg hhead], hins, (absurd · hhead), fun _ => rfl⟩

/-- The checks that `StartAccepted` lists are those of the model's `startTarget` (41_slot_table_commands.md
R130 to R132). -/
theorem StartAccepted.mode_and_target {s : State} {mode : BitVec 4} {id : TimerId} {target : Word}
    (h : StartAccepted s mode id target) (hwf : s.cfg.wellFormed = true) :
    (mode = 0 ∨ mode = 1) ∧ startTarget s.cfg mode s.opTimeout s.nowTime = some target := by
  rcases h.time with ⟨rfl, htime⟩ | ⟨rfl, hlt, htarget, hrange⟩
  · exact ⟨.inl rfl, (startTarget_relative_iff hwf).2 htime⟩
  · rw [delayTo_eq hwf] at hrange
    exact ⟨.inr rfl, absoluteTarget_eq_some_iff.2 ⟨hlt, htarget, hrange⟩⟩

/-- Settles O41: the yield, the reconciliation and the insertion, each by its own relation. -/
theorem startInsertsTheTimer : Obligations.StartInsertsTheTimer := by
  intro s run exp mode id target hwf henv hq hacc q
  obtain ⟨hmode, htime⟩ := hacc.mode_and_target hwf
  obtain ⟨sl, hsl⟩ := State.slot?_of_lt hq.table hacc.inRange
  have hidle := hacc.idle sl hsl
  have hout : id ∉ run ++ exp := fun hm => (hq.callbacks id sl hsl).2 hm hidle
  let a := (s.setGie false).yield
  have hcfg : a.cfg = s.cfg := State.yield_cfg _
  have hflag : a.expiredFlag = s.expiredFlag := State.yield_expiredFlag _
  have hqa : QueueWF a run exp := hq.congr hcfg (State.yield_slots _) (State.yield_runHead _)
    (State.yield_expHead _) (State.yield_expTail _) (State.yield_runCount _)
  obtain ⟨b, hrec, hreconciled, hcfgb, henvb, hqb⟩ :=
    reconcile_total (hcfg ▸ hwf) ((Write.yield _).keeps_envInv henv.enterRegion) hqa
  rw [hflag] at hqb
  rw [hcfg] at hcfgb
  obtain ⟨c, d, hplace, hins, hhead, hbehind⟩ := placeRunning_inserted (arg := s.opArg) (hcfgb ▸ hwf) henvb hqb
    (hcfgb ▸ hacc.inRange) (mt (mem_reconciledQueues id).1 hout) hacc.callback (hcfgb ▸ startTarget_lt htime)
  have hinsert : insertRunning id target s.opCb s.opArg a = .done () d := by
    rw [insertRunning, hrec, Proc.andThen_done, hplace]
  exact ⟨a, b, c, d,
    exec_of_body_done (st := .success) rfl
      (startBody_accepted (s := s.setGie false) ⟨hacc.callback, hmode⟩ hsl hidle htime hinsert),
    yield_ticked (s := s.setGie false) hwf henv.enterRegion, hreconciled, hins, hhead, hbehind⟩

/-! ### What an accepted `START` leaves in the slot, from any state -/

/-- The writes of a command's body make no slot come or go. -/
theorem BodyFrame.slot?_some {s t : State} (h : BodyFrame s t) {id : TimerId} {sl : Slot}
    (hsl : s.slot? id = some sl) : ∃ sl', t.slot? id = some sl' := by
  have hcfg := congrArg State.cfg h.frame
  have hid := State.slot?_lt hsl
  rw [State.slot?, if_pos hid] at hsl
  have hlt : id.toNat < t.slots.length := by
    rw [h.length]
    exact (List.getElem?_eq_some_iff.1 hsl).1
  rw [State.slot?, if_pos (by rw [hcfg]; exact hid)]
  exact ⟨_, List.getElem?_eq_getElem hlt⟩

/-- The link before the new slot is a link write, or `run_head`'s. -/
theorem linksOnly_linkRunning (s : State) (prev id : TimerId) : LinksOnly s (s.linkRunning prev id) := by
  unfold State.linkRunning
  split
  · exact LinksOnly.refl s
  · exact linksOnly_setNext s prev id

/-- Whatever the queues, the insertion fills the slot with the deadline and the operands (R150, step 4). -/
theorem placeRunning_fills {s t : State} {id : TimerId} {target cb arg : Word} {sl : Slot}
    (hsl : s.slot? id = some sl) (h : placeRunning id target cb arg s = .done () t) :
    ∃ n, t.slot? id = some ⟨target, cb, arg, n⟩ := by
  obtain ⟨prev, cur, -, hdone⟩ := State.walkFrom_eq_done.1 h
  let u := ((((s.setNext id cur).linkRunning prev id).fillSlot id target cb arg).incRunCount)
  obtain ⟨n, hn⟩ := ((linksOnly_setNext s id cur).trans (linksOnly_linkRunning _ prev id)) id sl hsl
  have hu : u.slot? id = some ⟨target, cb, arg, n⟩ := fillSlot_same _ id target cb arg _ hn
  refine ⟨n, Eq.trans ?_ hu⟩
  dsimp only at hdone
  split at hdone
  · have hframe := (progCompare_done hdone).1
    exact State.slot?_congr (by rw [hframe]) (by rw [hframe]) id
  · cases hdone
    rfl

theorem insertRunning_fills {s t : State} {id : TimerId} {target cb arg : Word} {sl : Slot}
    (hsl : s.slot? id = some sl) (h : insertRunning id target cb arg s = .done () t) :
    ∃ n, t.slot? id = some ⟨target, cb, arg, n⟩ := by
  obtain ⟨_, u, hrec, hplace⟩ := Proc.andThen_eq_done.1 h
  have hwrote := reconcile_wrote s
  rw [hrec] at hwrote
  obtain ⟨sl', hsl'⟩ := (Writes.bodyFrame hwrote).slot?_some hsl
  exact placeRunning_fills hsl' hplace

theorem statusCode_eq_zero_iff {st : Status} : st.code = 0 ↔ st = .success := by cases st <;> decide

/-- A `START` that answers `Success` has passed every check and inserted its timer. -/
theorem startBody_success {s t : State} {mode : BitVec 4} {id : TimerId} {r : Reply}
    (h : startBody mode id s = .done r t) (hr : r.status = .success) :
    ∃ sl target, s.slot? id = some sl ∧ startTarget s.cfg mode s.opTimeout s.nowTime = some target ∧
      insertRunning id target s.opCb s.opArg s.yield = .done () t := by
  have refused : ∀ st, st ≠ .success → Proc.done (Reply.only st) s ≠ .done r t := fun st hst he => by
    cases he
    exact hst hr
  unfold startBody at h
  split at h
  · exact absurd h (refused _ (by decide))
  · split at h
    · exact absurd h (refused _ (by decide))
    · obtain ⟨sl, hsl, hbody⟩ := State.withSlot_eq_done.1 h
      split at hbody
      · exact absurd hbody (refused _ (by decide))
      · split at hbody
        · exact absurd hbody (refused _ (by decide))
        · next target htarget =>
          obtain ⟨_, u, hins, hdone⟩ := Proc.andThen_eq_done.1 hbody
          cases hdone
          exact ⟨sl, target, hsl, htarget, hins⟩

/-- Settles O42: the slot is filled with the accepted deadline, which is a delay within the bounds ahead, and
the bounds are within half the modulus. -/
theorem acceptedDeadlinesAreAhead : Obligations.AcceptedDeadlinesAreAhead := by
  intro s t mode id hwf hexec hstatus hfault
  rcases criticalRegion_cases (body := startBody mode id) hexec with ⟨r, u, hdone, rfl⟩ | hraised
  · obtain ⟨sl, target, hsl, htarget, hins⟩ := startBody_success hdone (statusCode_eq_zero_iff.1 hstatus)
    obtain ⟨n, hn⟩ := insertRunning_fills (by rw [State.slot?_yield]; exact hsl) hins
    obtain ⟨hmin, hmax⟩ := startTarget_delay (p := s.cfg) hwf htarget
    have hahead : isBefore s.cfg s.nowTime target = true := by
      obtain ⟨-, -, -, -, -, -, hhalf⟩ := Params.wellFormed_bounds hwf
      have hpos : 0 < 2 ^ (s.cfg.w - 1) := Nat.two_pow_pos _
      exact isBefore_iff.2 (by
        show (timeSub s.cfg target (s.setGie false).nowTime).toNat < _
        omega)
    refine ⟨⟨target, s.opCb, s.opArg, n⟩, hn, rfl, rfl, hahead, ?_⟩
    rw [delayTo_eq hwf]
    exact ⟨hmin, hmax⟩
  · have hwrote := startBody_wrote mode id (s.setGie false)
    rw [hraised] at hwrote
    exact absurd hfault hwrote.2

/-! ### `STOP` (R133, R135) -/

theorem stopBody_outside {s : State} {id : TimerId} (h : s.cfg.nTimers ≤ id.toNat) :
    stopBody id s = .done (Reply.only .invalidId) s := if_pos h

section Stop

variable {s b u d : State} {id : TimerId} (hid : id.toNat < s.cfg.nTimers) (hrec : reconcile s = .done () b)
include hid hrec

theorem stopBody_notFound (h : removeAny id b = .done .notFound u) :
    stopBody id s = .done (Reply.only .notRunning) u := by
  rw [stopBody, if_neg (Nat.not_le.2 hid), hrec, Proc.andThen_done, h, Proc.andThen_done]

theorem stopBody_removed (h : removeAny id b = .done .removed u) :
    stopBody id s = .done (Reply.only .success) (u.clearCallback id) := by
  rw [stopBody, if_neg (Nat.not_le.2 hid), hrec, Proc.andThen_done, h, Proc.andThen_done]

theorem stopBody_removedHead (h : removeAny id b = .done .removedRunningHead u)
    (hprog : progCompare (u.clearCallback id) = .done () d) :
    stopBody id s = .done (Reply.only .success) d := by
  rw [stopBody, if_neg (Nat.not_le.2 hid), hrec, Proc.andThen_done, h, Proc.andThen_done]
  dsimp only
  rw [hprog, Proc.andThen_done]

end Stop

/-- Settles O44: the id check comes before the reconciliation. -/
theorem stopOfAnIdOutsideTheTable : Obligations.StopOfAnIdOutsideTheTable := by
  intro s id hid
  exact exec_of_body_unchanged (st := .invalidId) rfl (stopBody_outside (s := s.setGie false) hid)

/-- Settles O45: the reconciliation, then what the two removals find on the reconciled queues. -/
theorem stopCancelsTheTimer : Obligations.StopCancelsTheTimer := by
  intro s run exp id hwf henv hq hid q
  have hq' : QueueWF (s.setGie false) run exp := hq.congr rfl rfl rfl rfl rfl rfl
  obtain ⟨b, hrec, hreconciled, hcfg, henvb, hqb⟩ :=
    reconcile_total (s := s.setGie false) hwf henv.enterRegion hq'
  change QueueWF b q.1 q.2 at hqb
  obtain ⟨hout, hin⟩ := removeAny_lists (id := id) hqb
  refine ⟨b, hreconciled, fun hm => ?_, fun hm => ?_⟩
  · exact exec_of_body_done (st := .notRunning) rfl (stopBody_notFound hid hrec (hout hm))
  · obtain ⟨u, hrem, hfrom⟩ := hin hm
    by_cases hhead : q.1.head? = some id
    · rw [if_pos hhead] at hrem
      have hwfc : (u.clearCallback id).cfg.wellFormed = true := by
        rw [hfrom.frame.cfg_fault.1, hcfg]
        exact hwf
      obtain ⟨d, hd, hprog⟩ := progCompare_total hwfc (hfrom.frame.keeps_envInv henvb) hfrom.queues
      exact ⟨_, d, exec_of_body_done (st := .success) rfl (stopBody_removedHead hid hrec hrem hd), hfrom,
        fun _ => hprog, absurd hhead⟩
    · rw [if_neg hhead] at hrem
      exact ⟨_, _, exec_of_body_done (st := .success) rfl (stopBody_removed hid hrec hrem), hfrom,
        (absurd · hhead), fun _ => rfl⟩

end Sys2Proof.Machine
end

section
/-! PROOFS. On an arc shorter than half the modulus the comparator is an order (40_comparator_clock.md R111
(e)), and what a command does to the running queue, slots leaving it and one being inserted, keeps that order
(42_running_queue.md R151, R153; 10_state.md R41 clause 7). -/

namespace Sys2Proof.Machine

/-! ### Times in order on a short arc -/

theorem withinArc.subset {p : Params} {ts us : List Word} (h : withinArc p ts) (hsub : us ⊆ ts) :
    withinArc p us :=
  let ⟨base, harc⟩ := h
  ⟨base, fun t ht => harc t (hsub ht)⟩

/-- On a short arc consecutive times are in order exactly when every two are. -/
theorem sortedTimes_iff_pairwise {p : Params} (hwf : p.wellFormed = true) {ts : List Word}
    (harc : withinArc p ts) :
    sortedTimes p ts = true ↔ ts.Pairwise fun a b => isBefore p a b = true := by
  induction ts with
  | nil => exact iff_of_true rfl .nil
  | cons a ts ih =>
    cases ts with
    | nil => exact iff_of_true rfl (List.pairwise_singleton _ a)
    | cons b ts =>
      have htail := ih (harc.subset (List.subset_cons_self a _))
      have htrans := (comparatorOrdersEveryShortArc.1 p _ hwf harc).2 a (by simp) b (by simp)
      rw [sortedTimes, Bool.and_eq_true, htail, List.pairwise_cons (a := a)]
      refine and_congr_left fun hpair => ⟨fun hab c hc => ?_, fun h => h b List.mem_cons_self⟩
      rcases List.mem_cons.1 hc with rfl | hc'
      · exact hab
      · exact htrans c (List.mem_cons_of_mem _ hc) hab (List.rel_of_pairwise_cons hpair hc')

/-- The insertion of R151 on the times: behind those at or before `x`, up to the first that is not. -/
def insertTime (p : Params) (x : Word) (ts : List Word) : List Word :=
  ts.takeWhile (isBefore p · x) ++ x :: ts.dropWhile (isBefore p · x)

theorem subset_insertTime (p : Params) (x : Word) (ts : List Word) : x :: ts ⊆ insertTime p x ts := by
  intro t ht
  rw [← List.takeWhile_append_dropWhile (p := (isBefore p · x)) (l := ts)] at ht
  simp only [insertTime, List.mem_append, List.mem_cons] at ht ⊢
  tauto

/-- In a queue in order, not only the first time behind the insertion is strictly later: all are. -/
theorem later_of_mem_dropWhile {p : Params} (hwf : p.wellFormed = true) {x t : Word} {ts : List Word}
    (harc : withinArc p (x :: ts)) (hsorted : sortedTimes p ts = true)
    (ht : t ∈ ts.dropWhile (isBefore p · x)) : isBefore p t x = false ∧ isBefore p x t = true := by
  obtain ⟨htotal, htrans⟩ := comparatorOrdersEveryShortArc.1 p _ hwf harc
  have hpair := (sortedTimes_iff_pairwise hwf (harc.subset (List.subset_cons_self x ts))).1 hsorted
  have hmem : ∀ {u}, u ∈ ts.dropWhile (isBefore p · x) → u ∈ x :: ts := fun hu =>
    List.mem_cons_of_mem _ ((List.dropWhile_sublist _).subset hu)
  have hlate : isBefore p t x = false := by
    cases hdrop : ts.dropWhile (isBefore p · x) with
    | nil => rw [hdrop] at ht; cases ht
    | cons a rest =>
      have ha : isBefore p a x = false := by
        have := List.head?_dropWhile_not (isBefore p · x) ts
        rwa [hdrop] at this
      rw [hdrop] at ht hmem
      rcases List.mem_cons.1 ht with rfl | hrest
      · exact ha
      · have hat := List.rel_of_pairwise_cons (hdrop ▸ hpair.sublist (List.dropWhile_sublist _)) hrest
        refine Bool.eq_false_of_not_eq_true fun htx => Bool.false_ne_true (ha.symm.trans ?_)
        exact htrans a (hmem List.mem_cons_self) t (hmem ht) x List.mem_cons_self hat htx
  refine ⟨hlate, (htotal x List.mem_cons_self t (hmem ht)).resolve_right fun h => ?_⟩
  exact Bool.false_ne_true (hlate.symm.trans h)

theorem insertTime_sorted {p : Params} (hwf : p.wellFormed = true) {x : Word} {ts : List Word}
    (harc : withinArc p (insertTime p x ts)) (hsorted : sortedTimes p ts = true) :
    sortedTimes p (insertTime p x ts) = true := by
  have harc' := harc.subset (subset_insertTime p x ts)
  have hpair := (sortedTimes_iff_pairwise hwf (harc'.subset (List.subset_cons_self x ts))).1 hsorted
  rw [← List.takeWhile_append_dropWhile (p := (isBefore p · x)) (l := ts), List.pairwise_append] at hpair
  obtain ⟨hbefore, hafter, hacross⟩ := hpair
  rw [sortedTimes_iff_pairwise hwf harc]
  refine List.pairwise_append.2 ⟨hbefore, List.pairwise_cons.2 ⟨fun t ht => ?_, hafter⟩, fun a ha t ht => ?_⟩
  · exact (later_of_mem_dropWhile hwf harc' hsorted ht).2
  · rcases List.mem_cons.1 ht with rfl | ht
    · exact List.mem_takeWhile_imp (p := (isBefore p · t)) ha
    · exact hacross a ha t ht

/-- On a short arc removals keep the order. -/
theorem sortedTimes_sublist {p : Params} (hwf : p.wellFormed = true) {ts us : List Word}
    (harc : withinArc p ts) (hsorted : sortedTimes p ts = true) (hsub : us.Sublist ts) :
    sortedTimes p us = true :=
  (sortedTimes_iff_pairwise hwf (harc.subset hsub.subset)).2
    (((sortedTimes_iff_pairwise hwf harc).1 hsorted).sublist hsub)

/-- What a command does to the running queue's deadlines: some leave, and at most one is then inserted. -/
inductive TimesChanged (p : Params) (ts : List Word) : List Word → Prop where
  | left {us : List Word} (h : us.Sublist ts) : TimesChanged p ts us
  | inserted {us : List Word} (h : us.Sublist ts) (x : Word) : TimesChanged p ts (insertTime p x us)

/-- Both keep the order on a short arc (R153). -/
theorem TimesChanged.sorted {p : Params} (hwf : p.wellFormed = true) {ts us : List Word}
    (h : TimesChanged p ts us) (hsorted : sortedTimes p ts = true) (harc : withinArc p (ts ++ us)) :
    sortedTimes p us = true := by
  have hbefore := harc.subset (List.subset_append_left ts us)
  have hafter := harc.subset (List.subset_append_right ts us)
  cases h with
  | left h => exact sortedTimes_sublist hwf hbefore hsorted h
  | inserted h x => exact insertTime_sorted hwf hafter (sortedTimes_sublist hwf hbefore hsorted h)

/-! ### The deadlines of the slots -/

theorem deadline_of_slot {s : State} {id : TimerId} {sl : Slot} (h : s.slot? id = some sl) :
    s.deadline id = sl.absExpiry := by rw [State.deadline, h]

theorem deadline_congr {s t : State} (cfg : t.cfg = s.cfg) (slots : t.slots = s.slots) :
    t.deadline = s.deadline := funext fun id => by
  rw [State.deadline, State.deadline, State.slot?_congr cfg slots]

/-- On a list of slots link writes keep the deadlines. -/
theorem LinksOnly.deadline {s t : State} (h : LinksOnly s t) {run exp : List TimerId}
    (hq : QueueWF s run exp) : ∀ j ∈ run, t.deadline j = s.deadline j := fun j hj => by
  obtain ⟨-, sl, hsl⟩ := links_mem hq.runLinks.1 hj
  obtain ⟨n, hn⟩ := h j sl hsl
  rw [deadline_of_slot hn, deadline_of_slot hsl]

/-- A removal writes no deadline, not even that of the removed slot. -/
theorem RemovedFrom.deadline {s t : State} {run exp : List TimerId} {id : TimerId}
    (h : RemovedFrom s t run exp id) (hq : QueueWF s run exp) :
    ∀ j ∈ run, t.deadline j = s.deadline j := fun j hj => by
  obtain ⟨-, sl, hsl⟩ := links_mem hq.runLinks.1 hj
  by_cases hid : j = id
  · subst hid
    rw [deadline_of_slot (h.slot sl hsl), deadline_of_slot hsl]
  · obtain ⟨n, hn⟩ := h.data j sl hid hsl
    rw [deadline_of_slot hn, deadline_of_slot hsl]

theorem progCompare_deadline {s t : State} (h : progCompare s = .done () t) : t.deadline = s.deadline := by
  have hf := (progCompare_done h).1
  exact deadline_congr (by rw [hf]) (by rw [hf])

/-! ### What a procedure has done to the running queue -/

/-- From `s` to `t` slots have left the running queue, and at most one has been inserted. -/
structure RunChanged (s t : State) (run : List TimerId) : Prop where
  cfg : t.cfg = s.cfg
  queues : ∃ run' exp', QueueWF t run' exp' ∧
    TimesChanged s.cfg (run.map s.deadline) (run'.map t.deadline)

theorem RunChanged.of_sublist {s t : State} {run run' exp' : List TimerId} (cfg : t.cfg = s.cfg)
    (hq : QueueWF t run' exp') (hsub : run'.Sublist run) (hd : ∀ j ∈ run', t.deadline j = s.deadline j) :
    RunChanged s t run := by
  refine ⟨cfg, run', exp', hq, .left ?_⟩
  rw [List.map_congr_left hd]
  exact hsub.map s.deadline

theorem RunChanged.refl {s : State} {run exp : List TimerId} (hq : QueueWF s run exp) : RunChanged s s run :=
  .of_sublist rfl hq (List.Sublist.refl run) fun _ _ => rfl

theorem QueuesSame.refl (s : State) : QueuesSame s s := ⟨rfl, rfl, rfl, rfl, rfl, rfl, rfl, rfl, rfl, rfl⟩

/-- Writes that no queue reads may come before and after. -/
theorem RunChanged.between {s s' t' t : State} {run : List TimerId} (hs : QueuesSame s s')
    (h : RunChanged s' t' run) (ht : QueuesSame t' t) : RunChanged s t run := by
  obtain ⟨cfg, run', exp', hq, hchanged⟩ := h
  rw [hs.cfg, deadline_congr hs.cfg hs.slots] at hchanged
  refine ⟨ht.cfg.trans (cfg.trans hs.cfg), run', exp', ht.queueWF hq, ?_⟩
  rwa [deadline_congr ht.cfg ht.slots]

/-- The slots and queue registers as they were: no change. -/
theorem QueuesUntouched.runChanged {s t : State} {run exp : List TimerId} (h : QueuesUntouched s t)
    (cfg : t.cfg = s.cfg) (hq : QueueWF s run exp) : RunChanged s t run := by
  obtain ⟨slots, runHead, expHead, expTail, runCount⟩ := h.queues
  exact .of_sublist cfg (hq.congr cfg slots runHead expHead expTail runCount) (List.Sublist.refl run)
    fun j _ => congrFun (deadline_congr cfg slots) j

/-- The change keeps the queue in order. -/
theorem RunChanged.keeps_order {s t : State} {run : List TimerId} (h : RunChanged s t run)
    (hwf : s.cfg.wellFormed = true) (hsorted : s.sorted run = true) :
    ∃ run' exp' : List TimerId, QueueWF t run' exp' ∧
      (withinArc s.cfg (run.map s.deadline ++ run'.map t.deadline) → t.sorted run' = true) := by
  obtain ⟨cfg, run', exp', hq, hchanged⟩ := h
  refine ⟨run', exp', hq, fun harc => ?_⟩
  rw [State.sorted, cfg]
  exact hchanged.sorted hwf hsorted harc

/-- The compare programmer changes nothing of the queue. -/
theorem RunChanged.programmed {s m : State} {run : List TimerId} (h : RunChanged s m run)
    (hN : s.cfg.nTimers ≤ 255) : ∃ t, progCompare m = .done () t ∧ RunChanged s t run := by
  obtain ⟨cfg, run', exp', hq, hchanged⟩ := h
  obtain ⟨t, hd, hqt, hkept⟩ := progCompare_kept hq (cfg ▸ hN) rfl rfl
  exact ⟨t, hd, hkept.cfg.trans cfg, run', exp', hqt, by rwa [progCompare_deadline hd]⟩

/-- `t` is `s` with `id` in its place on the running queue `run` (42_running_queue.md R151). -/
structure Placed (s t : State) (run : List TimerId) (id : TimerId) : Prop where
  cfg : t.cfg = s.cfg
  queues : ∃ exp', QueueWF t (s.insertedRun run id (t.deadline id)) exp'
  deadlines : ∀ j ∈ run, t.deadline j = s.deadline j

/-- The place depends on the deadlines on the queue only; writes that no queue reads may come after. -/
theorem Placed.between {s s' t' t : State} {run : List TimerId} {id : TimerId} (cfg : s'.cfg = s.cfg)
    (hd : ∀ j ∈ run, s'.deadline j = s.deadline j) (h : Placed s' t' run id) (ht : QueuesSame t' t) :
    Placed s t run id := by
  obtain ⟨cfg', ⟨exp', hq⟩, deadlines⟩ := h
  have hdt := deadline_congr ht.cfg ht.slots
  have hplace : s'.insertedRun run id (t'.deadline id) = s.insertedRun run id (t.deadline id) := by
    obtain ⟨htake, hdrop⟩ := splitWhile_congr (l := run)
      (p := fun j => isBefore s'.cfg (s'.deadline j) (t'.deadline id))
      (q := fun j => isBefore s.cfg (s.deadline j) (t.deadline id)) fun j hj => by rw [cfg, hd j hj, hdt]
    rw [State.insertedRun, State.insertedRun, htake, hdrop]
  exact ⟨ht.cfg.trans (cfg'.trans cfg), ⟨exp', hplace ▸ ht.queueWF hq⟩,
    fun j hj => (congrFun hdt j).trans ((deadlines j hj).trans (hd j hj))⟩

/-- The place among the slots is the place among the deadlines. -/
theorem Placed.runChanged {s t : State} {run run' : List TimerId} {id : TimerId} (h : Placed s t run' id)
    (hsub : run'.Sublist run) : RunChanged s t run := by
  obtain ⟨cfg, ⟨exp', hq⟩, deadlines⟩ := h
  refine ⟨cfg, _, exp', hq, ?_⟩
  have htimes : (s.insertedRun run' id (t.deadline id)).map t.deadline =
      insertTime s.cfg (t.deadline id) (run'.map s.deadline) := by
    rw [State.insertedRun, insertTime, List.takeWhile_map, List.dropWhile_map, List.map_append, List.map_cons]
    congr 1
    · exact List.map_congr_left fun j hj => deadlines j ((List.takeWhile_sublist _).subset hj)
    · congr 1
      exact List.map_congr_left fun j hj => deadlines j ((List.dropWhile_sublist _).subset hj)
  rw [htimes]
  exact .inserted (hsub.map s.deadline) _

/-! ### The procedures -/

theorem reconciledQueues_sublist (flag : Bool) (run exp : List TimerId) :
    (reconciledQueues flag run exp).1.Sublist run := by
  cases flag with
  | false => exact List.Sublist.refl run
  | true => exact List.tail_sublist run

/-- Reconciliation moves the head and writes links only (45_reconcile_dispatch.md R190). -/
theorem reconcile_deadline {s : State} {run exp : List TimerId} (hq : QueueWF s run exp)
    (hN : s.cfg.nTimers ≤ 255) :
    ∃ t, reconcile s = .done () t ∧ t.cfg = s.cfg ∧
      QueueWF t (reconciledQueues s.expiredFlag run exp).1 (reconciledQueues s.expiredFlag run exp).2 ∧
      ∀ j ∈ run, t.deadline j = s.deadline j := by
  obtain ⟨t, hd, hqt, hkept⟩ := reconcile_kept hq hN
  refine ⟨t, hd, hkept.cfg, hqt, ?_⟩
  cases hflag : s.expiredFlag with
  | false =>
    rw [reconcile_clear hflag] at hd
    cases hd
    exact fun _ _ => rfl
  | true =>
    have hclear : QueueWF (s.setExpired false) run exp := hq.congr rfl rfl rfl rfl rfl rfl
    obtain ⟨m, hm, hmoved⟩ := moveHead_lists hclear
    rw [reconcile, if_pos hflag, hm, Proc.andThen_done] at hd
    rw [progCompare_deadline hd]
    exact LinksOnly.deadline hmoved.data hclear

/-- The compare programmer leaves the placed slot in its place. -/
theorem Placed.programmed {s m : State} {run : List TimerId} {id : TimerId} (h : Placed s m run id)
    (hN : s.cfg.nTimers ≤ 255) : ∃ t, progCompare m = .done () t ∧ Placed s t run id := by
  obtain ⟨cfg, ⟨exp', hq⟩, deadlines⟩ := h
  obtain ⟨t, hd, hqt, hkept⟩ := progCompare_kept hq (cfg ▸ hN) rfl rfl
  have hdl := progCompare_deadline hd
  exact ⟨t, hd, hkept.cfg.trans cfg, ⟨exp', by rwa [hdl]⟩, by rwa [hdl]⟩

theorem placeRunning_placed {s : State} {run exp : List TimerId} {id : TimerId} {target cb arg : Word}
    (hq : QueueWF s run exp) (hN : s.cfg.nTimers ≤ 255) (hid : id.toNat < s.cfg.nTimers)
    (hidle : id ∉ run ++ exp) (hcb : cb ≠ null) (ht : target.toNat < 2 ^ s.cfg.w) :
    ∃ t, placeRunning id target cb arg s = .done () t ∧ Placed s t run id := by
  obtain ⟨m, hins, hplace⟩ := placeRunning_lists (arg := arg) hq hN hid hidle hcb ht
  have hplaced : Placed s m run id := by
    obtain ⟨hcfg, -⟩ := hins.frame.cfg_fault
    obtain ⟨n, hn⟩ := hins.slot
    refine ⟨hcfg, ⟨exp, (deadline_of_slot hn).symm ▸ hins.queues⟩, fun j hj => ?_⟩
    obtain ⟨-, sl, hsl⟩ := links_mem hq.runLinks.1 hj
    obtain ⟨n, hn⟩ := hins.data j sl (fun e => hidle (List.mem_append_left _ (e ▸ hj))) hsl
    rw [deadline_of_slot hn, deadline_of_slot hsl]
  by_cases hhead : m.runHead = id
  · rw [hplace, if_pos hhead]
    exact hplaced.programmed hN
  · exact ⟨m, by rw [hplace, if_neg hhead], hplaced⟩

/-- The slot is placed on the reconciled queue (R150, step 1). -/
theorem insertRunning_placed {s : State} {run exp : List TimerId} {id : TimerId} {target cb arg : Word}
    (hq : QueueWF s run exp) (hN : s.cfg.nTimers ≤ 255) (hid : id.toNat < s.cfg.nTimers)
    (hidle : id ∉ run ++ exp) (hcb : cb ≠ null) (ht : target.toNat < 2 ^ s.cfg.w) :
    ∃ t, insertRunning id target cb arg s = .done () t ∧
      Placed s t (reconciledQueues s.expiredFlag run exp).1 id := by
  obtain ⟨b, hrec, hcfg, hqb, hdl⟩ := reconcile_deadline hq hN
  obtain ⟨t, hd, hplaced⟩ := placeRunning_placed (arg := arg) hqb (hcfg ▸ hN) (hcfg ▸ hid)
    (mt (mem_reconciledQueues id).1 hidle) hcb (hcfg ▸ ht)
  have hsub := (reconciledQueues_sublist s.expiredFlag run exp).subset
  exact ⟨t, by rw [insertRunning, hrec, Proc.andThen_done, hd],
    hplaced.between hcfg (fun j hj => hdl j (hsub hj)) (.refl t)⟩

/-- How the body of `START` ends: refused by a check, with nothing written, or with its slot placed on the
running queue `run` (41_slot_table_commands.md R130). -/
inductive StartEnd (s : State) (run : List TimerId) (id : TimerId) : Proc Reply → Prop where
  | refused {st : Status} (h : st ≠ .success) : StartEnd s run id (.done (Reply.only st) s)
  | placed {t : State} (h : Placed s t run id) : StartEnd s run id (.done (Reply.only .success) t)

/-- From well-formed queues `START` ends in one of these ways, on the reconciled queue. -/
theorem startBody_end {s : State} {run exp : List TimerId} (mode : BitVec 4) (id : TimerId)
    (hq : QueueWF s run exp) (hN : s.cfg.nTimers ≤ 255) :
    StartEnd s (reconciledQueues s.expiredFlag run exp).1 id (startBody mode id s) := by
  by_cases hid : id.toNat < s.cfg.nTimers
  · obtain ⟨sl, hsl⟩ := State.slot?_of_lt hq.table hid
    by_cases hop : s.opCb ≠ null ∧ (mode = 0 ∨ mode = 1)
    · by_cases hidle : sl.callback = null
      · cases htime : startTarget s.cfg mode s.opTimeout s.nowTime with
        | none =>
          rw [startBody_badTimeout hop hsl hidle htime]
          exact .refused (by decide)
        | some target =>
          have hy : QueuesSame s s.yield := by constructor <;> simp
          have hout : id ∉ run ++ exp := fun hm => (hq.callbacks id sl hsl).2 hm hidle
          obtain ⟨t, hd, hplaced⟩ := insertRunning_placed (arg := s.opArg) (hy.queueWF hq) (hy.cfg ▸ hN)
            (hy.cfg ▸ hid) hout hop.1 (hy.cfg ▸ startTarget_lt htime)
          rw [State.yield_expiredFlag] at hplaced
          rw [startBody_accepted hop hsl hidle htime hd]
          have hdl := deadline_congr hy.cfg hy.slots
          exact .placed (hplaced.between hy.cfg (fun j _ => congrFun hdl j) (.refl t))
      · rw [startBody_running hop hsl hidle]
        exact .refused (by decide)
    · rw [startBody_badOperands hid hop]
      exact .refused (by decide)
  · rw [startBody_outside (Nat.not_lt.1 hid)]
    exact .refused (by decide)

/-! ### The commands' bodies -/

/-- A body that is done, with the running queue changed at most by slots leaving and one being inserted. -/
def Proc.Changed {α : Type} (s : State) (run : List TimerId) (r : Proc α) : Prop :=
  ∃ a t, r = .done a t ∧ RunChanged s t run

section FromWellFormedQueues

variable {s : State} {run exp : List TimerId} (hq : QueueWF s run exp) (hN : s.cfg.nTimers ≤ 255)
include hq hN

theorem startBody_changed (mode : BitVec 4) (id : TimerId) : (startBody mode id s).Changed s run := by
  have hend := startBody_end mode id hq hN
  generalize startBody mode id s = r at hend ⊢
  cases hend with
  | refused => exact ⟨_, s, rfl, .refl hq⟩
  | placed h => exact ⟨_, _, rfl, h.runChanged (reconciledQueues_sublist _ run exp)⟩

/-- `STOP` takes at most the head, by reconciliation, and the named slot off the queue (R152). -/
theorem stopBody_changed (id : TimerId) : (stopBody id s).Changed s run := by
  by_cases hid : id.toNat < s.cfg.nTimers
  · obtain ⟨b, hrec, hcfg, hqb, hdl⟩ := reconcile_deadline hq hN
    have hsub := reconciledQueues_sublist s.expiredFlag run exp
    generalize (reconciledQueues s.expiredFlag run exp).1 = run' at hqb hsub
    generalize (reconciledQueues s.expiredFlag run exp).2 = exp' at hqb
    obtain ⟨hout, hin⟩ := removeAny_lists (id := id) hqb
    by_cases hm : id ∈ run' ++ exp'
    · obtain ⟨u, hrem, hfrom⟩ := hin hm
      have hremoved : RunChanged s (u.clearCallback id) run :=
        .of_sublist (hfrom.frame.cfg_fault.1.trans hcfg) hfrom.queues (List.erase_sublist.trans hsub)
          fun j hj =>
            have hj' := List.mem_of_mem_erase hj
            (hfrom.deadline hqb j hj').trans (hdl j (hsub.subset hj'))
      by_cases hhead : run'.head? = some id
      · rw [if_pos hhead] at hrem
        obtain ⟨d, hd, hchanged⟩ := hremoved.programmed hN
        exact ⟨_, d, stopBody_removedHead hid hrec hrem hd, hchanged⟩
      · rw [if_neg hhead] at hrem
        exact ⟨_, _, stopBody_removed hid hrec hrem, hremoved⟩
    · exact ⟨_, b, stopBody_notFound hid hrec (hout hm),
        .of_sublist hcfg hqb hsub fun j hj => hdl j (hsub.subset hj)⟩
  · exact ⟨_, s, stopBody_outside (Nat.not_lt.1 hid), .refl hq⟩

theorem reconcileBody_changed : (commandBody .reconcile s).Changed s run := by
  obtain ⟨t, hrec, hcfg, hqt, hdl⟩ := reconcile_deadline hq hN
  have hsub := reconciledQueues_sublist s.expiredFlag run exp
  exact ⟨_, t, by rw [commandBody, hrec, Proc.andThen_done],
    .of_sublist hcfg hqt hsub fun j hj => hdl j (hsub.subset hj)⟩

omit hN in
/-- `POP_EXPIRED` takes no slot off the running queue (43_expired_queue.md R166). -/
theorem popExpired_changed : (popExpired s).Changed s run := by
  cases exp with
  | nil =>
    have hempty : s.expHead = noTimer := hq.expLinks.1
    exact ⟨_, s, if_pos hempty, .refl hq⟩
  | cons h exp =>
    obtain ⟨r, t, hd, hremoved⟩ := popExpired_removes hq
    exact ⟨r, t, hd, .of_sublist hremoved.frame.cfg_fault.1 hremoved.queues List.erase_sublist
      fun j hj => hremoved.deadline hq j (List.mem_of_mem_erase hj)⟩

/-! ### Commands and steps -/

theorem commandBody_changed {i : Instr} (hi : QueueCommand i) : (commandBody i s).Changed s run := by
  rcases hi with ⟨mode, id, rfl⟩ | ⟨id, rfl⟩ | rfl | rfl
  · exact startBody_changed hq hN mode id
  · exact stopBody_changed hq hN id
  · exact reconcileBody_changed hq hN
  · exact popExpired_changed hq

theorem exec_changed {i : Instr} {t : State} (h : exec i s = .next t) : RunChanged s t run := by
  by_cases hi : QueueCommand i
  · rcases exec_cases h with rfl | ⟨-, h⟩
    · exact (RunChanged.refl hq).between (.refl s) (by constructor <;> simp)
    · have henter : QueuesSame s (s.setGie false) := by constructor <;> simp
      obtain ⟨r, u, hd, hchanged⟩ := commandBody_changed (henter.queueWF hq) hN hi
      rw [criticalRegion, hd] at h
      cases h
      exact hchanged.between henter (by constructor <;> simp)
  · exact (exec_queuesUntouched h hi).runChanged (exec_kept ⟨run, exp, hq⟩ hN h).cfg hq

/-- An agent's step leaves the queues alone, or is a command. -/
theorem AgentStep.changed {t : State} (h : AgentStep s t) : RunChanged s t run := by
  have cfg : t.cfg = s.cfg := by
    rcases h.kept ⟨run, exp, hq⟩ hN with hk | hfatal
    · exact hk.cfg
    · exact hfatal.same.cfg
  cases h with
  | quiet h => exact h.queuesUntouched.runChanged cfg hq
  | tick u h ht | setGie u v h ctx ht | iret u h ctx ht | illegal u h ht =>
    rw [ht]
    exact (RunChanged.refl hq).between (.refl s) (h.queuesSame.1.trans (by constructor <;> simp))
  | interrupt u src h _ ht =>
    exact (h.queuesUntouched.trans (takeInterrupt_end ht).queuesUntouched).runChanged cfg hq
  | command u w rest i h _ _ _ ht =>
    have hside := h.queuesSame.1
    exact (exec_changed (hside.queueWF hq) (hside.cfg ▸ hN) ht).between hside (.refl t)

/-- A `START` that answers `Success` has placed its slot on the reconciled queue. -/
theorem exec_start_placed {mode : BitVec 4} {id : TimerId} {t : State} (h : exec (.start mode id) s = .next t)
    (hstatus : t.status = 0) : Placed s t (reconciledQueues s.expiredFlag run exp).1 id := by
  have henter : QueuesSame s (s.setGie false) := by constructor <;> simp
  have hend := startBody_end mode id (henter.queueWF hq) hN
  change criticalRegion (startBody mode id) s = _ at h
  rw [criticalRegion] at h
  generalize startBody mode id (s.setGie false) = r at h hend
  cases hend with
  | refused hst =>
    cases h
    exact absurd (statusCode_eq_zero_iff.1 hstatus) hst
  | placed hplaced =>
    cases h
    rw [State.setGie_expiredFlag] at hplaced
    exact hplaced.between henter.cfg (fun _ _ => rfl) (by constructor <;> simp)

end FromWellFormedQueues

/-- A step keeps the queue's order: the reset line leaves it empty. -/
theorem step_keeps_order {s t : State} {run exp : List TimerId} (hq : QueueWF s run exp)
    (hsorted : s.sorted run = true) (h : step s = .next t) :
    ∃ run' exp' : List TimerId, QueueWF t run' exp' ∧
      (withinArc s.cfg (run.map s.deadline ++ run'.map t.deadline) → t.sorted run' = true) := by
  obtain ⟨hwf, ⟨program, -, rfl⟩ | ⟨-, hstep⟩⟩ := step_cases h
  · exact ⟨[], [], (resetFor_queueWF s.cfg).congr rfl rfl rfl rfl rfl rfl, fun _ => rfl⟩
  · obtain ⟨-, -, -, -, hN, -⟩ := Params.wellFormed_bounds hwf
    exact (hstep.changed hq hN).keeps_order hwf hsorted

/-- In a queue in order a placed slot has every slot at or before its deadline in front of it and every
strictly later one behind (R151). -/
theorem Placed.in_order {s t : State} {run : List TimerId} {id : TimerId} (h : Placed s t run id)
    (hwf : s.cfg.wellFormed = true) (hsorted : s.sorted run = true)
    (harc : withinArc s.cfg (t.deadline id :: run.map s.deadline)) :
    ∃ before after exp' : List TimerId, QueueWF t (before ++ id :: after) exp' ∧ before ++ after = run ∧
      (∀ j ∈ before, isBefore s.cfg (t.deadline j) (t.deadline id) = true) ∧
      (∀ j ∈ after, isBefore s.cfg (t.deadline j) (t.deadline id) = false ∧
        isBefore s.cfg (t.deadline id) (t.deadline j) = true) := by
  obtain ⟨-, ⟨exp', hq⟩, deadlines⟩ := h
  refine ⟨_, _, exp', hq, List.takeWhile_append_dropWhile, fun j hj => ?_, fun j hj => ?_⟩
  · rw [deadlines j ((List.takeWhile_sublist _).subset hj)]
    exact List.mem_takeWhile_imp (p := fun j => isBefore s.cfg (s.deadline j) (t.deadline id)) hj
  · rw [deadlines j ((List.dropWhile_sublist _).subset hj)]
    refine later_of_mem_dropWhile hwf harc hsorted ?_
    rw [List.dropWhile_map]
    exact List.mem_map_of_mem hj

/-- Settles O43: every step and every command only lets slots leave the running queue and inserts at most one
behind those at or before it, and on a short arc both keep the order. -/
theorem queueOrderIsKept : Obligations.QueueOrderIsKept := by
  intro s t run exp hq hsorted kept
  have hN : s.cfg.wellFormed = true → s.cfg.nTimers ≤ 255 := fun hwf =>
    let ⟨_, _, _, _, hN, _⟩ := Params.wellFormed_bounds hwf
    hN
  refine ⟨step_keeps_order hq hsorted, fun i hwf h => ?_, fun mode id hwf h hstatus harc => ?_⟩
  · exact (exec_changed hq (hN hwf) h).keeps_order hwf hsorted
  · have hplaced := exec_start_placed hq (hN hwf) h hstatus
    have hsub := (reconciledQueues_sublist s.expiredFlag run exp).map s.deadline
    have hreconciled : s.sorted (reconciledQueues s.expiredFlag run exp).1 = true :=
      sortedTimes_sublist hwf (harc.subset (List.subset_cons_self _ _)) hsorted hsub
    exact hplaced.in_order hwf hreconciled (harc.subset (List.cons_subset_cons _ hsub.subset))

end Sys2Proof.Machine
end

section
/-! PROOFS. `POP_EXPIRED` (43_expired_queue.md R166, R168): the empty answer, and the head with its callback
and argument. -/

namespace Sys2Proof.Machine

/-- A body that is done with any reply: `gie` is restored and the reply is written (20_memory.md R66). -/
theorem exec_of_body_reply {i : Instr} {s u : State} {r : Reply} (hlegal : s.answersIllegal i = false)
    (h : commandBody i (s.setGie false) = .done r u) : exec i s = .next ((u.setGie s.gie).writeReply r) := by
  rw [exec_eq, hlegal, if_neg Bool.false_ne_true, criticalRegion, h]

/-- In main-line context `POP_EXPIRED` has its meaning (60_exceptions.md R248). -/
theorem popExpired_legal {s : State} (h : s.ctx = .main) : s.answersIllegal .popExpired = false :=
  beq_eq_false_iff_ne.2 fun hirq => nomatch h.symm.trans hirq

/-- `RES0` of a pop with an entry: bit 0 valid, bits 15:8 the TimerId (30_encoding.md R83). -/
theorem popWord_valid (id : TimerId) : popWord true id = BitVec.ofNat 32 (id.toNat * 2 ^ 8 + 1) := by
  have hid := id.isLt
  apply BitVec.eq_of_toNat_eq
  calc (popWord true id).toNat
      = (0#16 ++ id).toNat <<< 8 ||| 1 := BitVec.toNat_append _ _
    _ = id.toNat <<< 8 ||| 1 := by rw [BitVec.toNat_append, BitVec.toNat_zero, Nat.zero_shiftLeft, Nat.zero_or]
    _ = id.toNat * 2 ^ 8 + 1 := by rw [← Nat.shiftLeft_add_eq_or_of_lt (by decide), Nat.shiftLeft_eq]
    _ = (BitVec.ofNat 32 (id.toNat * 2 ^ 8 + 1)).toNat := by
      rw [BitVec.toNat_ofNat, Nat.mod_eq_of_lt (by omega)]

/-- A pop that is done answers the head's entry, and writes only the slots and the expired queue's ends. -/
theorem popExpired_answer {s t : State} {r : Reply} {h : TimerId} {sl : Slot} (hhead : s.expHead = h)
    (hne : h ≠ noTimer) (hsl : s.slot? h = some sl) (hd : popExpired s = .done r t) :
    r = ⟨.success, popWord true h, sl.callback, sl.callbackArg⟩ ∧
      t = { s with slots := t.slots, expHead := t.expHead, expTail := t.expTail } := by
  rw [popExpired, hhead, if_neg hne, State.withSlot, hsl] at hd
  dsimp only at hd
  split at hd
  · cases hd
  · cases hd
    exact ⟨rfl, rfl⟩

/-- The expired queue's head has no predecessor, so its removal writes no other slot. -/
theorem RemovedFrom.head_others {s t : State} {run exp : List TimerId} {h : TimerId}
    (hrem : RemovedFrom s t run (h :: exp) h) (hrun : h ∉ run) (j : TimerId) (hj : j ≠ h) :
    t.slot? j = s.slot? j := by
  refine hrem.others j hj ?_
  rw [if_neg hrun, List.takeWhile_cons_of_neg (by simp)]
  exact nofun

/-- Settles O48: the body is done at once, with the entry `NO_TIMER` marked invalid. -/
theorem popOnAnEmptyQueue : Obligations.PopOnAnEmptyQueue := by
  intro s hmain hempty
  have hdone : popExpired (s.setGie false) = .done ⟨.success, popWord false noTimer, 0, 0⟩ (s.setGie false) :=
    if_pos hempty
  exact exec_of_body_reply (popExpired_legal hmain) hdone

/-- Settles O47: the pop is a removal of the head, which has no predecessor, and answers its entry. -/
theorem popTakesTheExpiredHead : Obligations.PopTakesTheExpiredHead := by
  intro s run exp h sl _ hq hmain hsl
  have hin : QueueWF (s.setGie false) run (h :: exp) := hq.congr rfl rfl rfl rfl rfl rfl
  have hrun : h ∉ run := fun hm => (List.nodup_append.1 hq.disjoint).2.2 h hm h List.mem_cons_self rfl
  obtain ⟨hhead, hne, -⟩ := hin.expLinks.1
  obtain ⟨r, u, hd, hrem⟩ := popExpired_removes hin
  obtain ⟨rfl, hframe⟩ := popExpired_answer hhead hne hsl hd
  refine ⟨_, exec_of_body_reply (popExpired_legal hmain) hd, ?_, ?_, hrem.slot sl hsl,
    hrem.head_others hrun⟩
  · rw [← popWord_valid]
    exact congrArg (fun v => (v.setGie s.gie).writeReply
      ⟨.success, popWord true h, sl.callback, sl.callbackArg⟩) hframe
  · have hqueues := hrem.queues
    rw [List.erase_of_not_mem hrun, List.erase_cons_head] at hqueues
    exact hqueues.congr rfl rfl rfl rfl rfl rfl

end Sys2Proof.Machine
end

section
/-! PROOFS. `RECONCILE` in main-line context (45_reconcile_dispatch.md R191): `reconcile()` in a critical
region, and what R190 says of it with `expired_flag` clear and with it set. -/

namespace Sys2Proof.Machine

/-- In main-line context `RECONCILE` has its meaning (60_exceptions.md R248). -/
theorem reconcile_legal {s : State} (h : s.ctx = .main) : s.answersIllegal .reconcile = false :=
  beq_eq_false_iff_ne.2 fun hirq => nomatch h.symm.trans hirq

/-- The command's body answers `Success` once `reconcile()` is done (R191). -/
theorem reconcileBody_done {s t : State} (h : reconcile s = .done () t) :
    commandBody .reconcile s = .done (Reply.only .success) t := by
  rw [commandBody, h, Proc.andThen_done]

/-- With `expired_flag` set, `reconcile()` moves the head and runs the compare programmer (R190). -/
theorem ReconciledTo.of_flagged {s t : State} {run exp : List TimerId} (h : ReconciledTo s t run exp)
    (hflag : s.expiredFlag = true) :
    ∃ m, HeadMoved { s with expiredFlag := false } m run exp ∧ CompareProgrammed m t := by
  rwa [ReconciledTo, if_pos hflag] at h

/-- Settles O46: with the flag clear the body is done where it begins; with it set it is done where the
reconciliation of R190 ends. -/
theorem reconcileMovesAtMostTheHead : Obligations.ReconcileMovesAtMostTheHead := by
  intro s run exp hwf henv hq hmain
  refine ⟨fun hclear => ?_, fun hset => ?_⟩
  · have hdone : reconcile (s.setGie false) = .done () (s.setGie false) := reconcile_clear hclear
    exact exec_of_body_unchanged (st := .success) (reconcile_legal hmain) (reconcileBody_done hdone)
  · have hin : QueueWF (s.setGie false) run exp := hq.congr rfl rfl rfl rfl rfl rfl
    obtain ⟨d, hd, hreconciled, -⟩ := reconcile_total (s := s.setGie false) hwf henv.enterRegion hin
    obtain ⟨m, hmoved, hprog⟩ := hreconciled.of_flagged hset
    exact ⟨m, d, exec_of_body_done (st := .success) (reconcile_legal hmain) (reconcileBody_done hd), hmoved,
      hprog⟩

end Sys2Proof.Machine
end

section
/-! PROOFS. The high-priority timer (46_high_priority.md R205 to R207): the checks of `HP_START` in their
order, what an accepted one arms, the two other commands, and how many ticks later the match comes. -/

namespace Sys2Proof.Machine

/-! ### `HP_STOP` and `HP_IS_RUNNING` (R206, R207) -/

/-- With the timer present the three `HP_` commands have their meaning (30_encoding.md R89). -/
theorem hp_legal {s : State} (hp : s.cfg.hpPresent = true) {i : Instr} (hi : i.needsHp = true) :
    s.answersIllegal i = false := by
  cases i with
  | hpStart | hpStop | hpIsRunning => rw [State.answersIllegal, hp, Bool.not_true]
  | start | stop | isRunning | reconcile | popExpired | now => exact nomatch hi

/-- Settles O50: each command looks at `hp_cb` and nothing else. -/
theorem hpStopAndHpIsRunning : Obligations.HpStopAndHpIsRunning := by
  intro s hp
  have running : exec .hpIsRunning s = .next (s.writeReply (Reply.bool (s.hpCb != null))) :=
    exec_of_body_reply (u := s.setGie false) (hp_legal hp rfl) rfl
  refine ⟨fun hset => ⟨?_, ?_⟩, fun hclear => ⟨?_, ?_⟩⟩
  · have hdone : hpStopBody (s.setGie false) = .done (Reply.only .success) (s.setGie false).hpClear := if_neg hset
    exact exec_of_body_done (u := (s.setGie false).hpClear) (st := .success) (hp_legal hp rfl) hdone
  · rw [running, bne_iff_ne.2 hset]
    rfl
  · have hdone : hpStopBody (s.setGie false) = .done (Reply.only .notRunning) (s.setGie false) := if_pos hclear
    exact exec_of_body_unchanged (st := .notRunning) (hp_legal hp rfl) hdone
  · rw [running, bne_eq_false_iff_eq.2 hclear]
    rfl

/-! ### The deadline of `HP_START` (R205) -/

/-- A relative timeout within the timer's own bounds is the delay; it is never clamped. -/
theorem hpTarget_relative_iff {p : Params} {timeout now target : Word} :
    hpTarget p 0 timeout now = some target ↔
      p.minTimeout.toNat ≤ timeout.toNat ∧ timeout.toNat ≤ p.hpMaxTimeout.toNat ∧
      target = timeAdd p now timeout := by
  rw [hpTarget, if_pos (beq_self_eq_true _), Option.ite_none_right_eq_some, delayInRange_iff, Option.some_inj,
    and_assoc, @eq_comm _ target]

/-- In every mode but the relative one the operand is an absolute time. -/
theorem hpTarget_absolute {p : Params} {mode : BitVec 4} (hmode : mode ≠ 0) (timeout now : Word) :
    hpTarget p mode timeout now = absoluteTarget p p.hpMaxTimeout timeout now :=
  if_neg (mt beq_iff_eq.1 hmode)

/-- An accepted deadline is at most `HP_MAX_TIMEOUT` ticks ahead, so less than a turn of the counter. -/
theorem hpTarget_delay_lt {p : Params} (hwf : p.wellFormed = true) {mode : BitVec 4}
    {timeout now target : Word} (h : hpTarget p mode timeout now = some target) :
    (timeSub p target now).toNat < 2 ^ p.hw := by
  obtain ⟨-, hw, -, hhw, -⟩ := Params.wellFormed_bounds hwf
  obtain ⟨-, -, hmax⟩ := Params.wellFormed_hpBounds hwf
  have hturn : 0 < 2 ^ p.hw := Nat.two_pow_pos _
  by_cases hmode : mode = 0
  · subst hmode
    obtain ⟨-, hle, rfl⟩ := hpTarget_relative_iff.1 h
    have hfits : 2 ^ p.hw ≤ 2 ^ p.w := Nat.pow_le_pow_right two_pos hhw
    have hdist : (timeSub p (timeAdd p now timeout) now).toNat = timeout.toNat :=
      (timeSub_toNat_eq_iff hw (by omega)).2 (by rw [timeAdd_toNat hw, Nat.mod_mod])
    omega
  · rw [hpTarget_absolute hmode] at h
    obtain ⟨-, -, -, hle⟩ := absoluteTarget_eq_some_iff.1 h
    omega

/-! ### The answers of `HP_START`, in the order of its checks (R205, 60_exceptions.md R230) -/

section Answers

variable {s : State} {mode : BitVec 4}

/-- With the operands in order, the outstanding timer is looked at, then the time. -/
theorem hpStartBody_checked (hop : s.opCb ≠ null ∧ (mode = 0 ∨ mode = 1)) : hpStartBody mode s =
    if s.hpCb ≠ null then .done (Reply.only .alreadyRunning) s
    else (hpTarget s.cfg mode s.opTimeout s.nowTime).elim (.done (Reply.only .invalidTimeout) s) fun target =>
      .done (Reply.only .success) (s.hpArm target) := by
  rw [hpStartBody, if_neg (mt startOperands_refused_iff.1 (not_not.2 hop)), State.operandTimeout]
  cases hpTarget s.cfg mode s.opTimeout s.nowTime <;> rfl

variable (hp : s.cfg.hpPresent = true)
include hp

theorem exec_hpStart_badOperands (hop : ¬(s.opCb ≠ null ∧ (mode = 0 ∨ mode = 1))) :
    exec (.hpStart mode) s = .next (s.withResults 0x02 0 0 0) := by
  have hdone : hpStartBody mode (s.setGie false) = .done (Reply.only .invalidParameter) (s.setGie false) :=
    if_pos (startOperands_refused_iff.2 hop)
  exact exec_of_body_unchanged (st := .invalidParameter) (hp_legal hp rfl) hdone

variable (hop : s.opCb ≠ null ∧ (mode = 0 ∨ mode = 1))
include hop

theorem exec_hpStart_running (hbusy : s.hpCb ≠ null) :
    exec (.hpStart mode) s = .next (s.withResults 0x03 0 0 0) :=
  exec_of_body_unchanged (st := .alreadyRunning) (hp_legal hp rfl)
    ((hpStartBody_checked (s := s.setGie false) hop).trans (if_pos hbusy))

variable (hidle : s.hpCb = null)
include hidle

theorem exec_hpStart_badTimeout (htime : hpTarget s.cfg mode s.opTimeout s.nowTime = none) :
    exec (.hpStart mode) s = .next (s.withResults 0x04 0 0 0) := by
  have hin : hpTarget s.cfg mode s.opTimeout (s.setGie false).nowTime = none := htime
  refine exec_of_body_unchanged (st := .invalidTimeout) (hp_legal hp rfl) ?_
  exact (hpStartBody_checked (s := s.setGie false) hop).trans
    ((if_neg (not_not.2 hidle)).trans (congrArg (Option.elim · _ _) hin))

theorem exec_hpStart_accepted {target : Word} (htime : hpTarget s.cfg mode s.opTimeout s.nowTime = some target) :
    exec (.hpStart mode) s = .next ((s.hpArm target).withResults 0 0 0 0) := by
  have hin : hpTarget s.cfg mode s.opTimeout (s.setGie false).nowTime = some target := htime
  refine exec_of_body_done (u := (s.setGie false).hpArm target) (st := .success) (hp_legal hp rfl) ?_
  exact (hpStartBody_checked (s := s.setGie false) hop).trans
    ((if_neg (not_not.2 hidle)).trans (congrArg (Option.elim · _ _) hin))

end Answers

/-- What arming writes, with the deadline and its low part as numbers. -/
theorem hpArm_eq {s : State} {target : Word} {n : Nat} (h : target.toNat = n) :
    s.hpArm target = { s with
      hpCb := s.opCb, hpArg := s.opArg, hpExpiry := BitVec.ofNat 32 n
      ocrHp := BitVec.ofNat 32 (n % 2 ^ s.cfg.hw), hpIf := false, hpIe := true } := by
  subst h
  rw [BitVec.ofNat_toNat, BitVec.setWidth_eq]
  rfl

/-- Settles O49: each check in its turn, with the time's two failures and its two successes. -/
theorem hpStartArmsTheTimer : Obligations.HpStartArmsTheTimer := by
  intro s mode hwf hp lo hi operandsOk armed
  have hw := Params.w_le hwf
  have noTime : operandsOk → s.hpCb = 0 →
      (∀ target, hpTarget s.cfg mode s.opTimeout s.nowTime ≠ some target) →
      exec (.hpStart mode) s = .next (s.withResults 0x04 0 0 0) := fun hop hidle hnone =>
    exec_hpStart_badTimeout hp hop hidle (Option.eq_none_iff_forall_ne_some.2 hnone)
  have accepted : ∀ {target : Word} {n : Nat}, operandsOk → s.hpCb = 0 →
      hpTarget s.cfg mode s.opTimeout s.nowTime = some target → target.toNat = n →
      exec (.hpStart mode) s = .next ((armed n).withResults 0 0 0 0) := fun hop hidle htime hn => by
    rw [exec_hpStart_accepted hp hop hidle htime, hpArm_eq hn]
  refine ⟨exec_hpStart_badOperands hp, fun ⟨hop, hbusy⟩ => exec_hpStart_running hp hop hbusy, ?_, ?_, ?_, ?_⟩
  · rintro ⟨hop, hidle, rfl, hbad⟩
    refine noTime hop hidle fun target htarget => ?_
    obtain ⟨hmin, hmax, -⟩ := hpTarget_relative_iff.1 htarget
    omega
  · rintro ⟨hop, hidle, rfl, hbad⟩
    refine noTime hop hidle fun target htarget => ?_
    rw [hpTarget_absolute (by decide)] at htarget
    obtain ⟨hlt, rfl, hmin, hmax⟩ := absoluteTarget_eq_some_iff.1 htarget
    rw [← delayTo_eq hwf] at hmin hmax
    omega
  · rintro ⟨hop, hidle, rfl, hmin, hmax⟩
    exact accepted hop hidle (hpTarget_relative_iff.2 ⟨hmin, hmax, rfl⟩) (timeAdd_toNat hw _ _)
  · rintro ⟨hop, hidle, rfl, hlt, hmin, hmax⟩
    rw [delayTo_eq hwf] at hmin hmax
    refine accepted hop hidle ?_ rfl
    rw [hpTarget_absolute (by decide)]
    exact absoluteTarget_eq_some_iff.2 ⟨hlt, rfl, hmin, hmax⟩

/-! ### The match (R205 (a) and corner case (1), 60_exceptions.md R240) -/

/-- An `HP_START` that answers `Success` has found a deadline and armed the timer for it. -/
theorem exec_hpStart_success {s t : State} {mode : BitVec 4} (hp : s.cfg.hpPresent = true)
    (h : exec (.hpStart mode) s = .next t) (hstatus : t.status = 0) :
    ∃ target, hpTarget s.cfg mode s.opTimeout s.nowTime = some target ∧
      t = (s.hpArm target).withResults 0 0 0 0 := by
  have refused : ∀ {st : Word}, st ≠ 0 → exec (.hpStart mode) s ≠ .next (s.withResults st 0 0 0) :=
    fun hst heq => by
      cases h.symm.trans heq
      exact hst hstatus
  by_cases hop : s.opCb ≠ null ∧ (mode = 0 ∨ mode = 1)
  · by_cases hidle : s.hpCb = null
    · cases htime : hpTarget s.cfg mode s.opTimeout s.nowTime with
      | none => exact absurd (exec_hpStart_badTimeout hp hop hidle htime) (refused (by decide))
      | some target =>
        cases h.symm.trans (exec_hpStart_accepted hp hop hidle htime)
        exact ⟨target, rfl, rfl⟩
    · exact absurd (exec_hpStart_running hp hop hidle) (refused (by decide))
  · exact absurd (exec_hpStart_badOperands hp hop) (refused (by decide))

/-- A counter modulo `m` meets the value `d` counts ahead after `d` counts, and after a whole turn when it
stands on that value. -/
theorem exists_count_ahead_iff {m c d n : Nat} (hd : d < m) :
    (∃ k, 1 ≤ k ∧ k ≤ n ∧ (c + k) % m = (c + d) % m) ↔ (if d = 0 then m else d) ≤ n := by
  constructor
  · rintro ⟨k, hpos, hle, hk⟩
    have hkd : k % m = d := Eq.trans (Nat.ModEq.add_left_cancel' c hk) (Nat.mod_eq_of_lt hd)
    split
    · next hzero => exact (Nat.le_of_dvd hpos (Nat.dvd_of_mod_eq_zero (hkd.trans hzero))).trans hle
    · exact hkd ▸ (Nat.mod_le k m).trans hle
  · intro hle
    split at hle
    · next hzero => exact ⟨m, by omega, hle, by rw [hzero, Nat.add_mod_right, Nat.add_zero]⟩
    · exact ⟨d, by omega, hle, rfl⟩

/-- The count that is the forward distance of `target` ahead of the present one is `lo(target)` (R110, R112). -/
theorem count_ahead_eq_timeLo {s : State} (hwf : s.cfg.wellFormed = true) (henv : EnvInv s) (target : Word) :
    (s.cnt.toNat + (timeSub s.cfg target s.nowTime).toNat) % 2 ^ s.cfg.hw =
      (timeLo s.cfg target).toNat := by
  obtain ⟨-, hw, -, hhw, -⟩ := Params.wellFormed_bounds hwf
  have hspec : s.nowTime.toNat + (timeSub s.cfg target s.nowTime).toNat ≡ target.toNat [MOD 2 ^ s.cfg.hw] :=
    Nat.ModEq.of_dvd (Nat.pow_dvd_pow 2 hhw) (timeSub_spec hw target s.nowTime)
  rw [nowTime_toNat hwf henv, Nat.add_assoc] at hspec
  rw [timeLo_toNat, ← hspec, Nat.mul_comm, Nat.mul_add_mod]

/-- An armed timer's latch is set exactly from the `first` tick on: the delay, or a whole turn for a delay
of 0. -/
theorem ticks_hpIf_iff_of_armed {s : State} {target : Word} (hwf : s.cfg.wellFormed = true) (henv : EnvInv s)
    (hp : s.cfg.hpPresent = true) (hdelay : s.delayTo target < 2 ^ s.cfg.hw)
    (henv' : EnvInv ((s.hpArm target).withResults 0 0 0 0)) (n : Nat) :
    (State.ticks n ((s.hpArm target).withResults 0 0 0 0)).hpIf = true ↔
      (if s.delayTo target = 0 then 2 ^ s.cfg.hw else s.delayTo target) ≤ n := by
  have hlatch := (ticksAdvanceTheCounterAndLatch n ((s.hpArm target).withResults 0 0 0 0) hwf henv').hp
  have hlo := count_ahead_eq_timeLo hwf henv target
  rw [← delayTo_eq hwf] at hlo
  rw [hlatch, ← exists_count_ahead_iff (c := s.cnt.toNat) hdelay, hlo]
  exact ⟨fun h => (h.resolve_left Bool.false_ne_true).2.2, fun h => .inr ⟨hp, rfl, h⟩⟩

/-- Settles O51: the accepted deadline is less than a turn of the counter ahead, and the latch is set from
the first match on. -/
theorem hpMatchComesExactlyAfterTheDelay : Obligations.HpMatchComesExactlyAfterTheDelay := by
  intro s t mode hwf henv hp hexec hstatus
  have henv' : EnvInv t := (exec_end hexec).keeps_envInv henv
  obtain ⟨target, htime, rfl⟩ := exec_hpStart_success hp hexec hstatus
  have hdelay : s.delayTo target < 2 ^ s.cfg.hw := by
    rw [delayTo_eq hwf]
    exact hpTarget_delay_lt hwf htime
  have hlatch := ticks_hpIf_iff_of_armed hwf henv hp hdelay henv'
  exact ⟨fun k hk => Bool.eq_false_of_not_eq_true fun hset => Nat.not_le.2 hk ((hlatch k).1 hset),
    (hlatch _).2 le_rfl⟩

end Sys2Proof.Machine
end

section
/-! PROOFS. Exceptions (60_exceptions.md): illegal commands, the interrupt sources and their priority, the three
handlers, the platform operations on the compare unit, and the clock's step. -/

namespace Sys2Proof.Machine

/-! ### Illegal commands (R227) -/

/-- Settles O6: an issued illegal frame and a command refused in interrupt context have one answer, and `OPC` 0
is unassigned. -/
theorem illegalCommandsChangeOnlyTheResults : Obligations.IllegalCommandsChangeOnlyTheResults := by
  refine ⟨fun s w rest why => step_of_issues_illegal, fun s hirq => ?_, fun hp => ⟨.unassignedOpcode, ?_⟩⟩
  · have hrefused : (s.ctx == .irq) = true := beq_iff_eq.2 hirq
    exact ⟨exec_illegal hrefused, exec_illegal hrefused⟩
  · cases hp <;> decide

/-! ### The interrupt sources (R231, R235, R239) -/

theorem isDeliverable_iff {s : State} {src : Source} : s.isDeliverable src = true ↔
    (s.fault = .none ∧ s.gie = true ∧ s.ctx = .main) ∧ s.raisedSource src = true := by
  simp only [State.isDeliverable, Bool.and_eq_true, beq_iff_eq, and_assoc]

theorem raisedSource_ovf_iff {s : State} : s.raisedSource .ovf = true ↔ s.ovfIf = true ∧ s.ovfIe = true :=
  Bool.and_eq_true_iff

theorem raisedSource_hp_iff {s : State} :
    s.raisedSource .hp = true ↔ s.cfg.hpPresent = true ∧ s.hpIf = true ∧ s.hpIe = true := by
  simp only [State.raisedSource, Bool.and_eq_true, and_assoc]

theorem raisedSource_cmp_iff {s : State} : s.raisedSource .cmp = true ↔ s.cmpIf = true ∧ s.cmpIe = true :=
  Bool.and_eq_true_iff

/-- The source taken is the first deliverable one in the order `OVF`, `HP`, `CMP` (R235). -/
theorem deliverable_priority (s : State) :
    (s.deliverable = some .ovf ↔ s.isDeliverable .ovf = true) ∧
    (s.deliverable = some .hp ↔ ¬s.isDeliverable .ovf = true ∧ s.isDeliverable .hp = true) ∧
    (s.deliverable = some .cmp ↔
      ¬s.isDeliverable .ovf = true ∧ ¬s.isDeliverable .hp = true ∧ s.isDeliverable .cmp = true) ∧
    (s.deliverable = none ↔
      ¬s.isDeliverable .ovf = true ∧ ¬s.isDeliverable .hp = true ∧ ¬s.isDeliverable .cmp = true) := by
  unfold State.deliverable
  by_cases hovf : s.isDeliverable .ovf = true
  · simp [hovf]
  · by_cases hhp : s.isDeliverable .hp = true
    · simp [hovf, hhp]
    · by_cases hcmp : s.isDeliverable .cmp = true <;> simp [hovf, hhp, hcmp]

/-- Settles O33: the first deliverable source is taken, and each is deliverable in the same states but for its
own latch and enable. -/
theorem interruptSourcesAndTheirPriority : Obligations.InterruptSourcesAndTheirPriority := by
  intro s enabled ovf hp cmp
  have hovf : s.isDeliverable .ovf = true ↔ enabled ∧ ovf :=
    isDeliverable_iff.trans (and_congr_right' raisedSource_ovf_iff)
  have hhp : s.isDeliverable .hp = true ↔ enabled ∧ hp :=
    isDeliverable_iff.trans (and_congr_right' raisedSource_hp_iff)
  have hcmp : s.isDeliverable .cmp = true ↔ enabled ∧ cmp :=
    isDeliverable_iff.trans (and_congr_right' raisedSource_cmp_iff)
  clear_value enabled ovf hp cmp
  obtain ⟨takesOvf, takesHp, takesCmp, takesNone⟩ := deliverable_priority s
  rw [takesOvf, takesHp, takesCmp, takesNone, hovf, hhp, hcmp]
  by_cases henabled : enabled
  · simp [henabled]
  · simp [henabled]

/-! ### The handlers (R232 to R234, R237, R238) -/

/-- The epoch after an overflow, as the word its rule writes (R232). -/
theorem sysHighNext_eq {s : State} (h : s.cfg.w ≤ 32) :
    s.sysHighNext = BitVec.ofNat 32 ((s.sysHigh.toNat + 1) % 2 ^ s.cfg.shw) := by
  rw [← sysHighNext_toNat h, BitVec.ofNat_toNat, BitVec.setWidth_eq]

/-- The overflow handler returns from what the compare programmer leaves (R232, R238). -/
theorem takeInterrupt_ovf {s u : State} (h : progCompare s.interruptEntry.takeOverflow = .done () u) :
    takeInterrupt .ovf s = .next u.interruptReturn := by
  rw [takeInterrupt, handler, irqOvf, h]
  rfl

/-- Settles O35: with the epoch advanced the queues are still well formed, so the compare programmer is done. -/
theorem overflowHandlerAdvancesTheEpoch : Obligations.OverflowHandlerAdvancesTheEpoch := by
  intro s run exp hwf henv hq
  have henv' : EnvInv s.interruptEntry.takeOverflow :=
    { henv with sysHigh := s.sysHighNext_lt, irqContext := fun _ => rfl }
  have hq' : QueueWF s.interruptEntry.takeOverflow run exp := hq.congr rfl rfl rfl rfl rfl rfl
  obtain ⟨v, hdone, hprogrammed⟩ := progCompare_total (s := s.interruptEntry.takeOverflow) hwf henv' hq'
  refine ⟨v, takeInterrupt_ovf hdone, ?_⟩
  rw [← sysHighNext_eq (Params.w_le hwf)]
  exact hprogrammed

/-- The compare-match handler's end (R233, R238). -/
theorem takeInterrupt_cmp (s : State) : takeInterrupt .cmp s = .next { s with
    cmpIf := false, expiredFlag := s.expiredFlag || s.ocrAuth, ctx := .main, gie := true } := rfl

/-- Settles O36: the flag is set by the authority of the compare register. -/
theorem compareHandlerSetsTheExpiredFlag : Obligations.CompareHandlerSetsTheExpiredFlag := by
  intro s
  rw [takeInterrupt_cmp]
  constructor
  · intro hauth
    rw [hauth, Bool.or_true]
  · intro hauth
    rw [hauth, Bool.or_false]

/-- Settles O37: the two branches of the delivery, by whether a callback is registered. -/
theorem highPriorityDelivery : Obligations.HighPriorityDelivery := by
  refine fun s => ⟨fun hcb => ?_, fun hcb => ?_⟩
  · rw [takeInterrupt, handler, irqHp, if_neg hcb]
    rfl
  · rw [takeInterrupt, handler, irqHp, if_pos hcb]
    rfl

/-! ### The compare unit (R240, R242 to R244) -/

/-- With the compare interrupt disabled no tick latches a match (R240, R244). -/
theorem ticks_cmpIf_of_disabled (n : Nat) {s : State} (h : s.cmpIe = false) :
    (State.ticks n s).cmpIf = s.cmpIf := by
  induction n generalizing s with
  | zero => rfl
  | succ n ih =>
    calc (State.ticks n s.tick).cmpIf
        = s.tick.cmpIf := ih h
      _ = s.cmpIf := by rw [State.tick_cmpIf, h, Bool.false_and, Bool.or_false]

/-- Settles O34: each operation is its definition, and a disabled compare unit latches nothing. -/
theorem platformCompareOperations : Obligations.PlatformCompareOperations := fun _ _ =>
  ⟨rfl, rfl, rfl, fun n => ⟨rfl, ticks_cmpIf_of_disabled n rfl⟩⟩

/-! ### The clock's step (R240) -/

/-- With nothing faulted, a step on the clock's turn is a tick. -/
theorem step_of_clk {s : State} (hwf : s.cfg.wellFormed = true) (hf : s.fault = .none) (ht : s.turn = .clk) :
    step s = .next s.useTurn.tick := by
  rw [step_of_agent hwf (by simp [ht]), hf, ht]
  rfl

/-- The present count in `ocr` is met again after a whole turn of the counter, not before (R240). -/
theorem ticks_cmpIf_iff_of_present_count {s : State} (hwf : s.cfg.wellFormed = true) (henv : EnvInv s)
    (henable : s.cmpIe = true) (hclear : s.cmpIf = false) (n : Nat) :
    (State.ticks n (s.programCompare s.cnt)).cmpIf = true ↔ 2 ^ s.cfg.hw ≤ n := by
  have henv' : EnvInv (s.programCompare s.cnt) := { henv with ocr := henv.cnt }
  have hlatch := (ticksAdvanceTheCounterAndLatch n (s.programCompare s.cnt) hwf henv').cmp
  have hnever : ¬(s.programCompare s.cnt).cmpIf = true := by
    rw [State.programCompare_cmpIf, hclear]
    exact Bool.false_ne_true
  have hpresent : (s.cnt.toNat + 0) % 2 ^ s.cfg.hw = s.cnt.toNat := Nat.mod_eq_of_lt henv.cnt
  have hahead := exists_count_ahead_iff (c := s.cnt.toNat) (n := n) (Nat.two_pow_pos s.cfg.hw)
  rw [hpresent, if_pos rfl] at hahead
  rw [hlatch, or_iff_right hnever, ← hahead]
  exact and_iff_right henable

/-- Settles O29: the step is a tick, whose latches test the new count; the present count is a turn ahead. -/
theorem clockStepIsTheTick : Obligations.ClockStepIsTheTick := by
  constructor
  · intro s hwf hf ht
    obtain ⟨-, hw, -, hhw, -⟩ := Params.wellFormed_bounds hwf
    refine ⟨s.useTurn.tick, step_of_clk hwf hf ht, rfl, cntNext_toNat (s := s.useTurn) (hhw.trans hw), ?_, ?_, ?_⟩
    · rw [State.tick_ovfIf, Bool.or_eq_true, beq_iff_eq]
      rfl
    · rw [State.tick_cmpIf, Bool.or_eq_true, Bool.and_eq_true, beq_iff_eq]
      rfl
    · rw [State.tick_hpIf, Bool.or_eq_true, Bool.and_eq_true, Bool.and_eq_true, beq_iff_eq, and_assoc]
      rfl
  · intro s hwf henv henable hclear
    have hlatch := ticks_cmpIf_iff_of_present_count hwf henv henable hclear
    exact ⟨fun k hk => Bool.eq_false_of_not_eq_true fun hset => Nat.not_le.2 hk ((hlatch k).1 hset),
      (hlatch _).2 le_rfl⟩

end Sys2Proof.Machine
end

section
/-! PROOFS. Reset and hazards (70_reset_and_hazards.md): the reset line, and the epoch a second wrap loses. -/

namespace Sys2Proof.Machine

/-! ### The reset line (R260) -/

/-- A schedule that is not used up names the next turn. -/
theorem turn_of_sched {s : State} {t : Turn} {rest : List Turn} (h : s.sched = t :: rest) : s.turn = t := by
  rw [State.turn, h]

/-- Settles O22: the line's turn is taken in every state, and it leaves the rest of the schedule. -/
theorem resetLineRestoresTheResetState : Obligations.ResetLineRestoresTheResetState := by
  intro s program rest hwf hsched
  have hrest : s.useTurn.sched = rest := by rw [State.useTurn_sched, hsched, List.tail_cons]
  rw [step_of_reset hwf (turn_of_sched hsched), State.externalReset, hrest]
  rfl

/-! ### The lost epoch (R266) -/

/-- An epoch taken modulo `2^SHW` and joined with a count is the joined time modulo `2^W`. -/
theorem clock_mod {p : Params} (hwf : p.wellFormed = true) (epoch : Nat) {count : Nat} (hc : count < 2 ^ p.hw) :
    epoch % 2 ^ p.shw * 2 ^ p.hw + count = (epoch * 2 ^ p.hw + count) % 2 ^ p.w := by
  have hlt := clock_lt hwf (Nat.mod_lt epoch (Nat.two_pow_pos p.shw)) hc
  rw [← Nat.mod_eq_of_lt hlt, Params.modulus_split hwf, ← Nat.mul_mod_mul_right, Nat.mod_add_mod]

/-- With no tick at its `yield`, the overflow handler moves the time on by one epoch, however many wraps of the
counter the one latch stands for (60_exceptions.md R232). -/
theorem takeInterrupt_ovf_nowTime {s : State} {run exp : List TimerId} (hwf : s.cfg.wellFormed = true)
    (henv : EnvInv s) (hq : QueueWF s run exp) (hdraw : s.draws.headD 0 = 0) :
    ∃ t, takeInterrupt .ovf s = .next t ∧
      t.nowTime.toNat = (s.nowTime.toNat + 2 ^ s.cfg.hw) % 2 ^ s.cfg.w ∧ t.ovfIf = false := by
  obtain ⟨-, hw, -, -, hN, -⟩ := Params.wellFormed_bounds hwf
  obtain ⟨t, hnext, hcfg, hhigh, hcount, hovfIf⟩ := takeInterrupt_ovf_clock hq hN hdraw
  have henvt : EnvInv t := (takeInterrupt_end hnext).keeps_envInv henv
  refine ⟨t, hnext, ?_, hovfIf⟩
  calc t.nowTime.toNat
      = (s.sysHigh.toNat + 1) % 2 ^ s.cfg.shw * 2 ^ s.cfg.hw + s.cnt.toNat := by
        rw [nowTime_toNat (hcfg ▸ hwf) henvt, hhigh, sysHighNext_toNat hw, hcount, hcfg]
    _ = (s.nowTime.toNat + 2 ^ s.cfg.hw) % 2 ^ s.cfg.w := by
        rw [clock_mod hwf _ henv.cnt, nowTime_toNat hwf henv, Nat.succ_mul, Nat.add_right_comm]

theorem QueueWF.ticks {s : State} {run exp : List TimerId} (h : QueueWF s run exp) (n : Nat) :
    QueueWF (State.ticks n s) run exp :=
  h.congr (State.ticks_cfg n s) (State.ticks_slots n s) (State.ticks_runHead n s) (State.ticks_expHead n s)
    (State.ticks_expTail n s) (State.ticks_runCount n s)

/-- Settles O32: the ticks leave the epoch as it was and the counter at 0, so the handler's one epoch accounts for
the `n` ticks up to the wrap. The overflow pending before them adds nothing: the wrap sets the same latch. -/
theorem secondWrapLosesAnEpoch : Obligations.SecondWrapLosesAnEpoch := by
  intro s run exp n hwf henv hq _ hdraws hwrap
  have hwf' : (State.ticks n s).cfg.wellFormed = true := by rwa [State.ticks_cfg]
  have hcnt : (State.ticks n s).cnt.toNat = 0 := by
    rw [(ticksAdvanceTheCounterAndLatch n s hwf henv).cnt, hwrap, Nat.mod_self]
  have hbehind : (State.ticks n s).nowTime.toNat = s.sysHigh.toNat * 2 ^ s.cfg.hw := by
    rw [nowTime_toNat hwf' henv.ticks, hcnt, State.ticks_sysHigh, State.ticks_cfg, Nat.add_zero]
  have hdraw : (State.ticks n s).draws.headD 0 = 0 := by
    rw [State.ticks_draws, hdraws]
    rfl
  obtain ⟨t, hnext, htime, hovfIf⟩ := takeInterrupt_ovf_nowTime hwf' henv.ticks (hq.ticks n) hdraw
  refine ⟨t, hnext, ?_, hovfIf⟩
  rw [htime, hbehind, State.ticks_cfg, nowTime_toNat hwf henv, Nat.add_assoc, hwrap]

end Sys2Proof.Machine
end
